-- ==== Sys2Proof/Word.lean ====
section
/-!
DEFINITION. The byte, the only word of this hardware (R7: a byte is an unsigned 8-bit value).
-/

namespace Sys2Proof

/-- A byte: the width of a peer register, of a command byte and of a response byte (R7, R54). -/
abbrev Byte := BitVec 8

end Sys2Proof
end

