-- ==== Sys2Proof/Config.lean ====
section
/-!
DEFINITION. What a model instance is built with: the parameters of R5, the constants that the source settles, and the free
values the spec leaves open. The values of the MCP2515 are in Machine/Mcp2515.lean.
-/

namespace Sys2Proof

/-- REMOTE_TX (R5): what ENCODE and SEND do with a remote-request frame. -/
inductive RemoteTx where
  | refuse
  | encode
  deriving DecidableEq, Repr

/-- TX_TRIGGER_FORM (R5): the exchange that requests a transmission (R127). -/
inductive TriggerForm where
  | bitModify
  | rts
  deriving DecidableEq, Repr

/-- One result of the timing lookup: the three timing-register bytes (R26, R170). -/
structure TimingTriple where
  cnf1 : Byte
  cnf2 : Byte
  cnf3 : Byte
  deriving DecidableEq, Repr, Inhabited

/-- One row of TIMING_TABLE: the triple for an oscillator in MHz and a bitrate in kbit/s (R174). -/
structure TimingEntry where
  osc : Byte
  rate : BitVec 16
  triple : TimingTriple
  deriving DecidableEq, Repr, Inhabited

/-- What a peer of another make would change (R2, R5): the address range, the buffer bases and offsets, the register
addresses, the bit positions and the serial opcodes, each under its name in R5; then the other numbers that R29, R31 and
R175 take from the MCP2515. The values of the MCP2515 are Chip.mcp2515 (Machine/Mcp2515.lean). What R5 grounds in the
source alone is not here but a constant: N_TXB, N_RXB, MAX_PAYLOAD, STD_ID_BITS, EXT_ID_BITS, SIDL_SID_MASK,
SIDL_EID_MASK, DLC_LEN_MASK. -/
structure Chip where
  /-- How many peer addresses are implemented, from 0x00 up (R28, G10). -/
  size : Nat
  /-- TXB_BASE(n). -/
  txb0 : Nat
  txb1 : Nat
  txb2 : Nat
  /-- RXB_BASE(n). -/
  rxb0 : Nat
  rxb1 : Nat
  offCtrl : Nat
  offSidh : Nat
  offSidl : Nat
  offEid8 : Nat
  offEid0 : Nat
  offDlc : Nat
  offD0 : Nat
  regCanintf : Nat
  regCaninte : Nat
  regCnf1 : Nat
  regCnf2 : Nat
  regCnf3 : Nat
  /-- RXIF_MASK(n). -/
  rxif0 : Byte
  rxif1 : Byte
  exideMask : Byte
  dlcRtrMask : Byte
  rxrtrMask : Byte
  txreqMask : Byte
  opRead : Byte
  opWrite : Byte
  opBitmod : Byte
  opReset : Byte
  opReadStatus : Byte
  opRxStatus : Byte
  opReadRxb : Byte
  opLoadTxb : Byte
  opRts : Byte
  /-- DUMMY, the byte the block sends while it clocks in read data. -/
  dummy : Byte
  /-- ABTF, MLOA and TXERR of TXBnCTRL, which the chip changes beside TXREQ (R29, R30 (c)). -/
  txStatusMask : Byte
  /-- TXP of TXBnCTRL (R29). -/
  txpMask : Byte
  /-- RXM of RXBnCTRL (R29). -/
  rxmMask : Byte
  /-- BUKT of RXB0CTRL, and BUKT1, its read-only copy (R29). -/
  buktMask : Byte
  bukt1Mask : Byte
  /-- FILHIT of RXBnCTRL (R29). -/
  filhit0 : Byte
  filhit1 : Byte
  /-- TXnIF of CANINTF (R29). -/
  txif0 : Byte
  txif1 : Byte
  txif2 : Byte
  /-- The implemented bits of CNF3; the others read 0 (R175). -/
  cnf3Mask : Byte
  /-- CANSTAT and CANCTRL, and the distance between the addresses at which each answers; 0 for one address (R31). -/
  regCanstat : Nat
  regCanctrl : Nat
  mirrorStep : Nat
  /-- OPMOD of CANSTAT, and its values in Configuration mode and in Sleep (R31). -/
  opmodMask : Byte
  opmodConfiguration : Byte
  opmodSleep : Byte
  /-- The registers of R31 of which the spec says neither that a write changes them nor that it does not. -/
  unstatedRegs : List Nat
  deriving DecidableEq, Repr

/-- The parameters of a model instance (R5). State carries them in a field that no step changes (R242), so that a claim
about every state is a claim about every instance. TIMING_TABLE is a pair of fields: R6 gives every table an entry at
(8, 125), so that entry has a field of its own. `chipReset` is the parameter R243 allows: (address, byte) pairs, the
first for an address counts. `spiActiveInSleep` says whether exchanges have their ordinary effect while the chip sleeps:
R230 has the MCP2515's serial interface stay active, G26 leaves it open (log 33). DESIGN CHOICE (log 2): safe, a claim covers every value. -/
structure Params where
  remoteTx : RemoteTx
  triggerForm : TriggerForm
  timing8x125 : TimingTriple
  otherTimings : List TimingEntry
  chip : Chip
  chipReset : List (Nat × Byte)
  spiActiveInSleep : Bool
  deriving DecidableEq, Repr

/-! ## The parameters that the source settles (R5) -/

/-- N_TXB. -/
def nTxb : Nat := 3
/-- N_RXB. -/
def nRxb : Nat := 2
/-- MAX_PAYLOAD. -/
def maxPayload : Nat := 8
/-- STD_ID_BITS. -/
def stdIdBits : Nat := 11
/-- EXT_ID_BITS. -/
def extIdBits : Nat := 29
/-- SIDL_SID_MASK. -/
def sidlSidMask : Byte := 0xE0
/-- SIDL_EID_MASK. -/
def sidlEidMask : Byte := 0x03
/-- DLC_LEN_MASK. -/
def dlcLenMask : Byte := 0x0F

namespace Config

/-- The documented triple for (8 MHz, 125 kbit/s): the source does not give it (N20), so nothing is known of it. -/
opaque documentedTriple : TimingTriple

/-- Free values, one for each draw: the payload of a decoded remote frame (R155) and the RX_STATUS bits that R195 leaves
open. -/
opaque freeByte : Nat → Byte

/-- The register values of the peer's own RESET in the instance the model starts with: the source does not give them
(R243, N6). -/
opaque peerResetValues : List (Nat × Byte)

/-- Whether the serial interface of the instance the model starts with is active in Sleep (R230, G26). -/
opaque spiActiveInSleep : Bool

/-- The registers that an exchange in Sleep leaves at other values, (address, byte) pairs, one list for each draw: where
the interface is not active the effect is any value (G26). -/
opaque sleepChanges : Nat → List (Nat × Byte)

/-- Which bits a WRITE changes in the registers, or the FILHIT bits, of which the spec does not state it (R28). -/
opaque writableUnstated : Nat → Byte

/-- Whether a register other than TXBnCTRL and CANINTF honours the mask of a BIT_MODIFY (R62, R192). -/
opaque honoursMaskUnstated : Nat → Bool

/-- Whether a BIT_MODIFY with mask 0 writes a register that does not honour masks: R192 says both that such a mask is
taken as 0xFF and that m = 0 changes nothing (log 7). -/
opaque zeroMaskWrites : Nat → Bool

end Config

end Sys2Proof
end

