-- ==== Sys2Proof/Machine/Mcp2515.lean ====
section
/-!
DEFINITION. The values of R5: the chip the spec takes the peer to be (R2), and the instance the model starts with.
-/

namespace Sys2Proof

/-- The MCP2515, value by value from R5 and R28, and from R29, R31 and R175 below `dummy`. The unstated registers are
BFPCTRL, TXRTSCTRL, CANSTAT, TEC, REC and EFLG. -/
def Chip.mcp2515 : Chip :=
  { size := 128
    txb0 := 0x30
    txb1 := 0x40
    txb2 := 0x50
    rxb0 := 0x60
    rxb1 := 0x70
    offCtrl := 0
    offSidh := 1
    offSidl := 2
    offEid8 := 3
    offEid0 := 4
    offDlc := 5
    offD0 := 6
    regCanintf := 0x2C
    regCaninte := 0x2B
    regCnf1 := 0x2A
    regCnf2 := 0x29
    regCnf3 := 0x28
    rxif0 := 0x01
    rxif1 := 0x02
    exideMask := 0x08
    dlcRtrMask := 0x40
    rxrtrMask := 0x08
    txreqMask := 0x08
    opRead := 0x03
    opWrite := 0x02
    opBitmod := 0x05
    opReset := 0xC0
    opReadStatus := 0xA0
    opRxStatus := 0xB0
    opReadRxb := 0x90
    opLoadTxb := 0x40
    opRts := 0x80
    dummy := 0x00
    txStatusMask := 0x70
    txpMask := 0x03
    rxmMask := 0x60
    buktMask := 0x04
    bukt1Mask := 0x02
    filhit0 := 0x01
    filhit1 := 0x07
    txif0 := 0x04
    txif1 := 0x08
    txif2 := 0x10
    cnf3Mask := 0xC7
    regCanstat := 0x0E
    regCanctrl := 0x0F
    mirrorStep := 16
    opmodMask := 0xE0
    opmodConfiguration := 0x80
    opmodSleep := 0x20
    unstatedRegs := [0x0C, 0x0D, 0x0E, 0x1C, 0x1D, 0x2D] }

/-- The instance the model starts with: REMOTE_TX = Refuse, TX_TRIGGER_FORM = BitModify and the MCP2515 are the spec's
defaults (R5, D1); the table has the (8, 125) entry alone, the convention of 95_test_vectors.md; nothing is known of the
peer's reset values, nor of its interface in Sleep. DESIGN CHOICE (log 3): unsafe for a claim about a run from reset that looks up another pair. -/
def Config.defaultParams : Params :=
  { remoteTx := .refuse
    triggerForm := .bitModify
    timing8x125 := Config.documentedTriple
    otherTimings := []
    chip := .mcp2515
    chipReset := Config.peerResetValues
    spiActiveInSleep := Config.spiActiveInSleep }

end Sys2Proof
end

