-- ==== Sys2Proof/Syntax.lean ====
section
/-!
DEFINITION. The syntax: the exchanges of the peer's bus (R96) and the instructions, one constructor for each row of
opcode_table.json. An instruction carries its operands and nothing else; LEN of a frame is the number of its data bytes
(R83: a frame command has 6 + LEN bytes).
-/

namespace Sys2Proof

/-- KIND of a frame descriptor (R88): standard (11-bit) or extended (29-bit) identifier. -/
inductive FrameKind where
  | std
  | ext
  deriving DecidableEq, Repr

/-- RTR of a frame descriptor (R88): data frame or remote-request frame. -/
inductive FrameType where
  | data
  | remote
  deriving DecidableEq, Repr

/-- One exchange on the peer's bus (R50, R96). A count is the number of bytes the master clocks after the fixed part. -/
inductive Exchange where
  | read (a : Byte) (n : Nat)
  | write (a : Byte) (data : List Byte)
  | bitModify (a m v : Byte)
  | reset
  | readStatus (k : Nat)
  | rxStatus (k : Nat)
  | readRxb (n m : BitVec 1) (k : Nat)
  | loadTxb (abc : BitVec 3) (data : List Byte)
  | rts (t : BitVec 3)
  deriving DecidableEq, Repr

/-- The instructions: the commands of the block (R84) and the exchanges another master can issue (R190 to R198). -/
inductive Instr where
  | encodeStdData (buf : BitVec 2) (id : BitVec 32) (data : List Byte)
  | encodeExtData (buf : BitVec 2) (id : BitVec 32) (data : List Byte)
  | encodeStdRtr (buf : BitVec 2) (id : BitVec 32) (data : List Byte)
  | encodeExtRtr (buf : BitVec 2) (id : BitVec 32) (data : List Byte)
  | sendStdData (buf : BitVec 2) (id : BitVec 32) (data : List Byte)
  | sendExtData (buf : BitVec 2) (id : BitVec 32) (data : List Byte)
  | sendStdRtr (buf : BitVec 2) (id : BitVec 32) (data : List Byte)
  | sendExtRtr (buf : BitVec 2) (id : BitVec 32) (data : List Byte)
  | trigger (buf : BitVec 2)
  | decode (buf : BitVec 2)
  | timing (osc : Byte) (rate : BitVec 16)
  | wrctrl (v : Byte)
  | spiRead (a : Byte) (n : Nat)
  | spiWrite (a : Byte) (data : List Byte)
  | spiBitModify (a m v : Byte)
  | spiReset
  | spiReadStatus (k : Nat)
  | spiRxStatus (k : Nat)
  | spiReadRxb (n m : BitVec 1) (k : Nat)
  | spiLoadTxb (abc : BitVec 3) (data : List Byte)
  | spiRts (t : BitVec 3)
  deriving DecidableEq, Repr

/-- The two places an instruction's bytes arrive at: the block's command port (R80) and the peer's bus (R96). Their
encodings overlap (0x40 is DECODE at the one and LOAD_TXB at the other), so the place is part of the decoding. -/
inductive Port where
  | command
  | bus
  deriving DecidableEq, Repr

/-- The instruction that a master's exchange is. -/
def Instr.ofExchange : Exchange → Instr
  | .read a n => .spiRead a n
  | .write a data => .spiWrite a data
  | .bitModify a m v => .spiBitModify a m v
  | .reset => .spiReset
  | .readStatus k => .spiReadStatus k
  | .rxStatus k => .spiRxStatus k
  | .readRxb n m k => .spiReadRxb n m k
  | .loadTxb abc data => .spiLoadTxb abc data
  | .rts t => .spiRts t

/-- The exchange that an instruction is; a command of the block is none. -/
def Instr.exchange? : Instr → Option Exchange
  | .spiRead a n => some (.read a n)
  | .spiWrite a data => some (.write a data)
  | .spiBitModify a m v => some (.bitModify a m v)
  | .spiReset => some .reset
  | .spiReadStatus k => some (.readStatus k)
  | .spiRxStatus k => some (.rxStatus k)
  | .spiReadRxb n m k => some (.readRxb n m k)
  | .spiLoadTxb abc data => some (.loadTxb abc data)
  | .spiRts t => some (.rts t)
  | .encodeStdData _ _ _ => none
  | .encodeExtData _ _ _ => none
  | .encodeStdRtr _ _ _ => none
  | .encodeExtRtr _ _ _ => none
  | .sendStdData _ _ _ => none
  | .sendExtData _ _ _ => none
  | .sendStdRtr _ _ _ => none
  | .sendExtRtr _ _ _ => none
  | .trigger _ => none
  | .decode _ => none
  | .timing _ _ => none
  | .wrctrl _ => none

/-- Where an instruction's bytes arrive. -/
def Instr.port (i : Instr) : Port :=
  match i.exchange? with
  | some _ => .bus
  | none => .command

/-- A frame of the data model (R10). -/
structure Frame where
  kind : FrameKind
  type : FrameType
  id : Nat
  data : List Byte
  deriving DecidableEq, Repr

end Sys2Proof
end

