-- ==== Sys2Proof/WellFormed.lean ====
section
/-!
DEFINITION. Well-formed syntax: the instructions that have an encoding which the structural check of R87 lets through, or
the framing of R96. An operand out of its range (BUF 3, LEN 9 to 15, an identifier too wide) is well formed: it is an
argument that the command refuses with a status of its own (R82, R97).
-/

namespace Sys2Proof

/-- LEN of a frame command has four bits (R88). -/
def lenFits (data : List Byte) : Bool := decide (data.length ≤ 15)

/-- The exchanges that have a framing: a READ or WRITE moves at least one byte (R190, R191), a status command clocks at
least one (R96), and LOAD_TXB defines six of the eight values of abc (R197). -/
def Exchange.wellFormed : Exchange → Bool
  | .read _ n => decide (1 ≤ n)
  | .write _ data => decide (1 ≤ data.length)
  | .bitModify _ _ _ => true
  | .reset => true
  | .readStatus k => decide (1 ≤ k)
  | .rxStatus k => decide (1 ≤ k)
  | .readRxb _ _ _ => true
  | .loadTxb abc _ => decide (abc.toNat < 6)
  | .rts _ => true

/-- The instructions that have an encoding. The value of WRCTRL has bits 7:1 zero (R87). -/
def Instr.wellFormed : Instr → Bool
  | .encodeStdData _ _ data => lenFits data
  | .encodeExtData _ _ data => lenFits data
  | .encodeStdRtr _ _ data => lenFits data
  | .encodeExtRtr _ _ data => lenFits data
  | .sendStdData _ _ data => lenFits data
  | .sendExtData _ _ data => lenFits data
  | .sendStdRtr _ _ data => lenFits data
  | .sendExtRtr _ _ data => lenFits data
  | .trigger _ => true
  | .decode _ => true
  | .timing _ _ => true
  | .wrctrl v => decide (v.toNat < 2)
  | .spiRead a n => (Exchange.read a n).wellFormed
  | .spiWrite a data => (Exchange.write a data).wellFormed
  | .spiBitModify a m v => (Exchange.bitModify a m v).wellFormed
  | .spiReset => Exchange.reset.wellFormed
  | .spiReadStatus k => (Exchange.readStatus k).wellFormed
  | .spiRxStatus k => (Exchange.rxStatus k).wellFormed
  | .spiReadRxb n m k => (Exchange.readRxb n m k).wellFormed
  | .spiLoadTxb abc data => (Exchange.loadTxb abc data).wellFormed
  | .spiRts t => (Exchange.rts t).wellFormed

/-- The largest identifier of a kind, plus one (R10): 11 bits standard, 29 bits extended. -/
def FrameKind.idLimit : FrameKind → Nat
  | .std => 2 ^ stdIdBits
  | .ext => 2 ^ extIdBits

/-- A frame is well formed when its payload has at most 8 bytes and its identifier fits its width (R10). -/
def Frame.wellFormed (f : Frame) : Bool :=
  decide (f.data.length ≤ maxPayload) && decide (f.id < f.kind.idLimit)

end Sys2Proof
end

