-- ==== Sys2Proof/Decode.lean ====
section
/-!
DEFINITION. Decoding, total on any bytes and rejecting by name, and after it the encoder. Two decoders: commands (R80 to
R91) and exchanges (R96); then the numbering of opcode_table.json (R100).
-/

namespace Sys2Proof

/-! ## Fields -/

/-- OPC, header bits 7:4 (R81). -/
def opcOf (h : Byte) : BitVec 4 := h.extractLsb' 4 4
/-- RSV, header bits 3:2 (R81). -/
def rsvOf (h : Byte) : BitVec 2 := h.extractLsb' 2 2
/-- BUF, header bits 1:0 (R81, R82). -/
def bufOf (h : Byte) : BitVec 2 := h.extractLsb' 0 2
/-- KIND, F0 bit 7 (R88). -/
def kindOf (f0 : Byte) : FrameKind := if f0.getLsbD 7 then .ext else .std
/-- RTR, F0 bit 6 (R88). -/
def typeOf (f0 : Byte) : FrameType := if f0.getLsbD 6 then .remote else .data
/-- The reserved bits 5:4 of F0 (R88). -/
def f0RsvOf (f0 : Byte) : BitVec 2 := f0.extractLsb' 4 2
/-- LEN, F0 bits 3:0 (R88, R90). -/
def lenOf (f0 : Byte) : Nat := (f0.extractLsb' 0 4).toNat

/-- The bit that encodes a kind (R88). -/
def kindBit : FrameKind → BitVec 1
  | .std => 0
  | .ext => 1

/-- The bit that encodes a frame type (R88). -/
def typeBit : FrameType → BitVec 1
  | .data => 0
  | .remote => 1

/-- A header byte: OPC, RSV = 0, BUF (R81). -/
def headerByte (opc : BitVec 4) (buf : BitVec 2) : Byte := opc ++ (0 : BitVec 2) ++ buf

/-- The byte F0 of a descriptor: KIND, RTR, two zero bits, LEN (R88). -/
def f0Byte (kind : FrameKind) (type : FrameType) (len : Nat) : Byte :=
  kindBit kind ++ typeBit type ++ (0 : BitVec 2) ++ BitVec.ofNat 4 len

/-- F1 to F4: the identifier, most significant byte first (R53 (d), R88). -/
def idBytes (id : BitVec 32) : List Byte :=
  [id.extractLsb' 24 8, id.extractLsb' 16 8, id.extractLsb' 8 8, id.extractLsb' 0 8]

/-- ID = F1·2^24 + F2·2^16 + F3·2^8 + F4 (R88, R90). -/
def idOf (f1 f2 f3 f4 : Byte) : BitVec 32 := f1 ++ f2 ++ f3 ++ f4

/-- RATE = (byte 2 << 8) | byte 3 (R90). -/
def rateOf (hi lo : Byte) : BitVec 16 := hi ++ lo

/-! ## Commands -/

/-- The three sub-codes of ILLEGAL_COMMAND (R87). -/
inductive Illegal where
  | reservedOpcode
  | wrongLength
  | reservedBit
  deriving DecidableEq, Repr

/-- Why a byte string is no instruction. -/
inductive DecodeError where
  /-- A command that the structural check refuses (R87). -/
  | illegal (r : Illegal)
  /-- No byte at all: a command has 1 to 21 bytes (R80), an exchange at least one (R96). -/
  | noBytes
  /-- A first byte that opens no exchange (R96). -/
  | unknownOpcode
  /-- An exchange with too few or too many bytes for its opcode (R96). -/
  | badFraming
  /-- LOAD_TXB with abc = 110 or 111, "not defined" (R197). -/
  | undefinedLoadTxb
  deriving DecidableEq, Repr

/-- The operations that have a meaning: OPC 0x1 to 0x6 (R84). -/
def opcodeDefined (opc : BitVec 4) : Bool := decide (1 ≤ opc.toNat) && decide (opc.toNat ≤ 6)

/-- Whether a command with this header and these operand bytes has the length of its format (R83, R87). -/
def lengthOk (h : Byte) (ops : List Byte) : Bool :=
  match (opcOf h).toNat with
  | 1 => decide (5 ≤ ops.length) && decide (ops.length = 5 + lenOf (ops.headD 0))
  | 2 => decide (ops.length = 0)
  | 3 => decide (5 ≤ ops.length) && decide (ops.length = 5 + lenOf (ops.headD 0))
  | 4 => decide (ops.length = 0)
  | 5 => decide (ops.length = 3)
  | 6 => decide (ops.length = 1)
  | _ => false

/-- Whether a reserved bit of a command of the right length is set (R87). -/
def reservedSet (h : Byte) (ops : List Byte) : Bool :=
  decide (rsvOf h ≠ 0) ||
  match (opcOf h).toNat with
  | 1 => decide (f0RsvOf (ops.headD 0) ≠ 0)
  | 3 => decide (f0RsvOf (ops.headD 0) ≠ 0)
  | 5 => decide (bufOf h ≠ 0)
  | 6 => decide (bufOf h ≠ 0) || decide ((ops.headD 0).extractLsb' 1 7 ≠ 0)
  | _ => false

/-- The structural check of R87, in its order: opcode, then length, then reserved bits. A string of no bytes is no
command (R80); Machine/Fetch.lean refuses it before this check. -/
def structuralCheck : List Byte → Option Illegal
  | [] => some .wrongLength
  | h :: ops =>
    if opcodeDefined (opcOf h) = false then some .reservedOpcode
    else if lengthOk h ops = false then some .wrongLength
    else if reservedSet h ops then some .reservedBit
    else none

/-- The variant of ENCODE that KIND and RTR select, with no default arm (R89, R120). -/
def encodeVariant (kind : FrameKind) (type : FrameType) (buf : BitVec 2) (id : BitVec 32) (data : List Byte) : Instr :=
  match kind, type with
  | .std, .data => .encodeStdData buf id data
  | .ext, .data => .encodeExtData buf id data
  | .std, .remote => .encodeStdRtr buf id data
  | .ext, .remote => .encodeExtRtr buf id data

/-- The variant of SEND that KIND and RTR select (R89, R120). -/
def sendVariant (kind : FrameKind) (type : FrameType) (buf : BitVec 2) (id : BitVec 32) (data : List Byte) : Instr :=
  match kind, type with
  | .std, .data => .sendStdData buf id data
  | .ext, .data => .sendExtData buf id data
  | .std, .remote => .sendStdRtr buf id data
  | .ext, .remote => .sendExtRtr buf id data

/-- The operands of a command that has passed the structural check (R90). The last arm is then not reached. -/
def commandOf (h : Byte) (ops : List Byte) : Except DecodeError Instr :=
  match (opcOf h).toNat, ops with
  | 1, f0 :: f1 :: f2 :: f3 :: f4 :: data => .ok (encodeVariant (kindOf f0) (typeOf f0) (bufOf h) (idOf f1 f2 f3 f4) data)
  | 2, [] => .ok (.trigger (bufOf h))
  | 3, f0 :: f1 :: f2 :: f3 :: f4 :: data => .ok (sendVariant (kindOf f0) (typeOf f0) (bufOf h) (idOf f1 f2 f3 f4) data)
  | 4, [] => .ok (.decode (bufOf h))
  | 5, [osc, rateH, rateL] => .ok (.timing osc (rateOf rateH rateL))
  | 6, [v] => .ok (.wrctrl v)
  | _, _ => .error (.illegal .wrongLength)

/-- The command that a byte string at the command port is (R83, R84, R87). -/
def decodeCommand : List Byte → Except DecodeError Instr
  | [] => .error .noBytes
  | h :: ops =>
    match structuralCheck (h :: ops) with
    | some r => .error (.illegal r)
    | none => commandOf h ops

/-! ## Exchanges -/

/-- The first byte of READ_RXB, `0b1001_0nm0` on its base 0x90 (R96). -/
def readRxbByte (c : Chip) (n m : BitVec 1) : Byte := c.opReadRxb ||| ((0 : BitVec 5) ++ n ++ m ++ (0 : BitVec 1))
/-- The first byte of LOAD_TXB, `0b0100_0abc` on its base 0x40 (R96). -/
def loadTxbByte (c : Chip) (abc : BitVec 3) : Byte := c.opLoadTxb ||| ((0 : BitVec 5) ++ abc)
/-- The first byte of RTS, `0b1000_0t2t1t0` on its base 0x80 (R96). -/
def rtsByte (c : Chip) (t : BitVec 3) : Byte := c.opRts ||| ((0 : BitVec 5) ++ t)

/-- The exchange whose first byte is `op` (R96). What a master sends while the chip shifts data out is ignored (D19), so
those bytes are counted and not looked at. -/
def exchangeOf (c : Chip) (op : Byte) (rest : List Byte) : Except DecodeError Exchange :=
  if op = c.opRead then
    match rest with
    | a :: clocked => if clocked.length = 0 then .error .badFraming else .ok (.read a clocked.length)
    | [] => .error .badFraming
  else if op = c.opWrite then
    match rest with
    | a :: data => if data.length = 0 then .error .badFraming else .ok (.write a data)
    | [] => .error .badFraming
  else if op = c.opBitmod then
    match rest with
    | [a, m, v] => .ok (.bitModify a m v)
    | _ => .error .badFraming
  else if op = c.opReset then
    if rest.length = 0 then .ok .reset else .error .badFraming
  else if op = c.opReadStatus then
    if rest.length = 0 then .error .badFraming else .ok (.readStatus rest.length)
  else if op = c.opRxStatus then
    if rest.length = 0 then .error .badFraming else .ok (.rxStatus rest.length)
  else if op &&& 0xF9 = c.opReadRxb then
    .ok (.readRxb (op.extractLsb' 2 1) (op.extractLsb' 1 1) rest.length)
  else if op &&& 0xF8 = c.opLoadTxb then
    if (op.extractLsb' 0 3).toNat < 6 then .ok (.loadTxb (op.extractLsb' 0 3) rest) else .error .undefinedLoadTxb
  else if op &&& 0xF8 = c.opRts then
    if rest.length = 0 then .ok (.rts (op.extractLsb' 0 3)) else .error .badFraming
  else .error .unknownOpcode

/-- The exchange that the bytes a master sends under one chip-select are (R96, R199). -/
def decodeExchange (c : Chip) : List Byte → Except DecodeError Exchange
  | [] => .error .noBytes
  | op :: rest => exchangeOf c op rest

/-- The instruction that a byte string is, at the place it arrives at, with the opcodes of the MCP2515. -/
def decode (p : Port) (bs : List Byte) : Except DecodeError Instr :=
  match p with
  | .command => decodeCommand bs
  | .bus =>
    match decodeExchange .mcp2515 bs with
    | .ok x => .ok (Instr.ofExchange x)
    | .error e => .error e

/-! ## The encoder -/

/-- The bytes of a frame command (R83, CF-FRAME). -/
def frameBytes (opc : BitVec 4) (kind : FrameKind) (type : FrameType) (buf : BitVec 2) (id : BitVec 32)
    (data : List Byte) : List Byte :=
  headerByte opc buf :: f0Byte kind type data.length :: (idBytes id ++ data)

/-- The MOSI bytes of an exchange (R96). -/
def encodeExchange (c : Chip) : Exchange → List Byte
  | .read a n => c.opRead :: a :: List.replicate n c.dummy
  | .write a data => c.opWrite :: a :: data
  | .bitModify a m v => [c.opBitmod, a, m, v]
  | .reset => [c.opReset]
  | .readStatus k => c.opReadStatus :: List.replicate k c.dummy
  | .rxStatus k => c.opRxStatus :: List.replicate k c.dummy
  | .readRxb n m k => readRxbByte c n m :: List.replicate k c.dummy
  | .loadTxb abc data => loadTxbByte c abc :: data
  | .rts t => [rtsByte c t]

/-- The bytes of an instruction, from the formats of R83 and R96, with the opcodes of the MCP2515. -/
def encode : Instr → List Byte
  | .encodeStdData buf id data => frameBytes 1 .std .data buf id data
  | .encodeExtData buf id data => frameBytes 1 .ext .data buf id data
  | .encodeStdRtr buf id data => frameBytes 1 .std .remote buf id data
  | .encodeExtRtr buf id data => frameBytes 1 .ext .remote buf id data
  | .sendStdData buf id data => frameBytes 3 .std .data buf id data
  | .sendExtData buf id data => frameBytes 3 .ext .data buf id data
  | .sendStdRtr buf id data => frameBytes 3 .std .remote buf id data
  | .sendExtRtr buf id data => frameBytes 3 .ext .remote buf id data
  | .trigger buf => [headerByte 2 buf]
  | .decode buf => [headerByte 4 buf]
  | .timing osc rate => [headerByte 5 0, osc, rate.extractLsb' 8 8, rate.extractLsb' 0 8]
  | .wrctrl v => [headerByte 6 0, v]
  | .spiRead a n => encodeExchange .mcp2515 (.read a n)
  | .spiWrite a data => encodeExchange .mcp2515 (.write a data)
  | .spiBitModify a m v => encodeExchange .mcp2515 (.bitModify a m v)
  | .spiReset => encodeExchange .mcp2515 .reset
  | .spiReadStatus k => encodeExchange .mcp2515 (.readStatus k)
  | .spiRxStatus k => encodeExchange .mcp2515 (.rxStatus k)
  | .spiReadRxb n m k => encodeExchange .mcp2515 (.readRxb n m k)
  | .spiLoadTxb abc data => encodeExchange .mcp2515 (.loadTxb abc data)
  | .spiRts t => encodeExchange .mcp2515 (.rts t)

/-- The assembler's RTR forms take a length and lay down that many zero bytes (R99). -/
def asmRtr (send : Bool) (kind : FrameKind) (buf : BitVec 2) (id : BitVec 32) (len : Nat) : Instr :=
  if send then sendVariant kind .remote buf id (List.replicate len 0x00)
  else encodeVariant kind .remote buf id (List.replicate len 0x00)

/-- The pseudo-instruction INTMODE (R99). -/
def asmIntmode : Instr := .wrctrl 0x01
/-- The pseudo-instruction POLLMODE (R99). -/
def asmPollmode : Instr := .wrctrl 0x00
/-- The pseudo-instruction DRAIN: buffer 0, then buffer 1 (R99, R219). -/
def asmDrain : List Instr := [.decode 0, .decode 1]

/-! ## The numbering of the opcode table -/

/-- A word of `n` bytes, most significant byte first: the table's 16-bit rows are `(header << 8) | F0` (R100). -/
def bigEndianBytes : Nat → Nat → List Byte
  | 0, _ => []
  | n + 1, w => BitVec.ofNat 8 (w / 256 ^ n) :: bigEndianBytes n w

/-- A byte string lengthened with zero bytes to `n` bytes. -/
def padTo (n : Nat) (bs : List Byte) : List Byte := bs ++ List.replicate (n - bs.length) 0x00

/-- The length of the command that starts with these bytes (R83, R98); its own for a reserved opcode. -/
def commandLength (bs : List Byte) : Nat :=
  match (opcOf (bs.headD 0)).toNat with
  | 1 => 6 + lenOf (bs.getD 1 0)
  | 2 => 1
  | 3 => 6 + lenOf (bs.getD 1 0)
  | 4 => 1
  | 5 => 4
  | 6 => 2
  | _ => bs.length

/-- The least length of the exchange that starts with these bytes (R96). -/
def exchangeLength (bs : List Byte) : Nat :=
  let op := bs.headD 0
  if op = Chip.mcp2515.opRead ∨ op = Chip.mcp2515.opWrite then 3
  else if op = Chip.mcp2515.opBitmod then 4
  else if op = Chip.mcp2515.opReadStatus ∨ op = Chip.mcp2515.opRxStatus then 2
  else 1

/-- The bytes of a word of the table, its operand bytes zero, and the place they arrive at: the command port when they
are a command there, else the bus. DECODE and LOAD_TXB share the words 0x40 to 0x43, which are DECODE here (log 17). -/
def tableBytes (nbits w : Nat) : Port × List Byte :=
  let bs := bigEndianBytes ((nbits + 7) / 8) w
  match decodeCommand (padTo (commandLength bs) bs) with
  | .ok _ => (.command, padTo (commandLength bs) bs)
  | .error _ => (.bus, padTo (exchangeLength bs) bs)

/-- The instruction this decoder reads from a word numbered as opcode_table.json numbers it. -/
def decodeTableWord (nbits w : Nat) : Option Instr :=
  match decode (tableBytes nbits w).1 (tableBytes nbits w).2 with
  | .ok i => some i
  | .error _ => none

end Sys2Proof
end

