-- ==== Sys2Proof/Machine/State.lean ====
section
/-!
DEFINITION. The state as plain data, and the state after reset. Every field the spec names, and four of the model's own
(params, agenda, trace, draws), each said so. Nothing here computes: the operations are in Machine/Ops.lean and beside it.
-/

namespace Sys2Proof.Machine

/-- The reasons the machine stops. The spec's own errors are statuses in RESP (R210), never one of these. -/
inductive Fault where
  /-- Raised by an exchange at an address outside the chip's range, or a burst that runs past its end: the MCP2515 has 128
  registers, 0x00 to 0x7F (R28), and what the peer does beyond is not specified (R51, U23). Safe: the model stops where
  the chip would go on. -/
  | unimplementedAddress
  /-- Raised by a step in a state that no run reaches: SEQ is busy and LATCH holds no command. Safe. -/
  | sequencerWithoutCommand
  deriving DecidableEq, Repr

/-- The reasons the model gives an instruction or an event no meaning. -/
inductive Refusal where
  /-- An instruction without a meaning, by its mnemonic; raised by exec alone. Safe. -/
  | notModelled (mnemonic : String)
  /-- Raised by a master's bytes that frame no exchange (R96, R255): the run is refused. Safe. -/
  | malformedExchange
  /-- Raised by LOAD_TXB with abc = 110 or 111, which "are not defined" (R197). Safe. -/
  | undefinedLoadTxb
  /-- Raised by another master's exchange while the block holds BUS (R255): the run is refused. Safe. -/
  | busHeldByBlock
  /-- Raised by a host that offers no byte at all: a command has 1 to 21 bytes (R80). Safe. -/
  | emptyCommand
  deriving DecidableEq, Repr

/-- Who can hold BUS (R32): the block, or another master of the driver. The other masters are one agent here (log 15). -/
inductive Agent where
  | block
  | other
  deriving DecidableEq, Repr

/-- BUS, the serial bus and its chip-select (R32). -/
inductive Bus where
  | free
  | held (who : Agent)
  deriving DecidableEq, Repr

/-- The operations SEQ names, with the variant of an ENCODE or SEND (R85). -/
inductive Op where
  | encode (kind : FrameKind) (type : FrameType)
  | trigger
  | send (kind : FrameKind) (type : FrameType)
  | decode
  | timing
  | wrctrl
  deriving DecidableEq, Repr

/-- SEQ, the sequencer (R23): `step` counts the exchanges of the command already completed. -/
inductive Seq where
  | idle
  | busy (op : Op) (step : Nat)
  deriving DecidableEq, Repr

/-- RESP, the one-entry response register (R25). Before the first response there are no bytes at all (R241). -/
structure Resp where
  valid : Bool
  bytes : Option (List Byte)
  deriving DecidableEq, Repr

/-- The peer's register file as (address, byte) pairs in one canonical form (Machine/Memory.lean). -/
abbrev Memory := List Host.Cell

/-- One exchange as it went over the bus (R50): as many MISO bytes as MOSI bytes, `none` where R200 gives no value. -/
structure BusRecord where
  who : Agent
  mosi : List Byte
  miso : List (Option Byte)
  deriving DecidableEq, Repr

/-- One turn of an agent. Between two turns no agent is inside an exchange (R57). -/
inductive Turn where
  /-- The block: it accepts a command, or takes the next action of the one in progress. -/
  | block
  /-- The chip wants these registers to hold these bytes (R30). -/
  | chip (changes : List Host.Cell)
  /-- Another master performs one exchange with these MOSI bytes (R32). -/
  | master (mosi : List Byte)
  /-- Another master acquires BUS and has not yet performed its exchange (R32). -/
  | hold
  /-- A host brings a command to the command port (R80). -/
  | offer (cmd : List Byte)
  /-- A host takes the response (R25). -/
  | take
  /-- The reset input of the block (R240). -/
  | reset
  deriving DecidableEq, Repr

/-- The state of a model instance (R20). -/
structure State where
  /-- The model's own: the parameters of the instance (R5); no step changes them (R242). -/
  params : Params
  /-- CTRL (R22). -/
  ctrl : Byte
  /-- SEQ (R23). -/
  seq : Seq
  /-- LATCH (R24). -/
  latch : Option (List Byte)
  /-- The bytes the command in progress has read (R33 (a)). -/
  got : List Byte
  /-- RESP (R25). -/
  resp : Resp
  /-- PEER (R28). -/
  peer : Memory
  /-- BUS (R32). -/
  bus : Bus
  /-- The commands that hosts hold at the command port, oldest first (R65, R86). -/
  port : List (List Byte)
  /-- The model's own: the turns to come (R58, R60). When it is empty the block acts alone. -/
  agenda : List Turn
  /-- The model's own: the exchanges performed, oldest first (R60). -/
  trace : List BusRecord
  /-- The model's own: the number of free values drawn so far. -/
  draws : Nat
  deriving DecidableEq, Repr

/-- The machine right after reset (R241). The parameters and the peer are not reset by the block: their values here are
those of the instance the model starts with (log 3, log 4: DESIGN CHOICE). -/
def State.reset : State :=
  { params := Config.defaultParams
    ctrl := 0x00
    seq := .idle
    latch := none
    got := []
    resp := { valid := false, bytes := none }
    peer := []
    bus := .free
    port := []
    agenda := []
    trace := []
    draws := 0 }

end Sys2Proof.Machine
end

