-- ==== Sys2Proof/Machine/RegisterMap.lean ====
section
/-!
DEFINITION. The peer's register file: the register map of R5, R29, R31 and R175, whose numbers are the parameter Chip, and
the one operation that reads a register, the one that a master's exchange writes it with, and the one that the chip
changes it with.
-/

namespace Sys2Proof.Machine

/-! ## Addresses and masks by number (R5) -/

/-- TXB_BASE(n), the address of TXBnCTRL (R5). -/
def txbBase (c : Chip) : Nat → Nat
  | 0 => c.txb0
  | 1 => c.txb1
  | _ => c.txb2
/-- RXB_BASE(n), the address of RXBnCTRL (R5). -/
def rxbBase (c : Chip) : Nat → Nat
  | 0 => c.rxb0
  | _ => c.rxb1
/-- RXIF_MASK(n), the receive flag of buffer n in CANINTF (R5). -/
def rxifMask (c : Chip) : Nat → Byte
  | 0 => c.rxif0
  | _ => c.rxif1
/-- The offset of D7, the last register of a buffer (R29). -/
def offD7 (c : Chip) : Nat := c.offD0 + 7
/-- FILHIT of RXBnCTRL, the filter that matched the frame in receive buffer n (R29). -/
def filhitMask (c : Chip) : Nat → Byte
  | 0 => c.filhit0
  | _ => c.filhit1
/-- TXnIF of transmit buffer n in CANINTF (R29). -/
def txifMask (c : Chip) : Nat → Byte
  | 0 => c.txif0
  | 1 => c.txif1
  | _ => c.txif2

/-! ## Which register an address is -/

/-- The one place a register is kept: CANSTAT and CANCTRL answer at 0xXE and 0xXF for every x (R31), the first of which is
theirs. -/
def home (c : Chip) (a : Nat) : Nat :=
  if a % c.mirrorStep = c.regCanstat % c.mirrorStep then c.regCanstat % c.mirrorStep
  else if a % c.mirrorStep = c.regCanctrl % c.mirrorStep then c.regCanctrl % c.mirrorStep
  else a

/-- The offset of an address in the buffer that starts at `base`, if it is in it (R29). -/
def offsetIn (c : Chip) (base a : Nat) : Option Nat :=
  if base ≤ a ∧ a ≤ base + offD7 c then some (a - base) else none

/-- The offset of an address in the transmit buffer it belongs to (R29). -/
def txbOffset (c : Chip) (a : Nat) : Option Nat :=
  (offsetIn c c.txb0 a).or ((offsetIn c c.txb1 a).or (offsetIn c c.txb2 a))

/-- The offset of an address in the receive buffer it belongs to (R29). -/
def rxbOffset (c : Chip) (a : Nat) : Option Nat := (offsetIn c c.rxb0 a).or (offsetIn c c.rxb1 a)

/-! ## Reading -/

/-- The implemented bits of TXBnCTRL (R29). -/
def txbCtrlMask (c : Chip) : Byte := c.txreqMask ||| c.txStatusMask ||| c.txpMask
/-- The implemented bits of TXBnSIDL (R29). -/
def txbSidlMask (c : Chip) : Byte := sidlSidMask ||| c.exideMask ||| sidlEidMask
/-- The implemented bits of TXBnDLC (R29). -/
def txbDlcMask (c : Chip) : Byte := c.dlcRtrMask ||| dlcLenMask

/-- RXB0CTRL with BUKT1 a copy of BUKT (R29). RXRTR is never part of the copy. -/
def copyBukt (c : Chip) (raw : Byte) : Byte :=
  let copy := c.bukt1Mask &&& ~~~c.rxrtrMask
  if raw &&& c.buktMask = 0 then raw &&& ~~~copy else raw ||| copy

/-- The byte a READ returns for an address (R190). The unimplemented bits of TXBnCTRL read 0 (R29), as do those of CNF3
(R175), and RXB0CTRL has a copied bit (R29). -/
def peerByte (c : Chip) (m : Memory) (a : Nat) : Byte :=
  let raw := m.read (home c a)
  if txbOffset c (home c a) = some c.offCtrl then raw &&& txbCtrlMask c
  else if home c a = c.rxb0 + c.offCtrl then copyBukt c raw
  else if home c a = c.regCnf3 then raw &&& c.cnf3Mask
  else raw

/-- The bytes of `n` addresses from `a` up, the byte for `a` first (R53, R190). -/
def readBurst (c : Chip) (m : Memory) (a : Nat) : Nat → List Byte
  | 0 => []
  | n + 1 => peerByte c m a :: readBurst c m (a + 1) n

/-- The chip is in Configuration mode: OPMOD of CANSTAT says so (R31). -/
def configurationMode (c : Chip) (m : Memory) : Bool :=
  decide (peerByte c m c.regCanstat &&& c.opmodMask = c.opmodConfiguration)

/-- The chip sleeps: OPMOD of CANSTAT says so (R31). -/
def sleeping (c : Chip) (m : Memory) : Bool := decide (peerByte c m c.regCanstat &&& c.opmodMask = c.opmodSleep)

/-! ## Writing by an exchange -/

/-- The bits of a transmit buffer's register that a write changes: all but those R29 calls unimplemented. -/
def txbWritable (c : Chip) (off : Nat) : Byte :=
  if off = c.offCtrl then txbCtrlMask c
  else if off = c.offSidl then txbSidlMask c
  else if off = c.offDlc then txbDlcMask c
  else 0xFF

/-- The bits of a receive buffer's register that a write changes: RXM and BUKT of RXBnCTRL; of FILHIT the spec does not
say it (R28); no bit of the frame or of RXRTR, or the three reads of R158 would not see one frame while the flag is set.
DEDUCED (log 5). -/
def rxbWritable (c : Chip) (h off : Nat) : Byte :=
  if off = c.offCtrl then
    (if h = c.rxb0 + c.offCtrl then c.rxmMask ||| c.buktMask ||| (Config.writableUnstated h &&& c.filhit0)
      else c.rxmMask ||| (Config.writableUnstated h &&& c.filhit1)) &&& ~~~c.rxrtrMask
  else 0x00

/-- The bits of a register that a master's write changes (R191): all but those that R29 and R175 call unimplemented or
read-only, no bit of a received frame (R158), none of CNF1 to CNF3 outside Configuration mode (R171), and a free choice
where the spec is silent (R28). DEDUCED (log 5, log 8): unsafe for a register whose real chip keeps a bit that no rule
names read-only. -/
def writableMask (c : Chip) (config : Bool) (h : Nat) : Byte :=
  match txbOffset c h with
  | some off => txbWritable c off
  | none =>
    match rxbOffset c h with
    | some off => rxbWritable c h off
    | none =>
      if h = c.regCanintf ∨ h = c.regCaninte then 0xFF
      else if h = c.regCnf1 ∨ h = c.regCnf2 then (if config then 0xFF else 0x00)
      else if h = c.regCnf3 then (if config then c.cnf3Mask else 0x00)
      else if c.unstatedRegs.contains h then Config.writableUnstated h
      else 0xFF

/-- The bits of `new` selected by `mask`, the others from `old` (R192). -/
def mergeBits (mask old new : Byte) : Byte := (old &&& ~~~mask) ||| (new &&& mask)

/-- One register written by an exchange: the bits in `mask` that are writable take the value of `v` (R191, R192). -/
def peerStore (c : Chip) (config : Bool) (m : Memory) (a : Nat) (mask v : Byte) : Memory :=
  m.write (home c a) (mergeBits (mask &&& writableMask c config (home c a)) (m.read (home c a)) v)

/-- The registers from `a` up written with a byte sequence (R191). -/
def writeBurst (c : Chip) (config : Bool) (m : Memory) (a : Nat) : List Byte → Memory
  | [] => m
  | d :: ds => writeBurst c config (peerStore c config m a 0xFF d) (a + 1) ds

/-- The peer after a WRITE of a byte sequence from `a` up, taken at one instant: whether CNF1 to CNF3 can be written is
decided by the mode before it (R57, R191). -/
def writeRegisters (c : Chip) (m : Memory) (a : Nat) (ds : List Byte) : Memory :=
  writeBurst c (configurationMode c m) m a ds

/-- Whether a register honours the mask of a BIT_MODIFY: TXBnCTRL and CANINTF do, the others are open (R62, R192). -/
def honoursMask (c : Chip) (h : Nat) : Bool :=
  if txbOffset c h = some c.offCtrl then true
  else if h = c.regCanintf then true
  else Config.honoursMaskUnstated h

/-- The mask a register takes in a BIT_MODIFY (R192): the one sent, or 0xFF where masks are not honoured. There m = 0 is
an open choice, since R192 also says that m = 0 changes nothing. DESIGN CHOICE (log 7): safe, both are covered. -/
def effectiveMask (c : Chip) (h : Nat) (mask : Byte) : Byte :=
  if honoursMask c h then mask
  else if mask = 0 ∧ Config.zeroMaskWrites h = false then 0
  else 0xFF

/-- The effect of a BIT_MODIFY (R192). With mask 0 on a register that does not honour masks R192 says two things, and the
model takes either (log 7). -/
def bitModifyPeer (c : Chip) (m : Memory) (a : Nat) (mask v : Byte) : Memory :=
  peerStore c (configurationMode c m) m a (effectiveMask c (home c a) mask) v

/-- The peer with TXREQ of transmit buffer n set (R127, R198). -/
def requestTransmit (c : Chip) (m : Memory) (n : Nat) : Memory :=
  peerStore c (configurationMode c m) m (txbBase c n + c.offCtrl) c.txreqMask c.txreqMask

/-- The peer with RXnIF of receive buffer n cleared (R156, R196). -/
def clearRxFlag (c : Chip) (m : Memory) (n : Nat) : Memory :=
  peerStore c (configurationMode c m) m c.regCanintf (rxifMask c n) 0x00

/-! ## The chip's own reset (R193) -/

/-- Every register, once: the implemented addresses that are their own home. -/
def registers (c : Chip) : List Nat := (List.range c.size).filter fun a => decide (home c a = a)

/-- The registers of a list, each at its reset value, on top of a memory. -/
def resetRegisters (values : List Host.Cell) (m : Memory) : List Nat → Memory
  | [] => m
  | h :: hs => resetRegisters values (m.write h (Memory.read values h)) hs

/-- The peer after the RESET exchange: every register at its reset value, a parameter of the instance (R193, R243).
CANSTAT is no exception: R193 has the chip in Configuration mode, U6 any mode; which it is, the instance's reset value of
CANSTAT says. DESIGN CHOICE (log 9): safe, every value is covered. -/
def peerReset (q : Params) : Memory := resetRegisters q.chipReset [] (registers q.chip)

/-! ## Any value, in Sleep (G26) -/

/-- The registers of a list at the values it gives, later entries last; an address that is not implemented is none. -/
def setRegisters (c : Chip) (m : Memory) : List Host.Cell → Memory
  | [] => m
  | (a, v) :: changes => setRegisters c (if a < c.size then m.write (home c a) v else m) changes

/-! ## Changes by the chip itself (R30) -/

/-- The bits of a register that the chip may change freely: of TXBnCTRL only ABTF, MLOA, TXERR and TXREQ, of the
identifier, DLC and data registers of a transmit buffer none, of every other register all (R30). -/
def chipMask (c : Chip) (h : Nat) : Byte :=
  match txbOffset c h with
  | some off => if off = c.offCtrl then c.txStatusMask ||| c.txreqMask else 0x00
  | none => 0xFF

/-- One register as the chip changes it: it "never clears RX0IF or RX1IF" (R30 (b)), and outside the implemented
addresses there is nothing to change. -/
def chipStore (c : Chip) (m : Memory) (a : Nat) (v : Byte) : Memory :=
  if c.size ≤ a then m
  else if home c a = c.regCanintf then m.write c.regCanintf (v ||| (m.read c.regCanintf &&& (c.rxif0 ||| c.rxif1)))
  else m.write (home c a) (mergeBits (chipMask c (home c a)) (m.read (home c a)) v)

/-- One step of CHIP_ENV: each wanted change as far as R30 allows it. Every step that R30 allows is some such list. -/
def chipStep (c : Chip) (m : Memory) : List Host.Cell → Memory
  | [] => m
  | (a, v) :: changes => chipStep c (chipStore c m a v) changes

end Sys2Proof.Machine
end

