-- ==== Sys2Proof/Machine/Operands.lean ====
section
/-!
DEFINITION. The operand forms: identifier packing and unpacking, the frame descriptor, the argument checks, the DLC byte.
-/

namespace Sys2Proof.Machine

/-- PackStd (R121): [SIDH, SIDL] of a standard identifier. -/
def packStd (id : BitVec 32) : List Byte :=
  [(id >>> 3).setWidth 8, (id <<< 5).setWidth 8 &&& sidlSidMask]

/-- PackExt (R122): [SIDH, SIDL, EID8, EID0] of an extended identifier. -/
def packExt (c : Chip) (id : BitVec 32) : List Byte :=
  [ (id >>> 21).setWidth 8,
    ((id >>> 13).setWidth 8 &&& sidlSidMask) ||| c.exideMask ||| ((id >>> 16).setWidth 8 &&& sidlEidMask),
    (id >>> 8).setWidth 8,
    id.setWidth 8 ]

/-- The identifier bytes a frame writes from SIDH up (R123, R124). -/
def packId (c : Chip) : FrameKind → BitVec 32 → List Byte
  | .std, id => packStd id
  | .ext, id => packExt c id

/-- UnpackId (R151): the kind and identifier that SIDH, SIDL, EID8, EID0 hold. -/
def unpackId (c : Chip) (sidh sidl eid8 eid0 : Byte) : FrameKind × BitVec 32 :=
  let sid : BitVec 32 := (sidh.setWidth 32 <<< 3) ||| (sidl.setWidth 32 >>> 5)
  if sidl &&& c.exideMask = 0 then (.std, sid)
  else
    (.ext, (((sid <<< 2) ||| (sidl &&& sidlEidMask).setWidth 32) <<< 16) ||| (eid8.setWidth 32 <<< 8)
      ||| eid0.setWidth 32)

/-- The DLC byte a frame writes: LEN, with the remote-request bit for a remote frame (R94, R123, R125). -/
def dlcByte (c : Chip) (type : FrameType) (len : Nat) : Byte :=
  match type with
  | .data => BitVec.ofNat 8 len
  | .remote => c.dlcRtrMask ||| BitVec.ofNat 8 len

/-- The payload bytes a frame writes: all of a data frame, none of a remote frame (R123, R125). -/
def payloadWritten (type : FrameType) (data : List Byte) : List Byte :=
  match type with
  | .data => data
  | .remote => []

/-- A frame descriptor (R88, R157): F0 to F4 and the payload. -/
def descriptor (kind : FrameKind) (type : FrameType) (id : BitVec 32) (data : List Byte) : List Byte :=
  f0Byte kind type data.length :: (idBytes id ++ data)

/-- The frame a descriptor denotes (R89). -/
def frameOf : List Byte → Option Frame
  | f0 :: f1 :: f2 :: f3 :: f4 :: data =>
    if data.length = lenOf f0 then
      some { kind := kindOf f0, type := typeOf f0, id := (idOf f1 f2 f3 f4).toNat, data := data }
    else none
  | _ => none

/-- The length field of a DLC byte read from a receive buffer (R94, R152). -/
def dlcLen (dlc : Byte) : Nat := (dlc &&& dlcLenMask).toNat

/-- TIMING_TABLE (R5, R6): a finite partial function with an entry at (8, 125) and none where OSC or RATE is 0. Of two
entries for one pair the first counts, so that a list is a function. -/
def timingTable (p : Params) (osc : Byte) (rate : BitVec 16) : Option TimingTriple :=
  if osc = 8 ∧ rate = 125 then some p.timing8x125
  else if osc = 0 ∨ rate = 0 then none
  else (p.otherTimings.find? fun e => decide (e.osc = osc ∧ e.rate = rate)).map TimingEntry.triple

/-! ## The fields of the timing bytes (R175), informative: no rule of the block reads them -/

/-- SJW, CNF1 bits 7:6 (R175). -/
def cnfSjw (t : TimingTriple) : Nat := (t.cnf1.extractLsb' 6 2).toNat
/-- BRP, CNF1 bits 5:0 (R175). -/
def cnfBrp (t : TimingTriple) : Nat := (t.cnf1.extractLsb' 0 6).toNat
/-- BTLMODE, CNF2 bit 7 (R175). -/
def cnfBtlmode (t : TimingTriple) : Bool := t.cnf2.getLsbD 7
/-- SAM, CNF2 bit 6 (R175). -/
def cnfSam (t : TimingTriple) : Bool := t.cnf2.getLsbD 6
/-- PHSEG1, CNF2 bits 5:3 (R175). -/
def cnfPhseg1 (t : TimingTriple) : Nat := (t.cnf2.extractLsb' 3 3).toNat
/-- PRSEG, CNF2 bits 2:0 (R175). -/
def cnfPrseg (t : TimingTriple) : Nat := (t.cnf2.extractLsb' 0 3).toNat
/-- SOF, CNF3 bit 7 (R175). -/
def cnfSof (t : TimingTriple) : Bool := t.cnf3.getLsbD 7
/-- WAKFIL, CNF3 bit 6 (R175). -/
def cnfWakfil (t : TimingTriple) : Bool := t.cnf3.getLsbD 6
/-- PHSEG2, CNF3 bits 2:0 (R175). -/
def cnfPhseg2 (t : TimingTriple) : Nat := (t.cnf3.extractLsb' 0 3).toNat

/-- The nominal bit time in periods of the oscillator (R176). -/
def nominalPeriods (t : TimingTriple) : Nat :=
  (1 + (cnfPrseg t + 1) + (cnfPhseg1 t + 1) + (cnfPhseg2 t + 1)) * (2 * (cnfBrp t + 1))

/-- The property R176 expects of a filled table's entry with BTLMODE = 1: 1 / NBT = RATE · 1000. -/
def matchesBitTime (e : TimingEntry) : Bool :=
  !(cnfBtlmode e.triple) || decide (nominalPeriods e.triple * (e.rate.toNat * 1000) = e.osc.toNat * 10 ^ 6)

end Sys2Proof.Machine
end

