-- ==== Sys2Proof/Machine/Flags.lean ====
section
/-!
DEFINITION. The flag computations: the status byte of a response, the mode bit of CTRL, the receive flags of CANINTF, and
the status bytes that READ_STATUS and RX_STATUS return.
-/

namespace Sys2Proof.Machine

/-- The errors a command can raise (R210). -/
inductive Error where
  | unsupportedBitrate
  | invalidFrame
  | unsupportedFrameKind
  | bufferNumber
  | payloadLength
  | identifierWidth
  | illegal (r : Illegal)
  deriving DecidableEq, Repr

/-- CODE of an error (R11, R210). -/
def Error.code : Error → BitVec 4
  | .unsupportedBitrate => 1
  | .invalidFrame => 2
  | .unsupportedFrameKind => 3
  | .bufferNumber => 4
  | .payloadLength => 4
  | .identifierWidth => 4
  | .illegal _ => 5

/-- SUB of an error (R87, R210, R212). -/
def Error.sub : Error → BitVec 4
  | .unsupportedBitrate => 1
  | .invalidFrame => 0
  | .unsupportedFrameKind => 0
  | .bufferNumber => 1
  | .payloadLength => 2
  | .identifierWidth => 3
  | .illegal .reservedOpcode => 1
  | .illegal .wrongLength => 2
  | .illegal .reservedBit => 3

/-- The status byte, `SUB << 4 | CODE` (R210). -/
def Error.status (e : Error) : Byte := e.sub ++ e.code

/-- The status of a successful command (R210). -/
def statusOk : Byte := 0x00

/-- Every status byte the block can produce (R210). -/
def statusBytes : List Byte := [0x00, 0x11, 0x02, 0x03, 0x14, 0x24, 0x34, 0x15, 0x25, 0x35]

/-- CTRL.INTMODE, bit 0 (R22). -/
def intmode (ctrl : Byte) : Bool := ctrl.getLsbD 0

/-- CTRL as a write leaves it: bits 7:1 are hardwired 0 (R22). -/
def ctrlWritten (v : Byte) : Byte := v &&& 0x01

/-- RXnIF of CANINTF (R29). -/
def rxFlag (c : Chip) (m : Memory) (n : Nat) : Bool := decide (peerByte c m c.regCanintf &&& rxifMask c n ≠ 0)

/-- TXREQ of TXBnCTRL (R29). -/
def txreq (c : Chip) (m : Memory) (n : Nat) : Bool :=
  decide (peerByte c m (txbBase c n + c.offCtrl) &&& c.txreqMask ≠ 0)

/-- TXnIF of CANINTF (R29). -/
def txFlag (c : Chip) (m : Memory) (n : Nat) : Bool := decide (peerByte c m c.regCanintf &&& txifMask c n ≠ 0)

/-- A bit as a byte. -/
def bitAt (b : Bool) (k : Nat) : Byte := if b then BitVec.ofNat 8 (2 ^ k) else 0

/-- The byte READ_STATUS returns (R194). -/
def readStatusByte (c : Chip) (m : Memory) : Byte :=
  bitAt (rxFlag c m 0) 0 ||| bitAt (rxFlag c m 1) 1 ||| bitAt (txreq c m 0) 2 ||| bitAt (txFlag c m 0) 3
    ||| bitAt (txreq c m 1) 4 ||| bitAt (txFlag c m 1) 5 ||| bitAt (txreq c m 2) 6 ||| bitAt (txFlag c m 2) 7

/-- IDE of the frame in receive buffer n (R29). -/
def rxExtended (c : Chip) (m : Memory) (n : Nat) : Bool :=
  decide (peerByte c m (rxbBase c n + c.offSidl) &&& c.exideMask ≠ 0)

/-- RXRTR of receive buffer n (R29). -/
def rxRemote (c : Chip) (m : Memory) (n : Nat) : Bool :=
  decide (peerByte c m (rxbBase c n + c.offCtrl) &&& c.rxrtrMask ≠ 0)

/-- The filter that matched the frame in receive buffer n: FILHIT0 of RXB0CTRL, FILHIT2:0 of RXB1CTRL (R29). -/
def filterHit (c : Chip) (m : Memory) (n : Nat) : Byte :=
  peerByte c m (rxbBase c n + c.offCtrl) &&& filhitMask c n

/-- Bits 7:6, 4:3 and 2:0 of RX_STATUS when buffer n alone holds a message (R195). DEDUCED (log 11): the type and filter
are those that the buffer's own IDE, RXRTR and FILHIT bits give. -/
def rxStatusOf (c : Chip) (m : Memory) (n : Nat) : Byte :=
  bitAt (decide (n = 0)) 6 ||| bitAt (decide (n = 1)) 7 ||| bitAt (rxExtended c m n) 4 ||| bitAt (rxRemote c m n) 3
    ||| filterHit c m n

/-- The byte RX_STATUS returns (R195). Bit 5 is not described; with no buffer full, or both, the rule does not say whose
type and filter bits 4:0 give: these bits come from the free value `open_`. -/
def rxStatusByte (c : Chip) (m : Memory) (open_ : Byte) : Byte :=
  match rxFlag c m 0, rxFlag c m 1 with
  | false, false => open_ &&& 0x3F
  | true, false => rxStatusOf c m 0 ||| (open_ &&& 0x20)
  | false, true => rxStatusOf c m 1 ||| (open_ &&& 0x20)
  | true, true => 0xC0 ||| (open_ &&& 0x3F)

/-- Whether the chip asserts its interrupt line: an enabled flag is set (R218). No step of the block reads it. -/
def interruptAsserted (c : Chip) (m : Memory) : Bool :=
  decide (peerByte c m c.regCanintf &&& peerByte c m c.regCaninte ≠ 0)

end Sys2Proof.Machine
end

