-- ==== Sys2Proof/Machine/Ops.lean ====
section
/-!
DEFINITION. The shared operations: an exchange and its effect, the bus, the sequencer (accepting a command, raising an
error, responding, taking the response, block reset), the turns of the other agents, and the run of one command.
-/

namespace Sys2Proof.Machine

/-! ## The effect of an exchange -/

/-- What an exchange leaves: the peer, the MISO bytes, and the free values drawn. -/
structure BusResult where
  peer : Memory
  miso : List (Option Byte)
  draws : Nat
  deriving DecidableEq, Repr

/-- MISO positions that carry no defined value (R200). -/
def noValue (n : Nat) : List (Option Byte) := List.replicate n none

/-- The first address of a READ_RXB (R196): SIDH or D0 of receive buffer n. -/
def readRxbStart (c : Chip) (n m : BitVec 1) : Nat :=
  rxbBase c n.toNat + (if m = 0 then c.offSidh else c.offD0)

/-- The first address of a LOAD_TXB (R197): SIDH or D0 of the transmit buffer in abc bits 2:1, chosen by bit 0. -/
def loadTxbStart (c : Chip) (abc : BitVec 3) : Nat :=
  txbBase c (abc.toNat / 2) + (if abc.getLsbD 0 then c.offD0 else c.offSidh)

/-- The peer after RTS: TXREQ set in every transmit buffer whose bit is 1 (R198). -/
def requestSelected (c : Chip) (m : Memory) (t : BitVec 3) : Memory :=
  let m0 := if t.getLsbD 0 then requestTransmit c m 0 else m
  let m1 := if t.getLsbD 1 then requestTransmit c m0 1 else m0
  if t.getLsbD 2 then requestTransmit c m1 2 else m1

/-- The effect of one exchange on a peer whose serial interface is active (R190 to R198). Addresses outside the
implemented ones do not exist (R28, U23). -/
def activeEffect (q : Params) (x : Exchange) (m : Memory) (draws : Nat) : Host.Outcome BusResult Fault Refusal :=
  match x with
  | .read a n =>
    if n = 0 then .refused .malformedExchange
    else if q.chip.size < a.toNat + n then .fault .unimplementedAddress
    else .next { peer := m, miso := noValue 2 ++ (readBurst q.chip m a.toNat n).map some, draws := draws }
  | .write a data =>
    if data.length = 0 then .refused .malformedExchange
    else if q.chip.size < a.toNat + data.length then .fault .unimplementedAddress
    else
      .next { peer := writeRegisters q.chip m a.toNat data, miso := noValue (2 + data.length), draws := draws }
  | .bitModify a mask v =>
    if q.chip.size ≤ a.toNat then .fault .unimplementedAddress
    else .next { peer := bitModifyPeer q.chip m a.toNat mask v, miso := noValue 4, draws := draws }
  | .reset => .next { peer := peerReset q, miso := noValue 1, draws := draws }
  | .readStatus k =>
    if k = 0 then .refused .malformedExchange
    else .next { peer := m, miso := noValue 1 ++ List.replicate k (some (readStatusByte q.chip m)), draws := draws }
  | .rxStatus k =>
    if k = 0 then .refused .malformedExchange
    else
      .next
        { peer := m
          miso := none :: some (rxStatusByte q.chip m (Config.freeByte draws)) :: noValue (k - 1)
          draws := draws + 1 }
  | .readRxb n sel k =>
    if q.chip.size < readRxbStart q.chip n sel + k then .fault .unimplementedAddress
    else
      .next
        { peer := clearRxFlag q.chip m n.toNat
          miso := noValue 1 ++ (readBurst q.chip m (readRxbStart q.chip n sel) k).map some
          draws := draws }
  | .loadTxb abc data =>
    if 6 ≤ abc.toNat then .refused .undefinedLoadTxb
    else if q.chip.size < loadTxbStart q.chip abc + data.length then .fault .unimplementedAddress
    else
      .next
        { peer := writeRegisters q.chip m (loadTxbStart q.chip abc) data
          miso := noValue (1 + data.length)
          draws := draws }
  | .rts t => .next { peer := requestSelected q.chip m t, miso := noValue 1, draws := draws }

/-- The chip sleeps, and its serial interface with it (R230). -/
def asleep (q : Params) (m : Memory) : Bool := sleeping q.chip m && !q.spiActiveInSleep

/-- MISO bytes whose values are free, from the draw number `d` on; a position without a value keeps none. -/
def redraw (d : Nat) : List (Option Byte) → List (Option Byte)
  | [] => []
  | none :: rest => none :: redraw d rest
  | some _ :: rest => some (Config.freeByte d) :: redraw (d + 1) rest

/-- What an exchange leaves while the interface sleeps: "results that depend on the chip" (R230), any value for its effect
on the peer (G26). The registers it changes and the bytes it returns are free values; that nothing changes, and that the
effect is the ordinary one, are among them (log 33). -/
def asleepResult (c : Chip) (m : Memory) (r : BusResult) : BusResult :=
  { peer := setRegisters c m (Config.sleepChanges r.draws)
    miso := redraw (r.draws + 1) r.miso
    draws := r.draws + 1 + (r.miso.filterMap id).length }

/-- The effect of one exchange on the peer, taken at one instant (R57). The bytes it takes, the positions at which it
returns a byte and its stops are the same awake and asleep: DESIGN CHOICE (log 33), unsafe for a claim that rests on how
many bytes a chip in Sleep returns. -/
def exchangeEffect (q : Params) (x : Exchange) (m : Memory) (draws : Nat) : Host.Outcome BusResult Fault Refusal :=
  match activeEffect q x m draws with
  | .next r => .next (if asleep q m then asleepResult q.chip m r else r)
  | .fault f => .fault f
  | .refused r => .refused r

/-- The state after an exchange: its effect on the peer, its record, BUS released (R32, R57). -/
def State.afterExchange (who : Agent) (x : Exchange) (r : BusResult) (s : State) : State :=
  { s with
    peer := r.peer
    draws := r.draws
    bus := .free
    trace := s.trace ++ [{ who := who, mosi := encodeExchange s.params.chip x, miso := r.miso }] }

/-- One exchange of another master: it acquires BUS or holds it already, and releases it after (R32). While the block
holds BUS it has no step (R255). -/
def masterExchange (x : Exchange) (s : State) : Host.Outcome State Fault Refusal :=
  match s.bus with
  | .held .block => .refused .busHeldByBlock
  | _ =>
    match exchangeEffect s.params x s.peer s.draws with
    | .next r => .next (s.afterExchange .other x r)
    | .fault f => .fault f
    | .refused r => .refused r

/-! ## The sequencer -/

/-- Accepting a command: LATCH <- bytes, SEQ <- Busy(op, 0) (R86). -/
def State.accept (op : Op) (bytes : List Byte) (s : State) : State :=
  { s with latch := some bytes, seq := .busy op 0, got := [] }

/-- The end of a command: RESP holds the bytes and is valid, SEQ is Idle (R23, R25). No command is then held: LATCH is
meaningful only while SEQ is busy (R24). -/
def State.complete (bytes : List Byte) (s : State) : State :=
  { s with seq := .idle, latch := none, got := [], resp := { valid := true, bytes := some bytes } }

/-- Taking an error (R215): no further exchange, RESP is the status byte, RESP.VALID is 1, SEQ is Idle. Nothing is saved,
no mode changes, and there is no vector. Every error of every command is taken here. -/
def State.raise (e : Error) (s : State) : State := s.complete [e.status]

/-- Responding: status OK, then the result bytes (R9, R95). -/
def State.respond (bytes : List Byte) (s : State) : State := s.complete (statusOk :: bytes)

/-- The return from an error as from success: the host takes the response, RESP.VALID <- 0 (R25, R217). -/
def State.takeResponse (s : State) : State := { s with resp := { valid := false, bytes := s.resp.bytes } }

/-- Block reset (R240, R241): SEQ, CTRL, LATCH and RESP; of BUS only the block's own holding; no exchange; the peer and
the parameters keep their values (R242, R243). -/
def State.blockReset (s : State) : State :=
  { s with
    seq := .idle
    ctrl := 0x00
    latch := none
    got := []
    resp := { valid := false, bytes := none }
    bus := if s.bus = .held .block then .free else s.bus }

/-- A command that is not taken stays with its host, at the head of the port (R86). -/
def State.holdCommand (bytes : List Byte) (s : State) : State := { s with port := bytes :: s.port }

/-- What a command's rule can see when the block takes an action (R28): the parameters, CTRL, the exchanges completed, the
bytes they returned, and how many free values are drawn. The peer is not among them. -/
structure View where
  params : Params
  ctrl : Byte
  step : Nat
  got : List Byte
  draws : Nat
  deriving DecidableEq, Repr

/-- The actions of a command's rule (R9, R23). -/
inductive Action where
  /-- Issue the next exchange. -/
  | issue (x : Exchange)
  /-- `raise` (R9). -/
  | raise (e : Error)
  /-- `respond` (R9), with the number of free values that are in the bytes. -/
  | respond (bytes : List Byte) (drawn : Nat)
  /-- CTRL <- v, then `respond([])` (R180). -/
  | writeCtrl (v : Byte)
  deriving DecidableEq, Repr

/-- The pseudocode of a command as the action it takes at each point: run top to bottom, it is known by the exchanges
completed and the bytes read (R23). -/
abbrev Plan := View → Action

/-- The step SEQ counts. -/
def Seq.step : Seq → Nat
  | .idle => 0
  | .busy _ k => k

/-- The view of the present state. -/
def State.view (s : State) : View :=
  { params := s.params, ctrl := s.ctrl, step := s.seq.step, got := s.got, draws := s.draws }

/-- The sequencer after one exchange of its command: the step counted, the bytes read kept (R23). -/
def State.advance (bytes : List Byte) (s : State) : State :=
  { s with
    seq := (match s.seq with
      | .idle => .idle
      | .busy op k => .busy op (k + 1))
    got := s.got ++ bytes }

/-- The data bytes of the MISO lane. -/
def dataBytes (miso : List (Option Byte)) : List Byte := miso.filterMap id

/-- One exchange of the block (R23, R32). While another master holds BUS the block waits. -/
def blockExchange (x : Exchange) (s : State) : Host.Outcome State Fault Refusal :=
  match s.bus with
  | .held .other => .next s
  | _ =>
    match exchangeEffect s.params x s.peer s.draws with
    | .next r => .next ((s.afterExchange .block x r).advance (dataBytes r.miso))
    | .fault f => .fault f
    | .refused r => .refused r

/-- One action of the command in progress. -/
def act (p : Plan) (s : State) : Host.Outcome State Fault Refusal :=
  match p s.view with
  | .issue x => blockExchange x s
  | .raise e => .next (s.raise e)
  | .respond bytes drawn => .next (State.respond bytes { s with draws := s.draws + drawn })
  | .writeCtrl v => .next (State.respond [] { s with ctrl := ctrlWritten v })

/-! ## The other agents -/

/-- Why a master's bytes are refused. -/
def busRefusal : DecodeError → Refusal
  | .undefinedLoadTxb => .undefinedLoadTxb
  | .illegal _ => .malformedExchange
  | .noBytes => .malformedExchange
  | .unknownOpcode => .malformedExchange
  | .badFraming => .malformedExchange

/-- The turn of an agent other than the block. -/
def envTurn (t : Turn) (s : State) : Host.Outcome State Fault Refusal :=
  match t with
  | .block => .next s
  | .chip changes => .next { s with peer := chipStep s.params.chip s.peer changes }
  | .master mosi =>
    match decodeExchange s.params.chip mosi with
    | .ok x => masterExchange x s
    | .error e => .refused (busRefusal e)
  | .hold => .next { s with bus := if s.bus = .free then .held .other else s.bus }
  | .offer cmd => .next { s with port := s.port ++ [cmd] }
  | .take => .next s.takeResponse
  | .reset => .next s.blockReset

/-- One turn while a command is in progress. -/
def turn (p : Plan) (t : Turn) (s : State) : Host.Outcome State Fault Refusal :=
  match t with
  | .block => act p s
  | .chip changes => envTurn (.chip changes) s
  | .master mosi => envTurn (.master mosi) s
  | .hold => envTurn .hold s
  | .offer cmd => envTurn (.offer cmd) s
  | .take => envTurn .take s
  | .reset => envTurn .reset s

/-! ## The run of a command -/

/-- The actions of a command with nobody between them. A command takes at most five: four exchanges and its end
(R262). -/
def runAlone (p : Plan) : Nat → State → Host.Outcome State Fault Refusal
  | 0, s => .next s
  | n + 1, s =>
    if s.seq = .idle then .next s
    else
      match act p s with
      | .next t => runAlone p n t
      | .fault f => .fault f
      | .refused r => .refused r

/-- The most actions a command takes (R262). -/
def maxActions : Nat := 5

/-- The run of the command in progress through the turns to come (R58): each agent moves in its turn, and once the turns
are used up the block goes on alone. It ends when the command has ended, by completion or by a reset; what is left of the
turns stays for later. While another master holds BUS to the end, the command stays in progress. -/
def drive (p : Plan) : List Turn → State → Host.Outcome State Fault Refusal
  | [], s => runAlone p maxActions { s with agenda := [] }
  | t :: ts, s =>
    if s.seq = .idle then .next { s with agenda := t :: ts }
    else
      match turn p t s with
      | .next s' => drive p ts s'
      | .fault f => .fault f
      | .refused r => .refused r

/-- A command at the block. Idle and with no response waiting, the block accepts it, checks it (R87) and runs it; busy
with this very command, it goes on; otherwise the host holds it (R86). -/
def runCommand (op : Op) (bytes : List Byte) (p : Plan) (s : State) : Host.Outcome State Fault Refusal :=
  match s.seq with
  | .idle =>
    if s.resp.valid then .next (s.holdCommand bytes)
    else
      match structuralCheck bytes with
      | some r => .next ((s.accept op bytes).raise (.illegal r))
      | none => drive p s.agenda (s.accept op bytes)
  | .busy _ _ => if s.latch = some bytes then drive p s.agenda s else .next (s.holdCommand bytes)

/-- The operation SEQ names for a command (R85). An exchange is none: SEQ is the block's. -/
def opOf : Instr → Option Op
  | .encodeStdData _ _ _ => some (.encode .std .data)
  | .encodeExtData _ _ _ => some (.encode .ext .data)
  | .encodeStdRtr _ _ _ => some (.encode .std .remote)
  | .encodeExtRtr _ _ _ => some (.encode .ext .remote)
  | .sendStdData _ _ _ => some (.send .std .data)
  | .sendExtData _ _ _ => some (.send .ext .data)
  | .sendStdRtr _ _ _ => some (.send .std .remote)
  | .sendExtRtr _ _ _ => some (.send .ext .remote)
  | .trigger _ => some .trigger
  | .decode _ => some .decode
  | .timing _ _ => some .timing
  | .wrctrl _ => some .wrctrl
  | .spiRead _ _ => none
  | .spiWrite _ _ => none
  | .spiBitModify _ _ _ => none
  | .spiReset => none
  | .spiReadStatus _ => none
  | .spiRxStatus _ => none
  | .spiReadRxb _ _ _ => none
  | .spiLoadTxb _ _ => none
  | .spiRts _ => none

end Sys2Proof.Machine
end

