-- ==== Sys2Proof/Machine/Control.lean ====
section
/-!
DEFINITION. The commands that issue no exchange: TIMING (42_bit_timing.md) and WRCTRL (43_control.md).
-/

namespace Sys2Proof.Machine

/-- TIMING (R170): the table's triple, or CONFIGURATION(1). -/
def timingPlan (osc : Byte) (rate : BitVec 16) : Plan :=
  fun v =>
    match timingTable v.params osc rate with
    | none => .raise .unsupportedBitrate
    | some e => .respond [e.cnf1, e.cnf2, e.cnf3] 0

/-- WRCTRL (R180). -/
def wrctrlPlan (value : Byte) : Plan := fun _ => .writeCtrl value

/-- TIMING (R170). -/
def execTiming (osc : Byte) (rate : BitVec 16) (s : State) : Host.Outcome State Fault Refusal :=
  runCommand .timing (encode (.timing osc rate)) (timingPlan osc rate) s

/-- WRCTRL (R180). -/
def execWrctrl (v : Byte) (s : State) : Host.Outcome State Fault Refusal :=
  runCommand .wrctrl (encode (.wrctrl v)) (wrctrlPlan v) s

end Sys2Proof.Machine
end

