-- ==== Sys2Proof/Machine/Receive.lean ====
section
/-!
DEFINITION. The receive-side codec: DECODE (41_codec_receive.md).
-/

namespace Sys2Proof.Machine

/-- The address of register `off` of receive buffer `buf`, as an exchange carries it. -/
def rxbAddress (c : Chip) (buf : BitVec 2) (off : Nat) : Byte := BitVec.ofNat 8 (rxbBase c buf.toNat + off)

/-- `n` free values, from the draw number `from_` on. -/
def drawBytes (from_ : Nat) : Nat → List Byte
  | 0 => []
  | n + 1 => Config.freeByte from_ :: drawBytes (from_ + 1) n

/-- RXRTR as DECODE finds it: the control register is the sixth byte it reads (R150, R153). -/
def decodedType (c : Chip) (got : List Byte) : FrameType :=
  if got.getD 5 0 &&& c.rxrtrMask = 0 then .data else .remote

/-- The length field of the DLC that DECODE has read, the fifth byte (R150, R152). -/
def decodedLen (got : List Byte) : Nat := dlcLen (got.getD 4 0)

/-- The kind and identifier that DECODE has read (R151). -/
def decodedId (c : Chip) (got : List Byte) : FrameKind × BitVec 32 :=
  unpackId c (got.getD 0 0) (got.getD 1 0) (got.getD 2 0) (got.getD 3 0)

/-- The payload DECODE returns: the bytes read for a data frame (R154), free values for a remote one (R155). -/
def decodedPayload (c : Chip) (got : List Byte) (draws : Nat) : List Byte :=
  match decodedType c got with
  | .data => got.drop 6
  | .remote => drawBytes draws (decodedLen got)

/-- The response of a successful DECODE (R157). -/
def decodeResponse (v : View) : Action :=
  let c := v.params.chip
  .respond
    (descriptor (decodedId c v.got).1 (decodedType c v.got) (decodedId c v.got).2 (decodedPayload c v.got v.draws))
    (match decodedType c v.got with
      | .data => 0
      | .remote => decodedLen v.got)

/-- What follows the payload read: in interrupt mode the receive flag is cleared first (R156). -/
def afterPayload (buf : BitVec 2) (v : View) : Action :=
  let c := v.params.chip
  if intmode v.ctrl then .issue (.bitModify (BitVec.ofNat 8 c.regCanintf) (rxifMask c buf.toNat) 0x00)
  else decodeResponse v

/-- DECODE (R150): identifier and DLC, length check, control register, payload if there is any, flag. -/
def decodePlan (buf : BitVec 2) : Plan :=
  fun v =>
    let c := v.params.chip
    if nRxb ≤ buf.toNat then .raise .bufferNumber
    else
      match v.step with
      | 0 => .issue (.read (rxbAddress c buf c.offSidh) 5)
      | k + 1 =>
        if maxPayload < decodedLen v.got then .raise .invalidFrame
        else
          match k with
          | 0 => .issue (.read (rxbAddress c buf c.offCtrl) 1)
          | 1 =>
            if decodedLen v.got = 0 then afterPayload buf v
            else .issue (.read (rxbAddress c buf c.offD0) (decodedLen v.got))
          | 2 => if decodedLen v.got = 0 then decodeResponse v else afterPayload buf v
          | _ => decodeResponse v

/-- DECODE (R150). -/
def execDecode (buf : BitVec 2) (s : State) : Host.Outcome State Fault Refusal :=
  runCommand .decode (encode (.decode buf)) (decodePlan buf) s

end Sys2Proof.Machine
end

