-- ==== Sys2Proof/Machine/RegisterPort.lean ====
section
/-!
DEFINITION. The register port: the exchanges as instructions of the bus, issued by a master other than the block
(44_register_port.md). The block's own exchanges have the same effect, inside its commands (Machine/Ops.lean).
-/

namespace Sys2Proof.Machine

/-- READ (R190). -/
def execSpiRead (a : Byte) (n : Nat) (s : State) : Host.Outcome State Fault Refusal := masterExchange (.read a n) s

/-- WRITE (R191). -/
def execSpiWrite (a : Byte) (data : List Byte) (s : State) : Host.Outcome State Fault Refusal :=
  masterExchange (.write a data) s

/-- BIT_MODIFY (R192). -/
def execSpiBitModify (a m v : Byte) (s : State) : Host.Outcome State Fault Refusal :=
  masterExchange (.bitModify a m v) s

/-- RESET (R193). -/
def execSpiReset (s : State) : Host.Outcome State Fault Refusal := masterExchange .reset s

/-- READ_STATUS (R194). -/
def execSpiReadStatus (k : Nat) (s : State) : Host.Outcome State Fault Refusal := masterExchange (.readStatus k) s

/-- RX_STATUS (R195). -/
def execSpiRxStatus (k : Nat) (s : State) : Host.Outcome State Fault Refusal := masterExchange (.rxStatus k) s

/-- READ_RXB (R196). -/
def execSpiReadRxb (n m : BitVec 1) (k : Nat) (s : State) : Host.Outcome State Fault Refusal :=
  masterExchange (.readRxb n m k) s

/-- LOAD_TXB (R197). -/
def execSpiLoadTxb (abc : BitVec 3) (data : List Byte) (s : State) : Host.Outcome State Fault Refusal :=
  masterExchange (.loadTxb abc data) s

/-- RTS (R198). -/
def execSpiRts (t : BitVec 3) (s : State) : Host.Outcome State Fault Refusal := masterExchange (.rts t) s

end Sys2Proof.Machine
end

