-- ==== Sys2Proof/Machine/Transmit.lean ====
section
/-!
DEFINITION. The transmit-side codec: ENCODE, TRIGGER and SEND (40_codec_transmit.md).
-/

namespace Sys2Proof.Machine

/-- The prologue of ENCODE and SEND (R120): the error the operands raise, if any, in the order of R91 and R213. -/
def prologue (p : Params) (kind : FrameKind) (type : FrameType) (buf : BitVec 2) (id : BitVec 32) (len : Nat) :
    Option Error :=
  if nTxb ≤ buf.toNat then some .bufferNumber
  else if maxPayload < len then some .payloadLength
  else if kind.idLimit ≤ id.toNat then some .identifierWidth
  else if type = .remote ∧ p.remoteTx = .refuse then some .unsupportedFrameKind
  else none

/-- The address of register `off` of transmit buffer `buf`, as an exchange carries it. -/
def txbAddress (c : Chip) (buf : BitVec 2) (off : Nat) : Byte := BitVec.ofNat 8 (txbBase c buf.toNat + off)

/-- The WRITE of the identifier registers (R123, R124). -/
def writeIdent (c : Chip) (kind : FrameKind) (buf : BitVec 2) (id : BitVec 32) : Exchange :=
  .write (txbAddress c buf c.offSidh) (packId c kind id)

/-- The WRITE of the DLC and the payload (R123, R125). -/
def writePayload (c : Chip) (type : FrameType) (buf : BitVec 2) (data : List Byte) : Exchange :=
  .write (txbAddress c buf c.offDlc) (dlcByte c type data.length :: payloadWritten type data)

/-- The trigger exchange (R127), in the form of TX_TRIGGER_FORM. -/
def triggerExchange (p : Params) (buf : BitVec 2) : Exchange :=
  match p.triggerForm with
  | .bitModify => .bitModify (txbAddress p.chip buf p.chip.offCtrl) p.chip.txreqMask p.chip.txreqMask
  | .rts => .rts (BitVec.ofNat 3 (2 ^ buf.toNat))

/-- ENCODE of a frame (R123 to R126): identifier, then DLC and payload. -/
def encodePlan (kind : FrameKind) (type : FrameType) (buf : BitVec 2) (id : BitVec 32) (data : List Byte) : Plan :=
  fun v =>
    match prologue v.params kind type buf id data.length with
    | some e => .raise e
    | none =>
      match v.step with
      | 0 => .issue (writeIdent v.params.chip kind buf id)
      | 1 => .issue (writePayload v.params.chip type buf data)
      | _ => .respond [] 0

/-- SEND of a frame (R128 to R131): as ENCODE, then the trigger exchange after both writes. -/
def sendPlan (kind : FrameKind) (type : FrameType) (buf : BitVec 2) (id : BitVec 32) (data : List Byte) : Plan :=
  fun v =>
    match prologue v.params kind type buf id data.length with
    | some e => .raise e
    | none =>
      match v.step with
      | 0 => .issue (writeIdent v.params.chip kind buf id)
      | 1 => .issue (writePayload v.params.chip type buf data)
      | 2 => .issue (triggerExchange v.params buf)
      | _ => .respond [] 0

/-- TRIGGER (R127). -/
def triggerPlan (buf : BitVec 2) : Plan :=
  fun v =>
    if nTxb ≤ buf.toNat then .raise .bufferNumber
    else
      match v.step with
      | 0 => .issue (triggerExchange v.params buf)
      | _ => .respond [] 0

/-- ENCODE.STD.DATA (R123). -/
def execEncodeStdData (buf : BitVec 2) (id : BitVec 32) (data : List Byte) (s : State) :
    Host.Outcome State Fault Refusal :=
  runCommand (.encode .std .data) (encode (.encodeStdData buf id data)) (encodePlan .std .data buf id data) s

/-- ENCODE.EXT.DATA (R124). -/
def execEncodeExtData (buf : BitVec 2) (id : BitVec 32) (data : List Byte) (s : State) :
    Host.Outcome State Fault Refusal :=
  runCommand (.encode .ext .data) (encode (.encodeExtData buf id data)) (encodePlan .ext .data buf id data) s

/-- ENCODE.STD.RTR (R125). -/
def execEncodeStdRtr (buf : BitVec 2) (id : BitVec 32) (data : List Byte) (s : State) :
    Host.Outcome State Fault Refusal :=
  runCommand (.encode .std .remote) (encode (.encodeStdRtr buf id data)) (encodePlan .std .remote buf id data) s

/-- ENCODE.EXT.RTR (R126). -/
def execEncodeExtRtr (buf : BitVec 2) (id : BitVec 32) (data : List Byte) (s : State) :
    Host.Outcome State Fault Refusal :=
  runCommand (.encode .ext .remote) (encode (.encodeExtRtr buf id data)) (encodePlan .ext .remote buf id data) s

/-- SEND.STD.DATA (R128). -/
def execSendStdData (buf : BitVec 2) (id : BitVec 32) (data : List Byte) (s : State) :
    Host.Outcome State Fault Refusal :=
  runCommand (.send .std .data) (encode (.sendStdData buf id data)) (sendPlan .std .data buf id data) s

/-- SEND.EXT.DATA (R129). -/
def execSendExtData (buf : BitVec 2) (id : BitVec 32) (data : List Byte) (s : State) :
    Host.Outcome State Fault Refusal :=
  runCommand (.send .ext .data) (encode (.sendExtData buf id data)) (sendPlan .ext .data buf id data) s

/-- SEND.STD.RTR (R130). -/
def execSendStdRtr (buf : BitVec 2) (id : BitVec 32) (data : List Byte) (s : State) :
    Host.Outcome State Fault Refusal :=
  runCommand (.send .std .remote) (encode (.sendStdRtr buf id data)) (sendPlan .std .remote buf id data) s

/-- SEND.EXT.RTR (R131). -/
def execSendExtRtr (buf : BitVec 2) (id : BitVec 32) (data : List Byte) (s : State) :
    Host.Outcome State Fault Refusal :=
  runCommand (.send .ext .remote) (encode (.sendExtRtr buf id data)) (sendPlan .ext .remote buf id data) s

/-- TRIGGER (R127). -/
def execTrigger (buf : BitVec 2) (s : State) : Host.Outcome State Fault Refusal :=
  runCommand .trigger (encode (.trigger buf)) (triggerPlan buf) s

end Sys2Proof.Machine
end

