-- ==== Sys2Proof/Machine/Dispatch.lean ====
section
/-!
DEFINITION. exec: one arm per instruction.
-/

namespace Sys2Proof.Machine

/-- The meaning of an instruction. -/
def exec (i : Instr) (s : State) : Host.Outcome State Fault Refusal :=
  match i with
  | .encodeStdData buf id data => Sys2Proof.Machine.execEncodeStdData buf id data s
  | .encodeExtData buf id data => Sys2Proof.Machine.execEncodeExtData buf id data s
  | .encodeStdRtr buf id data => Sys2Proof.Machine.execEncodeStdRtr buf id data s
  | .encodeExtRtr buf id data => Sys2Proof.Machine.execEncodeExtRtr buf id data s
  | .sendStdData buf id data => Sys2Proof.Machine.execSendStdData buf id data s
  | .sendExtData buf id data => Sys2Proof.Machine.execSendExtData buf id data s
  | .sendStdRtr buf id data => Sys2Proof.Machine.execSendStdRtr buf id data s
  | .sendExtRtr buf id data => Sys2Proof.Machine.execSendExtRtr buf id data s
  | .trigger buf => Sys2Proof.Machine.execTrigger buf s
  | .decode buf => Sys2Proof.Machine.execDecode buf s
  | .timing osc rate => Sys2Proof.Machine.execTiming osc rate s
  | .wrctrl v => Sys2Proof.Machine.execWrctrl v s
  | .spiRead a n => Sys2Proof.Machine.execSpiRead a n s
  | .spiWrite a data => Sys2Proof.Machine.execSpiWrite a data s
  | .spiBitModify a m v => Sys2Proof.Machine.execSpiBitModify a m v s
  | .spiReset => Sys2Proof.Machine.execSpiReset s
  | .spiReadStatus k => Sys2Proof.Machine.execSpiReadStatus k s
  | .spiRxStatus k => Sys2Proof.Machine.execSpiRxStatus k s
  | .spiReadRxb n m k => Sys2Proof.Machine.execSpiReadRxb n m k s
  | .spiLoadTxb abc data => Sys2Proof.Machine.execSpiLoadTxb abc data s
  | .spiRts t => Sys2Proof.Machine.execSpiRts t s

end Sys2Proof.Machine
end

