-- ==== Sys2Proof/Machine/Fetch.lean ====
section
/-!
DEFINITION. What the next step runs: there is no program counter (R21), so the next instruction is the one the agenda or
the command port brings.
-/

namespace Sys2Proof.Machine

/-- What a step finds to do: an instruction in a state, or an outcome that needs none. -/
inductive Fetched where
  | run (i : Instr) (s : State)
  | done (o : Host.Outcome State Fault Refusal)

/-- The block's turn. Busy, it goes on with the command in LATCH (R23). Idle, it takes the oldest command at the port
unless a response waits (R86); one that the structural check refuses ends at once (R87); with none it waits (R240). -/
def fetchBlock (s : State) : Fetched :=
  match s.seq with
  | .busy _ _ =>
    match s.latch with
    | none => .done (.fault .sequencerWithoutCommand)
    | some bytes =>
      match decodeCommand bytes with
      | .ok i => .run i s
      | .error _ => .done (.fault .sequencerWithoutCommand)
  | .idle =>
    match s.port with
    | [] => .done (.next s)
    | bytes :: rest =>
      if s.resp.valid then .done (.next s)
      else
        match decodeCommand bytes with
        | .ok i => .run i { s with port := rest }
        | .error (.illegal r) => .done (.next (State.raise (.illegal r) { s with port := rest }))
        | .error .noBytes => .done (.refused .emptyCommand)
        | .error .unknownOpcode => .done (.refused .emptyCommand)
        | .error .badFraming => .done (.refused .emptyCommand)
        | .error .undefinedLoadTxb => .done (.refused .emptyCommand)

/-- The next turn: the block's when the agenda is empty or says so, else that of the agent it names (R58, R60). -/
def fetch (s : State) : Fetched :=
  match s.agenda with
  | [] => fetchBlock s
  | .block :: ts => fetchBlock { s with agenda := ts }
  | .master mosi :: ts =>
    match decodeExchange s.params.chip mosi with
    | .ok x => .run (Instr.ofExchange x) { s with agenda := ts }
    | .error e => .done (.refused (busRefusal e))
  | .chip changes :: ts => .done (envTurn (.chip changes) { s with agenda := ts })
  | .hold :: ts => .done (envTurn .hold { s with agenda := ts })
  | .offer cmd :: ts => .done (envTurn (.offer cmd) { s with agenda := ts })
  | .take :: ts => .done (envTurn .take { s with agenda := ts })
  | .reset :: ts => .done (envTurn .reset { s with agenda := ts })

/-- The state in which these bytes are the next instruction at their place: a command is the oldest at the port, with the
block idle, its response taken and BUS not held by another master; an exchange is the next turn, with BUS not held by the
block (log 18). -/
def placeBytes (p : Port) (bytes : List Byte) (s : State) : State :=
  match p with
  | .command =>
    { s with
      port := bytes :: s.port
      agenda := .block :: s.agenda
      seq := .idle
      latch := none
      got := []
      resp := { valid := false, bytes := s.resp.bytes }
      bus := .free }
  | .bus => { s with agenda := .master bytes :: s.agenda, bus := .free }

end Sys2Proof.Machine
end

