-- ==== Sys2Proof/Machine/Step.lean ====
section
/-!
DEFINITION. One step of the machine, and the placing of an instruction where the next step finds it.
-/

namespace Sys2Proof.Machine

/-- One step: what the next turn brings (Machine/Fetch.lean), run by exec if it is an instruction. -/
def step (s : State) : Host.Outcome State Fault Refusal :=
  match fetch s with
  | .run i t => exec i t
  | .done o => o

/-- The state with the instruction of a table word where the next step fetches it (log 17, log 18). -/
def State.withFetchWord (s : State) (nbits w : Nat) : State :=
  placeBytes (tableBytes nbits w).1 (tableBytes nbits w).2 s

end Sys2Proof.Machine
end

