-- ==== Sys2Proof/Safety.lean ====
section
/-!
DEFINITION. The terms claims are stated in: when the block is ready and alone, the invariant of the machine, what the
block may put on the bus, the premise HOLD_WHILE_FLAG, and the host's hazards.
-/

namespace Sys2Proof.Machine

/-- The block accepts a command: SEQ = Idle and RESP.VALID = 0 (R86). -/
abbrev Ready (s : State) : Prop := s.seq = .idle ∧ s.resp.valid = false

/-- No other agent has a turn before the command ends, and BUS is free. -/
abbrev Alone (s : State) : Prop := s.agenda = [] ∧ s.bus = .free

/-- Exchanges have their ordinary effect: the chip is not in Sleep, or its serial interface is active there (R230). -/
abbrev Awake (s : State) : Prop := asleep s.params s.peer = false

/-- The peer is the MCP2515, the values that R5 gives its parameters. -/
abbrev Mcp2515 (s : State) : Prop := s.params.chip = .mcp2515

/-- The register behind an address of the MCP2515: CANSTAT and CANCTRL answer at eight (R31). -/
abbrev homeOf (a : Nat) : Nat := home .mcp2515 a

/-- A register of the MCP2515, as a READ returns it. -/
abbrev reg (m : Memory) (a : Nat) : Byte := peerByte .mcp2515 m a

/-- A register map that hangs together: one-byte addresses, the buffers and CANINTF among the implemented ones, and every
burst of R55 inside its buffer (R56). The MCP2515 is one. -/
def chipOk (c : Chip) : Bool :=
  decide (c.size ≤ 256) && decide (c.regCanintf < c.size)
  && ([c.txb0, c.txb1, c.txb2, c.rxb0, c.rxb1].all fun base => decide (base + offD7 c < c.size))
  && decide (c.offCtrl ≤ offD7 c) && decide (c.offSidh + 4 ≤ offD7 c) && decide (c.offDlc + maxPayload ≤ offD7 c)

/-- Every listed register is an implemented one and listed at its home. -/
def peerKeysOk (c : Chip) (m : Memory) : Bool := m.all fun e => decide (e.1 < c.size) && decide (home c e.1 = e.1)

/-- SEQ, LATCH and RESP agree: idle, no command is held; busy, LATCH holds a command of SEQ's operation and no response
waits (R23, R24, R86). -/
def sequencerOk (s : State) : Bool :=
  match s.seq with
  | .idle => decide (s.latch = none) && decide (s.got = [])
  | .busy op _ =>
    !s.resp.valid &&
    match s.latch with
    | none => false
    | some bytes =>
      match decodeCommand bytes with
      | .ok i => decide (opOf i = some op)
      | .error _ => false

/-- RESP holds a response the block can produce: its status is one of R210, and an error is one byte (R95, R211). A valid
response has bytes (R25). -/
def responseOk (r : Resp) : Bool :=
  match r.bytes with
  | none => !r.valid
  | some [] => false
  | some (st :: rest) => statusBytes.contains st && (decide (st = statusOk) || decide (rest = []))

/-- The invariant of the machine: every step keeps it. -/
structure Inv (s : State) : Prop where
  /-- The register map hangs together. -/
  chip : chipOk s.params.chip = true
  /-- The peer's memory is in canonical form. -/
  peerWf : Memory.wf s.peer = true
  /-- It lists registers that exist. -/
  peerKeys : peerKeysOk s.params.chip s.peer = true
  /-- CTRL bits 7:1 are 0 (R22). -/
  ctrl : s.ctrl &&& 0xFE = 0
  /-- The sequencer and its registers agree. -/
  sequencer : sequencerOk s = true
  /-- The block holds BUS only inside an exchange (R32, R58). -/
  bus : s.bus ≠ .held .block
  /-- The response is one the block can produce (R210). -/
  response : responseOk s.resp = true

/-- The exchanges the block issues, by their MOSI bytes on the MCP2515 (R55): WRITE of the identifier or the DLC and
payload of a transmit buffer, the trigger in its two forms, the three READs of a receive buffer, the BIT_MODIFY of its
flag. -/
def blockMayIssue (mosi : List Byte) : Bool :=
  match decodeExchange .mcp2515 mosi with
  | .error _ => false
  | .ok (.write a data) =>
    [0x30, 0x40, 0x50].any fun base =>
      (decide (a.toNat = base + 1) && (decide (data.length = 2) || decide (data.length = 4)))
      || (decide (a.toNat = base + 5) && decide (1 ≤ data.length) && decide (data.length ≤ 9))
  | .ok (.bitModify a m v) =>
    ([0x30, 0x40, 0x50].any fun base => decide (a = base ∧ m = 0x08 ∧ v = 0x08))
    || decide (a = 0x2C ∧ (m = 0x01 ∨ m = 0x02) ∧ v = 0)
  | .ok (.read a n) =>
    [0x60, 0x70].any fun base =>
      (decide (a.toNat = base + 1) && decide (n = 5))
      || (decide (a.toNat = base) && decide (n = 1))
      || (decide (a.toNat = base + 6) && decide (1 ≤ n) && decide (n ≤ 8))
  | .ok (.rts t) => decide (t = 1 ∨ t = 2 ∨ t = 4)
  | .ok .reset => false
  | .ok (.readStatus _) => false
  | .ok (.rxStatus _) => false
  | .ok (.readRxb _ _ _) => false
  | .ok (.loadTxb _ _) => false

/-- Every exchange of the block so far is one R55 lists. -/
def BlockTrafficOk (s : State) : Prop := ∀ r ∈ s.trace, r.who = .block → blockMayIssue r.mosi = true

/-- The MOSI bytes of the block's exchanges, in bus order (R60). -/
def blockMosi (trace : List BusRecord) : List (List Byte) :=
  (trace.filter fun r => decide (r.who = .block)).map BusRecord.mosi

/-- The peer after a sequence of exchanges, by their MOSI bytes, and how many free values are then drawn: what is issued
stays done (R240). -/
def peerAfter (q : Params) : List (List Byte) → Memory → Nat → Memory × Nat
  | [], m, d => (m, d)
  | mosi :: rest, m, d =>
    match decodeExchange q.chip mosi with
    | .error _ => (m, d)
    | .ok x =>
      match exchangeEffect q x m d with
      | .next r => peerAfter q rest r.peer r.draws
      | .fault _ => (m, d)
      | .refused _ => (m, d)

/-- Receive buffer n reads the same in two memories: base+0 to base+13. -/
def sameRxBuffer (c : Chip) (n : Nat) (m m' : Memory) : Prop :=
  ∀ a, rxbBase c n ≤ a → a ≤ rxbBase c n + offD7 c → peerByte c m' a = peerByte c m a

/-- HOLD_WHILE_FLAG(n) for one step of the chip (R30): while RXnIF is 1 it changes no byte of receive buffer n. -/
def HoldWhileFlag (c : Chip) (n : Nat) (m : Memory) (changes : List Host.Cell) : Prop :=
  rxFlag c m n = true → sameRxBuffer c n m (chipStep c m changes)

/-- A turn, taken in a state, that keeps the premise of R158: the chip keeps HOLD_WHILE_FLAG(n), and no other master
clears RXnIF. A RESET exchange, which puts every register at its reset value, counts as clearing it (log 32). -/
def KeepsFrameIn (n : Nat) (s : State) : Turn → Prop
  | .block => True
  | .chip changes => HoldWhileFlag s.params.chip n s.peer changes
  | .master mosi =>
    ∀ x r, decodeExchange s.params.chip mosi = .ok x → exchangeEffect s.params x s.peer s.draws = .next r →
      rxFlag s.params.chip s.peer n = true → x ≠ .reset ∧ rxFlag s.params.chip r.peer n = true
  | .hold => True
  | .offer _ => True
  | .take => True
  | .reset => True

/-- The premise of R158 along the run of a command: each turn, in the state it is taken in, until the command ends; and
the chip is awake, as R230 lets its results in Sleep be any (log 33). -/
def KeepsFrame (p : Plan) (n : Nat) : List Turn → State → Prop
  | [], s => s.seq = .idle ∨ Awake s
  | t :: ts, s =>
    s.seq = .idle ∨ (Awake s ∧ KeepsFrameIn n s t ∧ ∀ s', turn p t s = .next s' → KeepsFrame p n ts s')

/-! ## What commands leave, in the terms of the rules, with the numbers of R5 -/

/-- TXB_BASE(n) and RXB_BASE(n) of the MCP2515, by the pattern of R5. -/
abbrev txBase (n : Nat) : Nat := 0x30 + 0x10 * n
abbrev rxBase (n : Nat) : Nat := 0x60 + 0x10 * n

/-- The record of an exchange of the block that reads nothing. -/
def writeRecord (mosi : List Byte) : BusRecord :=
  { who := .block, mosi := mosi, miso := List.replicate mosi.length none }

/-- The record of a READ that returned these bytes (R96). -/
def readRecord (who : Agent) (a : Nat) (data : List Byte) : BusRecord :=
  { who := who
    mosi := 0x03 :: BitVec.ofNat 8 a :: List.replicate data.length 0x00
    miso := none :: none :: data.map some }

/-- The MOSI bytes of the two WRITEs that load a frame into transmit buffer n (R123 to R126). -/
def loadMosi (kind : FrameKind) (type : FrameType) (n : Nat) (id : BitVec 32) (data : List Byte) : List (List Byte) :=
  [ 0x02 :: BitVec.ofNat 8 (txBase n + 1) :: packId .mcp2515 kind id,
    0x02 :: BitVec.ofNat 8 (txBase n + 5) :: dlcByte .mcp2515 type data.length :: payloadWritten type data ]

/-- The MOSI bytes of the trigger exchange for transmit buffer n (R127). -/
def triggerMosi (form : TriggerForm) (n : Nat) : List Byte :=
  match form with
  | .bitModify => [0x05, BitVec.ofNat 8 (txBase n), 0x08, 0x08]
  | .rts => [BitVec.ofNat 8 (0x80 + 2 ^ n)]

/-- What each register reads after a frame has been loaded into transmit buffer n (R123 to R126): the identifier, DLC and
payload registers written, their unimplemented bits (SIDL bits 4 and 2, DLC bits 7, 5 and 4) and every other register as
before (R191). -/
def loadedByte (kind : FrameKind) (type : FrameType) (n : Nat) (id : BitVec 32) (data : List Byte) (m : Memory)
    (a : Nat) : Byte :=
  if a = txBase n + 1 then (packId .mcp2515 kind id).getD 0 0
  else if a = txBase n + 2 then mergeBits 0xEB (reg m a) ((packId .mcp2515 kind id).getD 1 0)
  else if kind = .ext ∧ a = txBase n + 3 then (packId .mcp2515 kind id).getD 2 0
  else if kind = .ext ∧ a = txBase n + 4 then (packId .mcp2515 kind id).getD 3 0
  else if a = txBase n + 5 then mergeBits 0x4F (reg m a) (dlcByte .mcp2515 type data.length)
  else if type = .data ∧ txBase n + 6 ≤ a ∧ a < txBase n + 6 + data.length then data.getD (a - (txBase n + 6)) 0
  else reg m a

/-- What each register reads after TXREQ of transmit buffer n has been set (R127). -/
def triggeredByte (n : Nat) (before : Nat → Byte) (a : Nat) : Byte :=
  if a = txBase n then before a ||| 0x08 else before a

/-- The status a frame command reports before its first exchange, if any, in the order of R213 (R91, R120, R210). -/
def frameStatus (remoteTx : RemoteTx) (kind : FrameKind) (type : FrameType) (buf : BitVec 2) (id : BitVec 32)
    (len : Nat) : Option Byte :=
  if 2 < buf.toNat then some 0x14
  else if 8 < len then some 0x24
  else if kind = .std ∧ 2 ^ 11 ≤ id.toNat then some 0x34
  else if kind = .ext ∧ 2 ^ 29 ≤ id.toNat then some 0x34
  else if type = .remote ∧ remoteTx = .refuse then some 0x03
  else none

/-- The payload length that receive buffer n holds (R152). -/
def rxLen (m : Memory) (n : Nat) : Nat := (reg m (rxBase n + 5) &&& 0x0F).toNat

/-- The kind and identifier that receive buffer n holds (R151). -/
def rxId (m : Memory) (n : Nat) : FrameKind × BitVec 32 :=
  unpackId .mcp2515 (reg m (rxBase n + 1)) (reg m (rxBase n + 2)) (reg m (rxBase n + 3)) (reg m (rxBase n + 4))

/-- Whether receive buffer n holds a remote-request frame (R153). -/
def rxType (m : Memory) (n : Nat) : FrameType := if rxRemote .mcp2515 m n then .remote else .data

/-- The records of a DECODE of buffer n that succeeds (R150), with nobody between its exchanges. -/
def decodeRecords (m : Memory) (ctrl : Byte) (n : Nat) : List BusRecord :=
  [readRecord .block (rxBase n + 1) (readBurst .mcp2515 m (rxBase n + 1) 5),
    readRecord .block (rxBase n) [reg m (rxBase n)]]
  ++ (if rxLen m n = 0 then [] else [readRecord .block (rxBase n + 6) (readBurst .mcp2515 m (rxBase n + 6) (rxLen m n))])
  ++ (if intmode ctrl then [writeRecord [0x05, 0x2C, rxifMask .mcp2515 n, 0x00]] else [])

/-- What each register reads after a DECODE of buffer n that succeeds (R156). -/
def decodedByte (m : Memory) (ctrl : Byte) (n : Nat) (a : Nat) : Byte :=
  if intmode ctrl = true ∧ a = 0x2C then reg m a &&& ~~~(rxifMask .mcp2515 n) else reg m a

/-- The MOSI bytes of a DECODE of buffer n that succeeds on a frame of `len` bytes (R150): the READs of the identifier
with the DLC, of RXBnCTRL, of the payload if there is any, and in interrupt mode the BIT_MODIFY of the flag. -/
def decodeMosi (ctrl : Byte) (n len : Nat) : List (List Byte) :=
  [ 0x03 :: BitVec.ofNat 8 (rxBase n + 1) :: List.replicate 5 0x00,
    [0x03, BitVec.ofNat 8 (rxBase n), 0x00] ]
  ++ (if len = 0 then [] else [0x03 :: BitVec.ofNat 8 (rxBase n + 6) :: List.replicate len 0x00])
  ++ (if intmode ctrl then [[0x05, 0x2C, if n = 0 then 0x01 else 0x02, 0x00]] else [])

/-- The MOSI bytes of an ENCODE or SEND that runs to its end: none if it raises, else the two WRITEs, and for SEND the
trigger after them (R120, R123 to R131). -/
def plannedFrame (p : Params) (send : Bool) (kind : FrameKind) (type : FrameType) (buf : BitVec 2) (id : BitVec 32)
    (data : List Byte) : List (List Byte) :=
  if frameStatus p.remoteTx kind type buf id data.length = none then
    loadMosi kind type buf.toNat id data ++ (if send then [triggerMosi p.triggerForm buf.toNat] else [])
  else []

/-- The MOSI bytes that a transmit-side command puts on the bus when it runs to its end (R123 to R131). -/
def plannedMosi (p : Params) : Instr → List (List Byte)
  | .encodeStdData buf id data => plannedFrame p false .std .data buf id data
  | .encodeExtData buf id data => plannedFrame p false .ext .data buf id data
  | .encodeStdRtr buf id data => plannedFrame p false .std .remote buf id data
  | .encodeExtRtr buf id data => plannedFrame p false .ext .remote buf id data
  | .sendStdData buf id data => plannedFrame p true .std .data buf id data
  | .sendExtData buf id data => plannedFrame p true .ext .data buf id data
  | .sendStdRtr buf id data => plannedFrame p true .std .remote buf id data
  | .sendExtRtr buf id data => plannedFrame p true .ext .remote buf id data
  | .trigger buf => if buf.toNat ≤ 2 then [triggerMosi p.triggerForm buf.toNat] else []
  | _ => []

/-- The transmit-side commands (40_codec_transmit.md). -/
def isTransmit : Instr → Bool
  | .encodeStdData _ _ _ => true
  | .encodeExtData _ _ _ => true
  | .encodeStdRtr _ _ _ => true
  | .encodeExtRtr _ _ _ => true
  | .sendStdData _ _ _ => true
  | .sendExtData _ _ _ => true
  | .sendStdRtr _ _ _ => true
  | .sendExtRtr _ _ _ => true
  | .trigger _ => true
  | _ => false

/-- A command done (R23, R95): SEQ is idle, no command is held, and RESP holds the response; everything else as in `s`. -/
def answered (bytes : List Byte) (s : State) : State :=
  { s with seq := .idle, latch := none, got := [], resp := { valid := true, bytes := some bytes } }

/-! ## Hazards -/

/-- The hazard of R250: a command that loads transmit buffer n while a transmission of it is pending. The block does not
check it (R132). -/
def loadsPending (i : Instr) (s : State) : Bool :=
  match i with
  | .encodeStdData buf _ _ => txreq s.params.chip s.peer buf.toNat
  | .encodeExtData buf _ _ => txreq s.params.chip s.peer buf.toNat
  | .encodeStdRtr buf _ _ => txreq s.params.chip s.peer buf.toNat
  | .encodeExtRtr buf _ _ => txreq s.params.chip s.peer buf.toNat
  | .sendStdData buf _ _ => txreq s.params.chip s.peer buf.toNat
  | .sendExtData buf _ _ => txreq s.params.chip s.peer buf.toNat
  | .sendStdRtr buf _ _ => txreq s.params.chip s.peer buf.toNat
  | .sendExtRtr buf _ _ => txreq s.params.chip s.peer buf.toNat
  | _ => false

/-- The hazard of R252: a DECODE of a buffer whose flag is clear. The block does not check it (R150). -/
def decodesEmpty (i : Instr) (s : State) : Bool :=
  match i with
  | .decode buf => !rxFlag s.params.chip s.peer buf.toNat
  | _ => false

/-- A host that keeps its duties of R250 and R252 when it issues an instruction. -/
def hostSafe (i : Instr) (s : State) : Bool := !loadsPending i s && !decodesEmpty i s

end Sys2Proof.Machine
end

