-- ==== Sys2Proof/Certificates/Slice0/Obligations.lean ====
section
/-!
DEFINITION. The statements for the provers. `answered`, `loadedByte`, `frameStatus` and the other terms they share are in
Safety.lean. `exec i s = .next t` says that the instruction completes in `t`. `Mcp2515 s` fixes the register map to the
values of R5. `Awake s` says that exchanges have their ordinary effect: in Sleep, unless the serial interface is active
there, R230 and G26 leave the effect open. A statement without it holds in Sleep too.
-/

open Sys2Proof Sys2Proof.Machine

/-! ## Reset, the step, decoding -/

/-- R241 and R22 to R25, R32: the block's registers after reset. The other fields are the model's choice (log 3, 4, 18). -/
def Obligations.ResetLeavesBlockIdleInPollingMode : Prop :=
  State.reset.seq = .idle ∧ State.reset.ctrl = 0x00 ∧ intmode State.reset.ctrl = false ∧ State.reset.latch = none ∧
  State.reset.resp = { valid := false, bytes := none } ∧ State.reset.bus = .free

/-- R240: the reset input, in any state, a command in progress or not. No exchange follows: a block with no command at the
port waits. In the run of a command: after `k` of the exchanges it would issue alone, those stay done, the others are
never issued, and no response is produced; so for every command and every `k`, the one exchange of TRIGGER spelled out. A
reset before the first exchange, whoever holds BUS, leaves nothing of the command. That TXREQ is
set is R127's, that PEER and the parameters stay R242's and R243's, that of BUS only the block's own holding ends R241's. -/
def Obligations.BlockResetTakesEffectBetweenExchanges : Prop :=
  ∀ (s : State) (ts : List Turn),
    (s.agenda = .reset :: ts →
      step s = .next { s.blockReset with agenda := ts } ∧
      s.blockReset = { s with
        seq := .idle
        ctrl := 0x00
        latch := none
        got := []
        resp := { valid := false, bytes := none }
        bus := if s.bus = .held .block then .free else s.bus } ∧
      (ts = [] → s.port = [] → ∀ t, step s = .next t → step t = .next t)) ∧
    (∀ i : Instr, i.port = .command → i.wellFormed = true → Ready s → s.agenda = .reset :: ts →
      exec i s = .next { s.blockReset with agenda := ts }) ∧
    (∀ (i : Instr) (k : Nat) (alone : State) (issued : List BusRecord), i.port = .command → i.wellFormed = true →
      Mcp2515 s → Ready s → s.bus = .free → exec i { s with agenda := [] } = .next alone →
      alone.trace = s.trace ++ issued → k ≤ issued.length → s.agenda = List.replicate k .block ++ .reset :: ts →
      exec i s = .next { s.blockReset with
        peer := (peerAfter s.params ((issued.take k).map BusRecord.mosi) s.peer s.draws).1
        draws := (peerAfter s.params ((issued.take k).map BusRecord.mosi) s.peer s.draws).2
        trace := s.trace ++ issued.take k
        agenda := ts }) ∧
    (∀ buf : BitVec 2, buf.toNat < 3 → Mcp2515 s → Awake s → Memory.wf s.peer = true → Ready s → s.bus = .free →
      s.agenda = .block :: .reset :: ts → ∃ t, exec (.trigger buf) s = .next t ∧
      t = { s.blockReset with
        peer := t.peer
        trace := s.trace ++ [writeRecord (triggerMosi s.params.triggerForm buf.toNat)]
        agenda := ts } ∧
      ∀ a, a < 128 → reg t.peer a = triggeredByte buf.toNat (reg s.peer) a)

/-- R23, R86: the step takes the oldest command at the port of a ready block, and what runs is the decoded instruction; a
busy block goes on with the command in LATCH. -/
def Obligations.StepRunsTheDecodedCommand : Prop :=
  ∀ (s : State) (bytes : List Byte) (i : Instr),
    (s.agenda = [] ∨ ∃ ts, s.agenda = .block :: ts) → decode .command bytes = .ok i →
    (∀ rest, Ready s → s.port = bytes :: rest → step s = exec i { s with port := rest, agenda := s.agenda.tail }) ∧
    (∀ op k, s.seq = .busy op k → s.latch = some bytes → step s = exec i { s with agenda := s.agenda.tail })

/-- R32, R96: in another master's turn the step runs the exchange its bytes frame, under the opcodes of the instance;
those of the MCP2515 are the ones `decode` reads. -/
def Obligations.StepRunsTheDecodedExchange : Prop :=
  ∀ (s : State) (mosi : List Byte) (ts : List Turn), s.agenda = .master mosi :: ts →
    (∀ x, decodeExchange s.params.chip mosi = .ok x → step s = exec (Instr.ofExchange x) { s with agenda := ts }) ∧
    (∀ i, Mcp2515 s → decode .bus mosi = .ok i → step s = exec i { s with agenda := ts })

/-- R100: a word of the opcode table, placed where the next step finds it, runs the instruction it decodes to. -/
def Obligations.PlacedTableWordRunsAtTheNextStep : Prop :=
  ∀ (s : State) (nbits w : Nat) (i : Instr), Mcp2515 s → decodeTableWord nbits w = some i →
    ∃ t : State, step (s.withFetchWord nbits w) = exec i t ∧ t.peer = s.peer ∧ t.params = s.params ∧ t.ctrl = s.ctrl ∧
      t.agenda = s.agenda ∧ t.port = s.port ∧ t.trace = s.trace ∧ t.bus = .free ∧ (i.port = .command → Ready t)

/-- R81, R84, R88, R96: words written out from the encodings, each command and five kinds of exchange. -/
def Obligations.SampleWordsDecode : Prop :=
  decode .command [0b00010001, 0b10000010, 0x12, 0x34, 0x56, 0x78, 0xAA, 0xBB]
    = .ok (.encodeExtData 1 0x12345678 [0xAA, 0xBB]) ∧
  decode .command [0b00110010, 0b01000000, 0x00, 0x00, 0x07, 0xFF] = .ok (.sendStdRtr 2 0x7FF []) ∧
  decode .command [0b00100001] = .ok (.trigger 1) ∧
  decode .command [0b01000001] = .ok (.decode 1) ∧
  decode .command [0b01010000, 0x08, 0x00, 0x7D] = .ok (.timing 8 125) ∧
  decode .command [0b01100000, 0x01] = .ok (.wrctrl 1) ∧
  decode .bus [0b00000011, 0x61, 0x00, 0x00] = .ok (.spiRead 0x61 2) ∧
  decode .bus [0b00000010, 0x35, 0x02, 0xAA] = .ok (.spiWrite 0x35 [0x02, 0xAA]) ∧
  decode .bus [0b00000101, 0x2C, 0x01, 0x00] = .ok (.spiBitModify 0x2C 0x01 0x00) ∧
  decode .bus [0b10010110, 0x00] = .ok (.spiReadRxb 1 1 1) ∧
  decode .bus [0b01000101, 0x5A] = .ok (.spiLoadTxb 5 [0x5A])

/-- R83, R88, R90, R96: no operand bit of any encoding is dropped. -/
def Obligations.DecodeOfEncodeIsTheInstruction : Prop :=
  ∀ i : Instr, i.wellFormed = true → decode i.port (encode i) = .ok i

/-- R83, R87, R97: a byte string has at most one command, and only well-formed ones decode. -/
def Obligations.CommandBytesHaveOneMeaning : Prop :=
  ∀ (bytes : List Byte) (i : Instr), decodeCommand bytes = .ok i →
    encode i = bytes ∧ i.wellFormed = true ∧ i.port = .command

/-- R87, the structural check, on the numbers its pseudocode names. -/
def Obligations.StructuralCheckFollowsItsOrder : Prop :=
  ∀ (h : Byte) (ops : List Byte),
    let opc := h.toNat / 16
    let n := 1 + ops.length
    let f0 := (ops.headD 0).toNat
    let okLen : Prop :=
      ((opc = 1 ∨ opc = 3) ∧ 6 ≤ n ∧ n = 6 + f0 % 16) ∨ ((opc = 2 ∨ opc = 4) ∧ n = 1) ∨ (opc = 5 ∧ n = 4) ∨
        (opc = 6 ∧ n = 2)
    let reserved : Prop :=
      h.toNat / 4 % 4 ≠ 0 ∨ ((opc = 5 ∨ opc = 6) ∧ h.toNat % 4 ≠ 0) ∨ ((opc = 1 ∨ opc = 3) ∧ f0 / 16 % 4 ≠ 0) ∨
        (opc = 6 ∧ f0 / 2 ≠ 0)
    (structuralCheck (h :: ops) = some .reservedOpcode ↔ ¬ (1 ≤ opc ∧ opc ≤ 6)) ∧
    (structuralCheck (h :: ops) = some .wrongLength ↔ (1 ≤ opc ∧ opc ≤ 6) ∧ ¬ okLen) ∧
    (structuralCheck (h :: ops) = some .reservedBit ↔ (1 ≤ opc ∧ opc ≤ 6) ∧ okLen ∧ reserved) ∧
    (structuralCheck (h :: ops) = none ↔ (1 ≤ opc ∧ opc ≤ 6) ∧ okLen ∧ ¬ reserved)

/-! ## Refused and held commands -/

/-- R87, R97, R210, R215: a command the structural check refuses issues no exchange and changes no state but SEQ and
RESP; the port is shorter by it. -/
def Obligations.IllegalCommandEndsWithItsStatus : Prop :=
  ∀ (s : State) (bytes : List Byte) (rest : List (List Byte)) (r : Illegal),
    Ready s → s.agenda = [] → s.port = bytes :: rest → bytes ≠ [] → structuralCheck bytes = some r →
    step s = .next
      (answered
        [match r with
          | .reservedOpcode => 0x15
          | .wrongLength => 0x25
          | .reservedBit => 0x35]
        { s with port := rest })

/-- R182: a reserved opcode, whatever follows it. -/
def Obligations.ReservedOpcodeRaises15 : Prop :=
  ∀ (s : State) (h : Byte) (ops : List Byte) (rest : List (List Byte)),
    Ready s → s.agenda = [] → s.port = (h :: ops) :: rest → (h.toNat / 16 = 0 ∨ 7 ≤ h.toNat / 16) →
    step s = .next (answered [0x15] { s with port := rest })

/-- R181: the refused forms of WRCTRL leave CTRL unchanged. -/
def Obligations.RefusedWrctrlLeavesCtrl : Prop :=
  ∀ (s : State) (rest : List (List Byte)), Ready s → s.agenda = [] →
    (s.port = [0x60, 0x02] :: rest → step s = .next (answered [0x35] { s with port := rest })) ∧
    (s.port = [0x60, 0x80] :: rest → step s = .next (answered [0x35] { s with port := rest })) ∧
    (s.port = [0x61, 0x01] :: rest → step s = .next (answered [0x35] { s with port := rest })) ∧
    (s.port = [0x60] :: rest → step s = .next (answered [0x25] { s with port := rest }))

/-- R86, U25: while a response waits, the block takes no command: the step changes nothing, and a command that is put to
the block, then or while it is busy with another, goes back to the head of the port. That it goes to the head is the
model's choice (log 20): the spec gives no order among held commands. -/
def Obligations.CommandIsHeldWhileAResponseWaits : Prop :=
  (∀ s : State, s.seq = .idle → s.resp.valid = true → s.agenda = [] → step s = .next s) ∧
  ∀ (s : State) (i : Instr), i.port = .command →
    (s.seq = .idle ∧ s.resp.valid = true ∨ s.seq ≠ .idle ∧ s.latch ≠ some (encode i)) →
    exec i s = .next { s with port := encode i :: s.port }

/-- R25, R217: the host takes the response; then the next command can be accepted. -/
def Obligations.TakingTheResponseFreesTheBlock : Prop :=
  ∀ (s : State) (ts : List Turn), s.agenda = .take :: ts →
    step s = .next { s with resp := { valid := false, bytes := s.resp.bytes }, agenda := ts }

/-- R32, R58: while another master holds BUS, every command that has an exchange to issue is accepted and waits, with no
exchange issued: ENCODE and SEND in their eight variants, TRIGGER, DECODE. -/
def Obligations.BlockWaitsForTheBus : Prop :=
  ∀ s : State, Ready s → s.agenda = [] → s.bus = .held .other →
    (∀ (kind : FrameKind) (type : FrameType) (buf : BitVec 2) (id : BitVec 32) (data : List Byte),
      frameStatus s.params.remoteTx kind type buf id data.length = none →
      exec (encodeVariant kind type buf id data) s = .next
        { s with
          latch := some (encode (encodeVariant kind type buf id data)), seq := .busy (.encode kind type) 0, got := [] } ∧
      exec (sendVariant kind type buf id data) s = .next
        { s with
          latch := some (encode (sendVariant kind type buf id data)), seq := .busy (.send kind type) 0, got := [] }) ∧
    ∀ buf : BitVec 2,
    (buf.toNat < 3 →
      exec (.trigger buf) s = .next { s with latch := some (encode (.trigger buf)), seq := .busy .trigger 0, got := [] }) ∧
    (buf.toNat < 2 →
      exec (.decode buf) s = .next { s with latch := some (encode (.decode buf)), seq := .busy .decode 0, got := [] })

/-! ## Identifier packing -/

/-- R121: PackStd on the numbers of its formula, for an identifier below 2^11. -/
def Obligations.PackStdFollowsItsFormula : Prop :=
  ∀ id : BitVec 32, id.toNat < 2 ^ 11 →
    packStd id = [BitVec.ofNat 8 (id.toNat >>> 3), BitVec.ofNat 8 ((id.toNat <<< 5) &&& 0xE0)] ∧
    id.toNat >>> 3 < 2 ^ 8 ∧ (BitVec.ofNat 8 ((id.toNat <<< 5) &&& 0xE0)) &&& 0x1F = 0

/-- R122: PackExt on the numbers of its formula, for an identifier below 2^29. -/
def Obligations.PackExtFollowsItsFormula : Prop :=
  ∀ id : BitVec 32, id.toNat < 2 ^ 29 →
    packExt .mcp2515 id =
      [ BitVec.ofNat 8 (id.toNat >>> 21),
        BitVec.ofNat 8 (((id.toNat >>> 13) &&& 0xE0) ||| 0x08 ||| ((id.toNat >>> 16) &&& 0x03)),
        BitVec.ofNat 8 ((id.toNat >>> 8) &&& 0xFF),
        BitVec.ofNat 8 (id.toNat &&& 0xFF) ] ∧
    id.toNat >>> 21 < 2 ^ 8

/-- R151: UnpackId on the numbers of its formula, and its bounds, for every four bytes. -/
def Obligations.UnpackIdFollowsItsFormula : Prop :=
  ∀ sidh sidl eid8 eid0 : Byte,
    let sid := (sidh.toNat <<< 3) ||| (sidl.toNat >>> 5)
    (sidl &&& 0x08 = 0 →
      unpackId .mcp2515 sidh sidl eid8 eid0 = (.std, BitVec.ofNat 32 sid) ∧ sid < 2 ^ 11) ∧
    (sidl &&& 0x08 ≠ 0 →
      unpackId .mcp2515 sidh sidl eid8 eid0 =
        (.ext, BitVec.ofNat 32 ((((sid <<< 2) ||| (sidl.toNat &&& 0x03)) <<< 16) ||| (eid8.toNat <<< 8) ||| eid0.toNat)) ∧
      (((sid <<< 2) ||| (sidl.toNat &&& 0x03)) <<< 16) ||| (eid8.toNat <<< 8) ||| eid0.toNat < 2 ^ 29)

/-- R92, R93, R133: unpacking what packing wrote gives the kind and the identifier back. The bits of SIDL that the write
does not reach (4 and 2) and, for a standard frame, EID8 and EID0 are whatever they were. -/
def Obligations.UnpackOfPackIsTheIdentifier : Prop :=
  ∀ (id : BitVec 32) (old eid8 eid0 : Byte),
    (id.toNat < 2 ^ 11 →
      unpackId .mcp2515 ((packStd id).getD 0 0) (mergeBits 0xEB old ((packStd id).getD 1 0)) eid8 eid0 = (.std, id)) ∧
    (id.toNat < 2 ^ 29 →
      unpackId .mcp2515 ((packExt .mcp2515 id).getD 0 0) (mergeBits 0xEB old ((packExt .mcp2515 id).getD 1 0))
        ((packExt .mcp2515 id).getD 2 0) ((packExt .mcp2515 id).getD 3 0) = (.ext, id))

/-- R88, R157: the layout of a descriptor. -/
def Obligations.DescriptorLayout : Prop :=
  ∀ (kind : FrameKind) (type : FrameType) (id : BitVec 32) (data : List Byte), data.length ≤ 15 →
    descriptor kind type id data =
      BitVec.ofNat 8
          ((if kind = .ext then 0x80 else 0) + (if type = .remote then 0x40 else 0) + data.length) ::
        BitVec.ofNat 8 (id.toNat / 2 ^ 24) :: BitVec.ofNat 8 (id.toNat / 2 ^ 16) :: BitVec.ofNat 8 (id.toNat / 2 ^ 8) ::
        BitVec.ofNat 8 id.toNat :: data

/-! ## The transmit side -/

/-- R123, R124: ENCODE of a data frame completes, issues its two WRITEs in order, writes exactly the frame's registers and
changes nothing else. -/
def Obligations.EncodeDataFrameLoadsTheBuffer : Prop :=
  ∀ (s : State) (buf : BitVec 2) (id : BitVec 32) (data : List Byte),
    Mcp2515 s → Awake s → Memory.wf s.peer = true → Ready s → Alone s → buf.toNat < 3 → data.length ≤ 8 →
    (id.toNat < 2 ^ 11 → ∃ t, exec (.encodeStdData buf id data) s = .next t ∧
      t = answered [0x00]
        { s with peer := t.peer, trace := s.trace ++ (loadMosi .std .data buf.toNat id data).map writeRecord } ∧
      ∀ a, a < 128 → reg t.peer a = loadedByte .std .data buf.toNat id data s.peer a) ∧
    (id.toNat < 2 ^ 29 → ∃ t, exec (.encodeExtData buf id data) s = .next t ∧
      t = answered [0x00]
        { s with peer := t.peer, trace := s.trace ++ (loadMosi .ext .data buf.toNat id data).map writeRecord } ∧
      ∀ a, a < 128 → reg t.peer a = loadedByte .ext .data buf.toNat id data s.peer a)

/-- R125, R126 with REMOTE_TX = Encode: identifier and DLC written, no data. -/
def Obligations.EncodeRemoteFrameLoadsTheBuffer : Prop :=
  ∀ (s : State) (buf : BitVec 2) (id : BitVec 32) (data : List Byte),
    Mcp2515 s → Awake s → Memory.wf s.peer = true → Ready s → Alone s → buf.toNat < 3 → data.length ≤ 8 →
    s.params.remoteTx = .encode →
    (id.toNat < 2 ^ 11 → ∃ t, exec (.encodeStdRtr buf id data) s = .next t ∧
      t = answered [0x00]
        { s with peer := t.peer, trace := s.trace ++ (loadMosi .std .remote buf.toNat id data).map writeRecord } ∧
      ∀ a, a < 128 → reg t.peer a = loadedByte .std .remote buf.toNat id data s.peer a) ∧
    (id.toNat < 2 ^ 29 → ∃ t, exec (.encodeExtRtr buf id data) s = .next t ∧
      t = answered [0x00]
        { s with peer := t.peer, trace := s.trace ++ (loadMosi .ext .remote buf.toNat id data).map writeRecord } ∧
      ∀ a, a < 128 → reg t.peer a = loadedByte .ext .remote buf.toNat id data s.peer a)

/-- R127: TRIGGER sets TXREQ of its buffer and nothing else, in both forms of TX_TRIGGER_FORM; BUF 3 is refused. -/
def Obligations.TriggerRequestsTransmission : Prop :=
  ∀ (s : State) (buf : BitVec 2),
    Mcp2515 s → Awake s → Memory.wf s.peer = true → Ready s → Alone s →
    (buf.toNat < 3 → ∃ t, exec (.trigger buf) s = .next t ∧
      t = answered [0x00]
        { s with peer := t.peer, trace := s.trace ++ [writeRecord (triggerMosi s.params.triggerForm buf.toNat)] } ∧
      ∀ a, a < 128 → reg t.peer a = triggeredByte buf.toNat (reg s.peer) a) ∧
    (buf = 3 → exec (.trigger buf) s = .next (answered [0x14] s))

/-- R128, R129: SEND of a data frame is ENCODE and then the trigger exchange. -/
def Obligations.SendDataFrameLoadsAndTriggers : Prop :=
  ∀ (s : State) (buf : BitVec 2) (id : BitVec 32) (data : List Byte),
    Mcp2515 s → Awake s → Memory.wf s.peer = true → Ready s → Alone s → buf.toNat < 3 → data.length ≤ 8 →
    (id.toNat < 2 ^ 11 → ∃ t, exec (.sendStdData buf id data) s = .next t ∧
      t = answered [0x00]
        { s with
          peer := t.peer
          trace := s.trace ++
            (loadMosi .std .data buf.toNat id data ++ [triggerMosi s.params.triggerForm buf.toNat]).map writeRecord } ∧
      ∀ a, a < 128 →
        reg t.peer a = triggeredByte buf.toNat (loadedByte .std .data buf.toNat id data s.peer) a) ∧
    (id.toNat < 2 ^ 29 → ∃ t, exec (.sendExtData buf id data) s = .next t ∧
      t = answered [0x00]
        { s with
          peer := t.peer
          trace := s.trace ++
            (loadMosi .ext .data buf.toNat id data ++ [triggerMosi s.params.triggerForm buf.toNat]).map writeRecord } ∧
      ∀ a, a < 128 →
        reg t.peer a = triggeredByte buf.toNat (loadedByte .ext .data buf.toNat id data s.peer) a)

/-- R130, R131 with REMOTE_TX = Encode. -/
def Obligations.SendRemoteFrameLoadsAndTriggers : Prop :=
  ∀ (s : State) (buf : BitVec 2) (id : BitVec 32) (data : List Byte),
    Mcp2515 s → Awake s → Memory.wf s.peer = true → Ready s → Alone s → buf.toNat < 3 → data.length ≤ 8 →
    s.params.remoteTx = .encode →
    (id.toNat < 2 ^ 11 → ∃ t, exec (.sendStdRtr buf id data) s = .next t ∧
      t = answered [0x00]
        { s with
          peer := t.peer
          trace := s.trace ++
            (loadMosi .std .remote buf.toNat id data ++ [triggerMosi s.params.triggerForm buf.toNat]).map writeRecord } ∧
      ∀ a, a < 128 →
        reg t.peer a = triggeredByte buf.toNat (loadedByte .std .remote buf.toNat id data s.peer) a) ∧
    (id.toNat < 2 ^ 29 → ∃ t, exec (.sendExtRtr buf id data) s = .next t ∧
      t = answered [0x00]
        { s with
          peer := t.peer
          trace := s.trace ++
            (loadMosi .ext .remote buf.toNat id data ++ [triggerMosi s.params.triggerForm buf.toNat]).map writeRecord } ∧
      ∀ a, a < 128 →
        reg t.peer a = triggeredByte buf.toNat (loadedByte .ext .remote buf.toNat id data s.peer) a)

/-- R91, R120, R213: what a frame command reports before its first exchange, in the order of precedence, for all eight
variants; no exchange is issued and nothing but SEQ and RESP changes. -/
def Obligations.FrameErrorsInOrderOfPrecedence : Prop :=
  ∀ (s : State) (kind : FrameKind) (type : FrameType) (buf : BitVec 2) (id : BitVec 32) (data : List Byte) (st : Byte),
    Ready s → s.agenda = [] → data.length ≤ 15 →
    frameStatus s.params.remoteTx kind type buf id data.length = some st →
    exec (encodeVariant kind type buf id data) s = .next (answered [st] s) ∧
    exec (sendVariant kind type buf id data) s = .next (answered [st] s)

/-- R58, R60, R61, R123 to R131, R150: under every interleaving of the chip and the other masters (no block reset), a
command puts on the bus its own exchanges in the order of its rule, and all of them once it has ended. Those of a DECODE
are the READ of identifier and DLC, the READ of RXBnCTRL, the READ of the `len` bytes it returns, the BIT_MODIFY of the
flag in interrupt mode; one that ends with 02 has issued the first alone, one that ends with 14 none. -/
def Obligations.CommandExchangesInOrderUnderInterleaving : Prop :=
  ∀ s t : State, Mcp2515 s → Ready s → .reset ∉ s.agenda →
    (∀ i : Instr, isTransmit i = true → i.wellFormed = true → exec i s = .next t →
      ∃ issued, blockMosi t.trace = blockMosi s.trace ++ issued ∧ issued <+: plannedMosi s.params i ∧
        (t.seq = .idle → issued = plannedMosi s.params i)) ∧
    (∀ buf : BitVec 2, exec (.decode buf) s = .next t →
      ∃ issued len, blockMosi t.trace = blockMosi s.trace ++ issued ∧ len ≤ 8 ∧
        (buf.toNat < 2 → issued <+: decodeMosi s.ctrl buf.toNat len) ∧ (2 ≤ buf.toNat → issued = []) ∧
        (t.seq = .idle →
          (2 ≤ buf.toNat ∧ t.resp.bytes = some [0x14]) ∨
          (buf.toNat < 2 ∧ t.resp.bytes = some [0x02] ∧ issued.length = 1) ∨
          (buf.toNat < 2 ∧ (∃ d, t.resp.bytes = some (0x00 :: d) ∧ d.length = 5 + len) ∧
            issued = decodeMosi s.ctrl buf.toNat len)))

/-- R30, R123, R124: whatever the chip does between the exchanges of an ENCODE of a data frame, the frame stands in the
buffer afterwards: CHIP_ENV never changes TXBnSIDH to TXBnD7. The chip does not go to Sleep meanwhile (OPMOD = 001 in
CANSTAT), or its serial interface is active there (R230). -/
def Obligations.EncodedFrameSurvivesTheChip : Prop :=
  ∀ (s : State) (kind : FrameKind) (buf : BitVec 2) (id : BitVec 32) (data : List Byte),
    Mcp2515 s → Awake s → Memory.wf s.peer = true → Ready s → s.bus = .free → buf.toNat < 3 →
    data.length ≤ 8 → id.toNat < kind.idLimit →
    (∀ u ∈ s.agenda, u = .block ∨ ∃ changes, u = .chip changes ∧
      (s.params.spiActiveInSleep = true ∨ ∀ e ∈ changes, homeOf e.1 = 0x0E → e.2 &&& 0xE0 ≠ 0x20)) →
    ∃ t, exec (encodeVariant kind .data buf id data) s = .next t ∧ t.seq = .idle ∧
      t.resp = { valid := true, bytes := some [0x00] } ∧
      ∀ n off, n < 3 → 1 ≤ off → off ≤ 13 →
        reg t.peer (txBase n + off) = loadedByte kind .data buf.toNat id data s.peer (txBase n + off)

/-! ## The receive side -/

/-- R150 to R154, R156, R157: DECODE of a data frame, in interrupt and in polling mode. -/
def Obligations.DecodeReturnsTheDataFrame : Prop :=
  ∀ (s : State) (buf : BitVec 2),
    Mcp2515 s → Awake s → Memory.wf s.peer = true → Ready s → Alone s → buf.toNat < 2 →
    rxLen s.peer buf.toNat ≤ 8 → rxType s.peer buf.toNat = .data →
    ∃ t, exec (.decode buf) s = .next t ∧
      t = answered
        (0x00 :: descriptor (rxId s.peer buf.toNat).1 .data (rxId s.peer buf.toNat).2
          (readBurst .mcp2515 s.peer (rxBase buf.toNat + 6) (rxLen s.peer buf.toNat)))
        { s with peer := t.peer, trace := s.trace ++ decodeRecords s.peer s.ctrl buf.toNat } ∧
      ∀ a, a < 128 → reg t.peer a = decodedByte s.peer s.ctrl buf.toNat a

/-- R150, R153, R155: DECODE of a remote-request frame: as for data, but the payload is `len` values of which nothing is
known; the statement holds for every value of them. -/
def Obligations.DecodeReturnsTheRemoteFrame : Prop :=
  ∀ (s : State) (buf : BitVec 2),
    Mcp2515 s → Awake s → Memory.wf s.peer = true → Ready s → Alone s → buf.toNat < 2 →
    rxLen s.peer buf.toNat ≤ 8 → rxType s.peer buf.toNat = .remote →
    ∃ t payload, payload.length = rxLen s.peer buf.toNat ∧ exec (.decode buf) s = .next t ∧
      t = answered
        (0x00 :: descriptor (rxId s.peer buf.toNat).1 .remote (rxId s.peer buf.toNat).2 payload)
        { s with
          peer := t.peer
          trace := s.trace ++ decodeRecords s.peer s.ctrl buf.toNat
          draws := s.draws + rxLen s.peer buf.toNat } ∧
      ∀ a, a < 128 → reg t.peer a = decodedByte s.peer s.ctrl buf.toNat a

/-- R152, R215: a DLC above 8 ends the DECODE after its first exchange; no frame is returned and the peer, its flag
included, is as it was, in both modes. -/
def Obligations.DecodeRefusesDlcAboveEight : Prop :=
  ∀ (s : State) (buf : BitVec 2),
    Mcp2515 s → Awake s → Ready s → Alone s → buf.toNat < 2 → 8 < rxLen s.peer buf.toNat →
    exec (.decode buf) s = .next
      (answered [0x02]
        { s with
          trace := s.trace ++
            [readRecord .block (rxBase buf.toNat + 1) (readBurst .mcp2515 s.peer (rxBase buf.toNat + 1) 5)] })

/-- R82, R150: DECODE of buffer 2 or 3 is refused before any exchange. -/
def Obligations.DecodeRefusesBufferAboveOne : Prop :=
  ∀ (s : State) (buf : BitVec 2), Ready s → s.agenda = [] → 2 ≤ buf.toNat →
    exec (.decode buf) s = .next (answered [0x14] s)

/-- R159, first half: every frame a DECODE returns is well formed, under every interleaving. -/
def Obligations.DecodedFrameIsWellFormed : Prop :=
  ∀ (s t : State) (buf : BitVec 2) (d : List Byte), Ready s → exec (.decode buf) s = .next t →
    t.resp = { valid := true, bytes := some (0x00 :: d) } →
    ∃ f, frameOf d = some f ∧ f.wellFormed = true

/-- R158: under HOLD_WHILE_FLAG(BUF), RXnIF = 1 at the start and no other master clearing it, all three reads of a DECODE
see the one frame that stood in the buffer, whatever else happens in between, other masters' writes to the buffer among
it. The chip is awake throughout, since in Sleep R230 lets a DECODE return anything. The model's readings: a RESET exchange
counts as clearing the flag (log 32), no other write reaches a received frame (log 5). -/
def Obligations.DecodeSeesOneFrameUnderHold : Prop :=
  ∀ (s t : State) (buf : BitVec 2), Mcp2515 s → Memory.wf s.peer = true → Ready s → buf.toNat < 2 →
    rxFlag .mcp2515 s.peer buf.toNat = true → rxLen s.peer buf.toNat ≤ 8 →
    KeepsFrame (decodePlan buf) buf.toNat s.agenda (s.accept .decode (encode (.decode buf))) →
    exec (.decode buf) s = .next t → t.resp.valid = true →
    ∃ payload, payload.length = rxLen s.peer buf.toNat ∧
      (rxType s.peer buf.toNat = .data →
        payload = readBurst .mcp2515 s.peer (rxBase buf.toNat + 6) (rxLen s.peer buf.toNat)) ∧
      t.resp = { valid := true, bytes := some (0x00 ::
        descriptor (rxId s.peer buf.toNat).1 (rxType s.peer buf.toNat) (rxId s.peer buf.toNat).2 payload) }

/-- R133: ENCODE of a well-formed data frame into transmit buffer n, the registers copied to receive buffer r with RXRTR
clear, DECODE of buffer r: the descriptor returned denotes the frame. -/
def Obligations.RoundTripThroughTheBuffers : Prop :=
  ∀ (f : Frame) (s t u : State) (n r : BitVec 2), f.wellFormed = true → f.type = .data → n.toNat < 3 → r.toNat < 2 →
    Mcp2515 s → Awake s → Memory.wf s.peer = true → Ready s → Alone s →
    exec (encodeVariant f.kind .data n (BitVec.ofNat 32 f.id) f.data) s = .next t →
    Mcp2515 u → Awake u → Memory.wf u.peer = true → Ready u → Alone u →
    (∀ off, 1 ≤ off → off ≤ 5 + f.data.length →
      reg u.peer (rxBase r.toNat + off) = reg t.peer (txBase n.toNat + off)) →
    rxRemote .mcp2515 u.peer r.toNat = false →
    ∃ v d, exec (.decode r) u = .next v ∧ v.resp = { valid := true, bytes := some (0x00 :: d) } ∧ frameOf d = some f

/-! ## TIMING and WRCTRL -/

/-- R170, R173: TIMING returns the table's triple, or CONFIGURATION(1) and no bytes. -/
def Obligations.TimingLooksUpTheTable : Prop :=
  ∀ (s : State) (osc : Byte) (rate : BitVec 16), Ready s → s.agenda = [] →
    (∀ e, timingTable s.params osc rate = some e →
      exec (.timing osc rate) s = .next (answered [0x00, e.cnf1, e.cnf2, e.cnf3] s)) ∧
    (timingTable s.params osc rate = none → exec (.timing osc rate) s = .next (answered [0x11] s))

/-- R6: every table has an entry at (8, 125) and none where OSC or RATE is 0, its domain is finite, and no step changes
it. -/
def Obligations.TimingTableConstraints : Prop :=
  ∀ s : State, (∃ e, timingTable s.params 8 125 = some e) ∧ (∀ rate, timingTable s.params 0 rate = none) ∧
    (∀ osc, timingTable s.params osc 0 = none) ∧
    (∃ pairs : List (Byte × BitVec 16), ∀ osc rate, timingTable s.params osc rate ≠ none → (osc, rate) ∈ pairs) ∧
    ∀ t, step s = .next t → ∀ osc rate, timingTable t.params osc rate = timingTable s.params osc rate

/-- R172: two TIMING commands with the same operands, on one instance, give the same response in every state, whatever
the other agents do meanwhile (no block reset), and alone they change nothing but SEQ and RESP. -/
def Obligations.TimingIsAPureFunction : Prop :=
  ∀ (s s' : State) (osc : Byte) (rate : BitVec 16), s.params = s'.params → Ready s → Ready s' →
    (s.agenda = [] → s'.agenda = [] → ∃ bytes, exec (.timing osc rate) s = .next (answered bytes s) ∧
      exec (.timing osc rate) s' = .next (answered bytes s')) ∧
    (.reset ∉ s.agenda → .reset ∉ s'.agenda → ∀ t t', exec (.timing osc rate) s = .next t →
      exec (.timing osc rate) s' = .next t' → t.resp = t'.resp ∧ t.resp.valid = true)

/-- R180: WRCTRL writes CTRL. A value with a reserved bit is refused (R181). -/
def Obligations.WrctrlWritesCtrl : Prop :=
  ∀ (s : State) (v : Byte), Ready s → s.agenda = [] →
    (v.toNat < 2 → exec (.wrctrl v) s = .next (answered [0x00] { s with ctrl := v })) ∧
    (2 ≤ v.toNat → exec (.wrctrl v) s = .next (answered [0x35] s))

/-! ## The register port -/

/-- R190, R53: READ returns the bytes of ascending addresses and changes nothing; outside the 128 registers it faults; a
READ of no byte does not exist (R154) and is refused. -/
def Obligations.ReadReturnsRegistersInOrder : Prop :=
  ∀ (s : State) (a : Byte) (n : Nat), Mcp2515 s → Awake s → s.bus ≠ .held .block →
    (1 ≤ n → a.toNat + n ≤ 128 →
      exec (.spiRead a n) s = .next
        { s with
          bus := .free
          trace := s.trace ++
            [readRecord .other a.toNat ((List.range n).map fun k => reg s.peer (a.toNat + k))] }) ∧
    (1 ≤ n → 128 < a.toNat + n → exec (.spiRead a n) s = .fault .unimplementedAddress) ∧
    (n = 0 → exec (.spiRead a n) s = .refused .malformedExchange)

/-- R191: WRITE stores its bytes at ascending addresses, in the writable bits; every register it does not reach is as
before. `homeOf` is the register behind an address. -/
def Obligations.WriteStoresBytesInOrder : Prop :=
  ∀ (s : State) (a : Byte) (data : List Byte), Mcp2515 s → Awake s → Memory.wf s.peer = true → s.bus ≠ .held .block →
    (1 ≤ data.length → a.toNat + data.length ≤ 128 → ∃ t, exec (.spiWrite a data) s = .next t ∧
      t = { s with
        peer := t.peer
        bus := .free
        trace := s.trace ++
          [{ who := .other, mosi := 0x02 :: a :: data, miso := List.replicate (2 + data.length) none }] } ∧
      (∀ k, k < data.length → (∀ j, k < j → j < data.length → homeOf (a.toNat + j) ≠ homeOf (a.toNat + k)) →
        Memory.read t.peer (homeOf (a.toNat + k)) =
          mergeBits (writableMask .mcp2515 (configurationMode .mcp2515 s.peer) (homeOf (a.toNat + k)))
            (Memory.read s.peer (homeOf (a.toNat + k))) (data.getD k 0)) ∧
      ∀ b, b < 128 → (∀ k, k < data.length → homeOf b ≠ homeOf (a.toNat + k)) → reg t.peer b = reg s.peer b) ∧
    (1 ≤ data.length → 128 < a.toNat + data.length → exec (.spiWrite a data) s = .fault .unimplementedAddress) ∧
    (data = [] → exec (.spiWrite a data) s = .refused .malformedExchange)

/-- R29, R171, R175, R191: the bits a WRITE changes, register by register: of the transmit buffers all but the
unimplemented ones; of the receive buffers RXM and BUKT alone (FILHIT is a free choice), no bit of a received frame, which
is the model's reading of R158 (log 5); CANINTF, CANINTE, the filters, the masks and CANCTRL whole (log 5); CNF1 to CNF3 in
Configuration mode alone (log 8). -/
def Obligations.WritableBitsOfTheBuffers : Prop :=
  ∀ config : Bool,
    (∀ n off, n < 3 → off ≤ 13 →
      writableMask .mcp2515 config (homeOf (txBase n + off)) =
        (if off = 0 then 0x7B else if off = 2 then 0xEB else if off = 5 then 0x4F else 0xFF)) ∧
    (∀ n off, n < 2 → 1 ≤ off → off ≤ 13 → writableMask .mcp2515 config (homeOf (rxBase n + off)) = 0x00) ∧
    writableMask .mcp2515 config (homeOf 0x60) &&& 0xFE = 0x64 ∧ writableMask .mcp2515 config (homeOf 0x70) &&& 0xF8 = 0x60 ∧
    (∀ a, a ∈ [0x28, 0x29, 0x2A] →
      writableMask .mcp2515 config (homeOf a) =
        (if config = false then 0x00 else if a = 0x28 then 0xC7 else 0xFF)) ∧
    ∀ a, (a < 0x0C ∨ a = 0x0F ∨ (0x10 ≤ a ∧ a < 0x1C) ∨ (0x20 ≤ a ∧ a < 0x28) ∨ a = 0x2B ∨ a = 0x2C) →
      writableMask .mcp2515 config (homeOf a) = 0xFF

/-- R192: BIT_MODIFY merges under its mask on TXBnCTRL and on CANINTF, in one exchange, and changes no other register. -/
def Obligations.BitModifyMergesUnderItsMask : Prop :=
  ∀ (s : State) (a m v : Byte), Mcp2515 s → Awake s → Memory.wf s.peer = true → s.bus ≠ .held .block →
    (a.toNat = 0x2C ∨ a.toNat = 0x30 ∨ a.toNat = 0x40 ∨ a.toNat = 0x50) →
    ∃ t, exec (.spiBitModify a m v) s = .next t ∧
      t = { s with
        peer := t.peer
        bus := .free
        trace := s.trace ++ [{ who := .other, mosi := [0x05, a, m, v], miso := [none, none, none, none] }] } ∧
      reg t.peer a.toNat =
        (reg s.peer a.toNat &&& ~~~m) ||| (v &&& m &&& (if a.toNat = 0x2C then 0xFF else 0x7B)) ∧
      ∀ b, b < 128 → b ≠ a.toNat → reg t.peer b = reg s.peer b

/-- R192: on any other register a BIT_MODIFY acts with its mask or as a full write, whichever the chip does (a free
choice, Config.honoursMaskUnstated), in the writable bits; no other register changes; outside the 128 registers it
faults. -/
def Obligations.BitModifyOfAnyRegister : Prop :=
  ∀ (s : State) (a m v : Byte), Mcp2515 s → Awake s → Memory.wf s.peer = true → s.bus ≠ .held .block →
    (a.toNat < 128 → ∃ t mask, (mask = m ∨ mask = 0xFF) ∧ exec (.spiBitModify a m v) s = .next t ∧
      t = { s with
        peer := t.peer
        bus := .free
        trace := s.trace ++ [{ who := .other, mosi := [0x05, a, m, v], miso := [none, none, none, none] }] } ∧
      Memory.read t.peer (homeOf a.toNat) =
        mergeBits (mask &&& writableMask .mcp2515 (configurationMode .mcp2515 s.peer) (homeOf a.toNat))
          (Memory.read s.peer (homeOf a.toNat)) v ∧
      ∀ b, b < 128 → homeOf b ≠ homeOf a.toNat → reg t.peer b = reg s.peer b) ∧
    (128 ≤ a.toNat → exec (.spiBitModify a m v) s = .fault .unimplementedAddress)

/-- R193, R243, R31: RESET puts every register at its reset value, a parameter of the instance, CANSTAT among them: the
chip is in Configuration mode just when that value says so (log 9; U6 has the mode after reset be any). The block's own
registers keep their values. -/
def Obligations.ResetExchangeResetsThePeer : Prop :=
  ∀ s : State, Mcp2515 s → Awake s → s.bus ≠ .held .block → ∃ t, exec .spiReset s = .next t ∧
    t = { s with
      peer := t.peer, bus := .free, trace := s.trace ++ [{ who := .other, mosi := [0xC0], miso := [none] }] } ∧
    (∀ a, a < 128 → Memory.read t.peer (homeOf a) = Memory.read s.params.chipReset (homeOf a)) ∧
    (configurationMode .mcp2515 t.peer = true ↔ (Memory.read s.params.chipReset 0x0E).extractLsb' 5 3 = 0b100)

/-- R194: the bits of the READ_STATUS byte, which repeats while the master clocks; nothing of the peer changes. One that
clocks no byte has no framing (R96) and is refused. -/
def Obligations.ReadStatusGathersTheFlags : Prop :=
  ∀ (s : State) (k : Nat), Mcp2515 s → Awake s → s.bus ≠ .held .block →
    (k = 0 → exec (.spiReadStatus k) s = .refused .malformedExchange) ∧
    (1 ≤ k → ∃ st : Byte,
      exec (.spiReadStatus k) s = .next
        { s with
          bus := .free
          trace := s.trace ++
            [{ who := .other, mosi := 0xA0 :: List.replicate k 0x00, miso := none :: List.replicate k (some st) }] } ∧
      st.getLsbD 0 = (reg s.peer 0x2C).getLsbD 0 ∧ st.getLsbD 1 = (reg s.peer 0x2C).getLsbD 1 ∧
      st.getLsbD 2 = (reg s.peer 0x30).getLsbD 3 ∧ st.getLsbD 3 = (reg s.peer 0x2C).getLsbD 2 ∧
      st.getLsbD 4 = (reg s.peer 0x40).getLsbD 3 ∧ st.getLsbD 5 = (reg s.peer 0x2C).getLsbD 3 ∧
      st.getLsbD 6 = (reg s.peer 0x50).getLsbD 3 ∧ st.getLsbD 7 = (reg s.peer 0x2C).getLsbD 4)

/-- R195: bits 7:6 of the RX_STATUS byte, and its type and filter bits when one buffer alone holds a message. That these
come from the buffer's own IDE, RXRTR and FILHIT bits is the model's reading (log 11); that no byte is refused (log 25) and
that bytes after the first have no value (log 31) are its choices, since R96 and R199 fix the length at 2. -/
def Obligations.RxStatusNamesTheFullBuffers : Prop :=
  ∀ (s : State) (k : Nat), Mcp2515 s → Awake s → s.bus ≠ .held .block →
    (k = 0 → exec (.spiRxStatus k) s = .refused .malformedExchange) ∧
    (1 ≤ k → ∃ st : Byte,
      exec (.spiRxStatus k) s = .next
        { s with
          bus := .free
          draws := s.draws + 1
          trace := s.trace ++
            [{ who := .other
               mosi := 0xB0 :: List.replicate k 0x00
               miso := none :: some st :: List.replicate (k - 1) none }] } ∧
      st.getLsbD 6 = rxFlag .mcp2515 s.peer 0 ∧ st.getLsbD 7 = rxFlag .mcp2515 s.peer 1 ∧
      (rxFlag .mcp2515 s.peer 0 = true → rxFlag .mcp2515 s.peer 1 = false →
        st.getLsbD 4 = rxExtended .mcp2515 s.peer 0 ∧ st.getLsbD 3 = rxRemote .mcp2515 s.peer 0 ∧
        st &&& 0x07 = reg s.peer 0x60 &&& 0x01) ∧
      (rxFlag .mcp2515 s.peer 0 = false → rxFlag .mcp2515 s.peer 1 = true →
        st.getLsbD 4 = rxExtended .mcp2515 s.peer 1 ∧ st.getLsbD 3 = rxRemote .mcp2515 s.peer 1 ∧
        st &&& 0x07 = reg s.peer 0x70 &&& 0x07))

/-- R196: READ_RXB reads from 0x61, 0x66, 0x71 or 0x76 and clears RXnIF of its buffer, and nothing else. The
model's choices: no byte at all still clears the flag (log 25), a burst goes on past its buffer (log 26), and past 0x7F it
faults (log 12). -/
def Obligations.ReadRxbReadsAndClearsTheFlag : Prop :=
  ∀ (s : State) (n m : BitVec 1) (k : Nat), Mcp2515 s → Awake s → Memory.wf s.peer = true → s.bus ≠ .held .block →
    let start := (if n = 0 then 0x61 else 0x71) + (if m = 0 then 0 else 5)
    (start + k ≤ 128 → ∃ t, exec (.spiReadRxb n m k) s = .next t ∧
      t = { s with
        peer := t.peer
        bus := .free
        trace := s.trace ++
          [{ who := .other
             mosi := BitVec.ofNat 8 (0x90 + 4 * n.toNat + 2 * m.toNat) :: List.replicate k 0x00
             miso := none :: (List.range k).map fun j => some (reg s.peer (start + j)) }] } ∧
      reg t.peer 0x2C = reg s.peer 0x2C &&& ~~~(if n = 0 then (0x01 : Byte) else 0x02) ∧
      ∀ b, b < 128 → b ≠ 0x2C → reg t.peer b = reg s.peer b) ∧
    (128 < start + k → exec (.spiReadRxb n m k) s = .fault .unimplementedAddress)

/-- R197: LOAD_TXB writes from 0x31, 0x36, 0x41, 0x46, 0x51 or 0x56 up; abc = 110 and 111 are refused by name.
The model's choices: no byte at all is allowed (log 25), a burst goes on past its buffer (log 26), and past 0x7F it faults
(log 12). -/
def Obligations.LoadTxbWritesTheBuffer : Prop :=
  ∀ (s : State) (abc : BitVec 3) (data : List Byte), Mcp2515 s → Awake s → Memory.wf s.peer = true → s.bus ≠ .held .block →
    let start := [0x31, 0x36, 0x41, 0x46, 0x51, 0x56].getD abc.toNat 0
    (abc.toNat < 6 → start + data.length ≤ 128 → ∃ t, exec (.spiLoadTxb abc data) s = .next t ∧
      t = { s with
        peer := t.peer
        bus := .free
        trace := s.trace ++
          [{ who := .other
             mosi := BitVec.ofNat 8 (0x40 + abc.toNat) :: data
             miso := List.replicate (1 + data.length) none }] } ∧
      (∀ k, k < data.length → (∀ j, k < j → j < data.length → homeOf (start + j) ≠ homeOf (start + k)) →
        Memory.read t.peer (homeOf (start + k)) =
          mergeBits (writableMask .mcp2515 (configurationMode .mcp2515 s.peer) (homeOf (start + k)))
            (Memory.read s.peer (homeOf (start + k))) (data.getD k 0)) ∧
      ∀ b, b < 128 → (∀ k, k < data.length → homeOf b ≠ homeOf (start + k)) → reg t.peer b = reg s.peer b) ∧
    (abc.toNat < 6 → 128 < start + data.length → exec (.spiLoadTxb abc data) s = .fault .unimplementedAddress) ∧
    (6 ≤ abc.toNat → exec (.spiLoadTxb abc data) s = .refused .undefinedLoadTxb)

/-- R198: RTS sets TXREQ of every transmit buffer whose bit is 1, and changes nothing else; `80` changes nothing. -/
def Obligations.RtsSetsSelectedRequests : Prop :=
  ∀ (s : State) (sel : BitVec 3), Mcp2515 s → Awake s → Memory.wf s.peer = true → s.bus ≠ .held .block →
    ∃ t, exec (.spiRts sel) s = .next t ∧
      t = { s with
        peer := t.peer
        bus := .free
        trace := s.trace ++ [{ who := .other, mosi := [BitVec.ofNat 8 (0x80 + sel.toNat)], miso := [none] }] } ∧
      (∀ n, n < 3 → reg t.peer (txBase n) =
        (if sel.getLsbD n then reg s.peer (txBase n) ||| 0x08 else reg s.peer (txBase n))) ∧
      (∀ b, b < 128 → b ≠ 0x30 → b ≠ 0x40 → b ≠ 0x50 → reg t.peer b = reg s.peer b) ∧
      (sel = 0 → t.peer = s.peer)

/-- R255: while the block holds BUS, no other master has a step: every exchange is refused by name. R230, G26: while the
chip sleeps and its serial interface with it, an exchange has its framing and nothing is known of its effect on the peer or
of the bytes it returns; the rest of the state is as awake. That it takes effect, and returns bytes, where it does awake,
and stops where it stops awake, is the model's choice (log 33). -/
def Obligations.ExchangeWhileTheBusIsHeldAndInSleep : Prop :=
  (∀ (s : State) (x : Exchange), s.bus = .held .block → exec (Instr.ofExchange x) s = .refused .busHeldByBlock) ∧
  ∀ (s t : State) (x : Exchange), s.bus ≠ .held .block → ¬ Awake s →
    let awake := { s with params := { s.params with spiActiveInSleep := true } }
    (exec (Instr.ofExchange x) awake = .next t →
      ∃ peer miso draws, exec (Instr.ofExchange x) s = .next
        { s with
          peer := peer
          bus := .free
          draws := draws
          trace := s.trace ++ [{ who := .other, mosi := encodeExchange s.params.chip x, miso := miso }] } ∧
        (∀ r, t.trace = s.trace ++ [r] → miso.map Option.isSome = r.miso.map Option.isSome)) ∧
    (∀ f, exec (Instr.ofExchange x) awake = .fault f → exec (Instr.ofExchange x) s = .fault f) ∧
    ∀ r, exec (Instr.ofExchange x) awake = .refused r → exec (Instr.ofExchange x) s = .refused r

/-! ## The chip -/

/-- R30: a step of the chip never changes TXBnSIDH to TXBnD7, of TXBnCTRL only TXREQ, ABTF, MLOA and TXERR, never clears
RX0IF or RX1IF, and nothing of the block. It can change all that R30 (a) to (d) names: every register of a receive buffer
(RXB0CTRL bit 1 reads as bit 2), CANINTF, the four bits of TXBnCTRL, every other register. That a change it may not make is
dropped, and the rest of its turn applied, is the model's choice (log 28). -/
def Obligations.ChipStepKeepsToItsRule : Prop :=
  ∀ (s : State) (changes : List Host.Cell) (ts : List Turn), Mcp2515 s → Memory.wf s.peer = true →
    s.agenda = .chip changes :: ts →
    ∃ t, step s = .next t ∧ t = { s with peer := t.peer, agenda := ts } ∧
      (∀ n off, n < 3 → 1 ≤ off → off ≤ 13 → reg t.peer (txBase n + off) = reg s.peer (txBase n + off)) ∧
      (∀ n, n < 3 → reg t.peer (txBase n) &&& 0x87 = reg s.peer (txBase n) &&& 0x87) ∧
      (∀ n, n < 2 → rxFlag .mcp2515 s.peer n = true → rxFlag .mcp2515 t.peer n = true) ∧
      (∀ n off v, n < 2 → 1 ≤ off → off ≤ 13 → changes = [(rxBase n + off, v)] → reg t.peer (rxBase n + off) = v) ∧
      (∀ v : Byte, changes = [(0x60, v)] → reg t.peer 0x60 = (v &&& 0xFD) ||| ((v &&& 0x04) >>> 1)) ∧
      (∀ v : Byte, changes = [(0x70, v)] → reg t.peer 0x70 = v) ∧
      (∀ v : Byte, changes = [(0x2C, v)] → reg t.peer 0x2C = v ||| (reg s.peer 0x2C &&& 0x03)) ∧
      (∀ (n : Nat) (v : Byte), n < 3 → changes = [(txBase n, v)] →
        reg t.peer (txBase n) = (v &&& 0x78) ||| (reg s.peer (txBase n) &&& 0x87)) ∧
      (∀ (a : Nat) (v : Byte), (a < 0x2C ∨ a = 0x2D ∨ a = 0x2E ∨ a = 0x2F) → changes = [(a, v)] →
        Memory.read t.peer (homeOf a) = v)

/-! ## The whole machine -/

/-- The invariant holds after reset. -/
def Obligations.InvariantHoldsAtReset : Prop := Inv State.reset

/-- Every step keeps the invariant, for every register map that hangs together: the memory's canonical form, CTRL bits 7:1
zero (R22), SEQ and LATCH in agreement (R23, R24), BUS never left held by the block (R32), and RESP a response with a
status of R210. -/
def Obligations.EveryStepKeepsTheInvariant : Prop := ∀ s t : State, Inv s → step s = .next t → Inv t

/-- R6, R242: no step changes the parameters of the instance. -/
def Obligations.NoStepChangesTheParameters : Prop := ∀ s t : State, step s = .next t → t.params = s.params

/-- R22, R183: only WRCTRL and block reset write CTRL. -/
def Obligations.OnlyWrctrlAndResetChangeCtrl : Prop :=
  ∀ (s t : State) (i : Instr), exec i s = .next t → (∀ v, i ≠ .wrctrl v) → .reset ∉ s.agenda → t.ctrl = s.ctrl

/-- R51, R55, R56: every exchange the block ever issues is one of the table of R55, whatever the other agents do. -/
def Obligations.BlockIssuesOnlyItsOwnExchanges : Prop :=
  ∀ s t : State, Mcp2515 s → BlockTrafficOk s → step s = .next t → BlockTrafficOk t

/-- R215: a command that raises an error, with nobody between its exchanges, leaves PEER and CTRL as a command that never
ran would. Awake: in Sleep what the READ of a DECODE does to the peer is open (R230). -/
def Obligations.FailedCommandLeavesPeerAndCtrl : Prop :=
  ∀ (s t : State) (i : Instr) (st : Byte) (rest : List Byte), i.port = .command → Ready s → Alone s → Awake s →
    exec i s = .next t → t.resp.bytes = some (st :: rest) → st ≠ 0x00 →
    rest = [] ∧ t.peer = s.peer ∧ t.ctrl = s.ctrl ∧ t.seq = .idle ∧ t.resp.valid = true

/-- R262: every command completes, after at most four exchanges, all of them the block's. -/
def Obligations.EveryCommandCompletesInFourExchanges : Prop :=
  ∀ (s : State) (i : Instr), chipOk s.params.chip = true → i.port = .command → Ready s → Alone s →
    ∃ t issued, exec i s = .next t ∧ t.seq = .idle ∧ t.resp.valid = true ∧ t.trace = s.trace ++ issued ∧
      issued.length ≤ 4 ∧ (∀ r ∈ issued, r.who = .block) ∧ Alone t

/-- R51, R56: no command ever stops the machine, whatever the chip, the hosts and the reset input do between its
exchanges. -/
def Obligations.NoCommandStopsTheMachine : Prop :=
  ∀ (s : State) (i : Instr), chipOk s.params.chip = true → i.port = .command →
    (∀ u ∈ s.agenda, ∀ mosi, u ≠ .master mosi) →
    ∃ t, exec i s = .next t
end

