-- ==== Sys2Proof/Laws/Decode.lean ====
section
/-!
SUPPORT. The fields of an encoded byte, and that the structural check lets an encoded well-formed command through.
-/

namespace Sys2Proof

@[simp] theorem opcOf_headerByte (opc : BitVec 4) (buf : BitVec 2) : opcOf (headerByte opc buf) = opc := by
  revert opc buf; decide

@[simp] theorem rsvOf_headerByte (opc : BitVec 4) (buf : BitVec 2) : rsvOf (headerByte opc buf) = 0 := by
  revert opc buf; decide

@[simp] theorem bufOf_headerByte (opc : BitVec 4) (buf : BitVec 2) : bufOf (headerByte opc buf) = buf := by
  revert opc buf; decide

/-- F0 with the four bits of LEN spelled out. -/
theorem f0Byte_fields (kind : FrameKind) (type : FrameType) (l : BitVec 4) :
    kindOf (kindBit kind ++ typeBit type ++ (0 : BitVec 2) ++ l) = kind ∧
    typeOf (kindBit kind ++ typeBit type ++ (0 : BitVec 2) ++ l) = type ∧
    f0RsvOf (kindBit kind ++ typeBit type ++ (0 : BitVec 2) ++ l) = 0 ∧
    lenOf (kindBit kind ++ typeBit type ++ (0 : BitVec 2) ++ l) = l.toNat := by
  cases kind <;> cases type <;> revert l <;> decide

@[simp] theorem kindOf_f0Byte (kind : FrameKind) (type : FrameType) (n : Nat) : kindOf (f0Byte kind type n) = kind :=
  (f0Byte_fields kind type _).1

@[simp] theorem typeOf_f0Byte (kind : FrameKind) (type : FrameType) (n : Nat) : typeOf (f0Byte kind type n) = type :=
  (f0Byte_fields kind type _).2.1

@[simp] theorem f0RsvOf_f0Byte (kind : FrameKind) (type : FrameType) (n : Nat) : f0RsvOf (f0Byte kind type n) = 0 :=
  (f0Byte_fields kind type _).2.2.1

@[simp] theorem lenOf_f0Byte (kind : FrameKind) (type : FrameType) (n : Nat) : lenOf (f0Byte kind type n) = n % 16 := by
  have := (f0Byte_fields kind type (BitVec.ofNat 4 n)).2.2.2
  simpa [f0Byte] using this

@[simp] theorem length_idBytes (id : BitVec 32) : (idBytes id).length = 4 := rfl

/-- The identifier read back from its four bytes. -/
theorem idOf_idBytes (id : BitVec 32) :
    idOf (id.extractLsb' 24 8) (id.extractLsb' 16 8) (id.extractLsb' 8 8) (id.extractLsb' 0 8) = id := by
  apply BitVec.eq_of_getLsbD_eq
  intro i hi
  simp only [idOf, BitVec.getLsbD_append, BitVec.getLsbD_extractLsb']
  by_cases h0 : i < 8
  · simp [h0]
  · by_cases h1 : i - 8 < 8
    · have : 8 + (i - 8) = i := by omega
      simp [h0, h1, this]
    · by_cases h2 : i - 8 - 8 < 8
      · have : 16 + (i - 8 - 8) = i := by omega
        simp [h0, h1, h2, this]
      · have : 24 + (i - 8 - 8 - 8) = i := by omega
        have h3 : i - 8 - 8 - 8 < 8 := by omega
        simp [h0, h1, h2, h3, this]

/-- The bitrate read back from its two bytes. -/
theorem rateOf_bytes (rate : BitVec 16) : rateOf (rate.extractLsb' 8 8) (rate.extractLsb' 0 8) = rate := by
  apply BitVec.eq_of_getLsbD_eq
  intro i hi
  simp only [rateOf, BitVec.getLsbD_append, BitVec.getLsbD_extractLsb']
  by_cases h0 : i < 8
  · simp [h0]
  · have : 8 + (i - 8) = i := by omega
    have h1 : i - 8 < 8 := by omega
    simp [h0, h1, this]

theorem length_frameBytes (opc : BitVec 4) (kind : FrameKind) (type : FrameType) (buf : BitVec 2) (id : BitVec 32)
    (data : List Byte) : (frameBytes opc kind type buf id data).length = 6 + data.length := by
  simp [frameBytes]; omega

/-- A frame command of OPC 1 or 3 passes the structural check when LEN fits its field. -/
theorem structuralCheck_frameBytes {opc : BitVec 4} (hopc : opc = 1 ∨ opc = 3) (kind : FrameKind) (type : FrameType)
    (buf : BitVec 2) (id : BitVec 32) {data : List Byte} (h : lenFits data = true) :
    structuralCheck (frameBytes opc kind type buf id data) = none := by
  have hlen : data.length ≤ 15 := by simpa [lenFits] using h
  have hmod : data.length % 16 = data.length := by omega
  obtain rfl | rfl := hopc <;>
    simp [structuralCheck, frameBytes, opcodeDefined, lengthOk, reservedSet, hmod] <;> omega

/-- The check lets every encoded well-formed command through (R87). -/
theorem structuralCheck_encode {i : Instr} (hwf : i.wellFormed = true) (hport : i.port = .command) :
    structuralCheck (encode i) = none := by
  cases i with
  | encodeStdData buf id data => exact structuralCheck_frameBytes (.inl rfl) _ _ _ _ hwf
  | encodeExtData buf id data => exact structuralCheck_frameBytes (.inl rfl) _ _ _ _ hwf
  | encodeStdRtr buf id data => exact structuralCheck_frameBytes (.inl rfl) _ _ _ _ hwf
  | encodeExtRtr buf id data => exact structuralCheck_frameBytes (.inl rfl) _ _ _ _ hwf
  | sendStdData buf id data => exact structuralCheck_frameBytes (.inr rfl) _ _ _ _ hwf
  | sendExtData buf id data => exact structuralCheck_frameBytes (.inr rfl) _ _ _ _ hwf
  | sendStdRtr buf id data => exact structuralCheck_frameBytes (.inr rfl) _ _ _ _ hwf
  | sendExtRtr buf id data => exact structuralCheck_frameBytes (.inr rfl) _ _ _ _ hwf
  | trigger buf => revert buf; decide
  | decode buf => revert buf; decide
  | timing osc rate => simp [encode, structuralCheck, opcodeDefined, lengthOk, reservedSet]
  | wrctrl v =>
    have hv : v.extractLsb' 1 7 = 0 := by revert hwf; revert v; decide
    simp [encode, structuralCheck, opcodeDefined, lengthOk, reservedSet, hv]
  | spiRead => simp [Instr.port, Instr.exchange?] at hport
  | spiWrite => simp [Instr.port, Instr.exchange?] at hport
  | spiBitModify => simp [Instr.port, Instr.exchange?] at hport
  | spiReset => simp [Instr.port, Instr.exchange?] at hport
  | spiReadStatus => simp [Instr.port, Instr.exchange?] at hport
  | spiRxStatus => simp [Instr.port, Instr.exchange?] at hport
  | spiReadRxb => simp [Instr.port, Instr.exchange?] at hport
  | spiLoadTxb => simp [Instr.port, Instr.exchange?] at hport
  | spiRts => simp [Instr.port, Instr.exchange?] at hport

/-- A command string is never empty. -/
theorem encode_ne_nil (i : Instr) : encode i ≠ [] := by
  cases i <;> simp [encode, frameBytes, encodeExchange]

end Sys2Proof
end

