-- ==== Sys2Proof/Laws/Memory.lean ====
section
/-!
SUPPORT. Memory: read after write, and the canonical form kept.
-/

namespace Sys2Proof.Machine

theorem Memory.above_mono {lo hi : Nat} {m : Memory} (h : Memory.above hi m = true) (hle : lo ≤ hi) :
    Memory.above lo m = true := by
  simp only [Memory.above, List.all_eq_true, decide_eq_true_eq] at *
  exact fun c hc => Nat.lt_of_le_of_lt hle (h c hc)

theorem Memory.read_below {lo a : Nat} {m : Memory} (h : Memory.above lo m = true) (hle : a ≤ lo) :
    Memory.read m a = Memory.unlisted := by
  induction m with
  | nil => rfl
  | cons c rest ih =>
    obtain ⟨k, v⟩ := c
    simp only [Memory.above, List.all_cons, Bool.and_eq_true, decide_eq_true_eq] at h
    have hk : k ≠ a := by omega
    simp only [Memory.read, hk, if_false]
    exact ih h.2

/-- A write leaves every other address as it was, whatever the list. -/
theorem Memory.read_write_other {m : Memory} {a b : Nat} {v : Byte} (h : b ≠ a) :
    Memory.read (Memory.write m a v) b = Memory.read m b := by
  induction m with
  | nil =>
    simp only [Memory.write]
    split
    · rfl
    · simp [Memory.read, Ne.symm h]
  | cons c rest ih =>
    obtain ⟨k, w⟩ := c
    simp only [Memory.write]
    split
    · split
      · rfl
      · simp [Memory.read, Ne.symm h]
    · split
      · rename_i hk
        subst hk
        split <;> simp [Memory.read, Ne.symm h]
      · simp [Memory.read, ih]

/-- A read after a write to the same address gives the byte written. -/
theorem Memory.read_write_same {m : Memory} (hm : Memory.wf m = true) (a : Nat) (v : Byte) :
    Memory.read (Memory.write m a v) a = v := by
  induction m with
  | nil =>
    simp only [Memory.write]
    split
    · rename_i hv; simp [Memory.read, hv]
    · simp [Memory.read]
  | cons c rest ih =>
    obtain ⟨k, w⟩ := c
    simp only [Memory.wf, Bool.and_eq_true] at hm
    obtain ⟨⟨-, habove⟩, hrest⟩ := hm
    simp only [Memory.write]
    split
    · rename_i hlt
      split
      · rename_i hv
        have hk : k ≠ a := by omega
        simp only [Memory.read, hk, if_false, hv]
        exact Memory.read_below (Memory.above_mono habove (Nat.le_of_lt hlt)) (Nat.le_refl a)
      · simp [Memory.read]
    · split
      · rename_i hk
        subst hk
        split
        · rename_i hv
          rw [hv]
          exact Memory.read_below habove (Nat.le_refl a)
        · simp [Memory.read]
      · rename_i hk
        have : k ≠ a := fun e => hk e.symm
        simp only [Memory.read, this, if_false]
        exact ih hrest

theorem Memory.write_above {lo : Nat} {m : Memory} {a : Nat} {v : Byte} (h : Memory.above lo m = true) (hlo : lo < a) :
    Memory.above lo (Memory.write m a v) = true := by
  induction m with
  | nil =>
    simp only [Memory.write]
    split
    · rfl
    · simp [Memory.above, hlo]
  | cons c rest ih =>
    obtain ⟨k, w⟩ := c
    have hc := h
    simp only [Memory.above, List.all_cons, Bool.and_eq_true, decide_eq_true_eq] at hc
    simp only [Memory.write]
    split
    · split
      · exact h
      · simp only [Memory.above, List.all_cons, Bool.and_eq_true, decide_eq_true_eq]
        exact ⟨hlo, hc⟩
    · split
      · split
        · exact hc.2
        · simp only [Memory.above, List.all_cons, Bool.and_eq_true, decide_eq_true_eq]
          exact ⟨hlo, hc.2⟩
      · have := ih hc.2
        simp only [Memory.above, List.all_cons, Bool.and_eq_true, decide_eq_true_eq]
        exact ⟨hc.1, this⟩

/-- A write keeps the canonical form. -/
theorem Memory.write_wf {m : Memory} (hm : Memory.wf m = true) (a : Nat) (v : Byte) :
    Memory.wf (Memory.write m a v) = true := by
  induction m with
  | nil =>
    simp only [Memory.write]
    split
    · rfl
    · rename_i hv; simp [Memory.wf, Memory.above, hv]
  | cons c rest ih =>
    obtain ⟨k, w⟩ := c
    have hc := hm
    simp only [Memory.wf, Bool.and_eq_true, decide_eq_true_eq] at hc
    obtain ⟨⟨hw, habove⟩, hrest⟩ := hc
    simp only [Memory.write]
    split
    · rename_i hlt
      split
      · exact hm
      · rename_i hv
        have ha : Memory.above a ((k, w) :: rest) = true := by
          have := Memory.above_mono habove (Nat.le_of_lt hlt)
          simp only [Memory.above, List.all_cons, Bool.and_eq_true, decide_eq_true_eq] at this ⊢
          exact ⟨hlt, this⟩
        have hv' : v ≠ Memory.unlisted := hv
        simp only [Memory.wf, ha, hv', habove, hrest, hw, ne_eq, not_false_eq_true, decide_true, Bool.and_self]
    · split
      · rename_i hk
        subst hk
        split
        · exact hrest
        · rename_i hv
          have hv' : v ≠ Memory.unlisted := hv
          simp only [Memory.wf, habove, hrest, hv', ne_eq, not_false_eq_true, decide_true, Bool.and_self]
      · rename_i hlt hk
        have hka : k < a := by omega
        simp only [Memory.wf, Memory.write_above habove hka, ih hrest, hw, ne_eq, not_false_eq_true, decide_true,
          Bool.and_self]

/-- The keys of a memory after a write are its own and the one written. -/
theorem Memory.all_write {m : Memory} {a : Nat} {v : Byte} {p : Host.Cell → Bool} (h : m.all p = true)
    (ha : p (a, v) = true) : (Memory.write m a v).all p = true := by
  induction m with
  | nil =>
    simp only [Memory.write]
    split
    · rfl
    · simp [ha]
  | cons c rest ih =>
    obtain ⟨k, w⟩ := c
    have hc := h
    simp only [List.all_cons, Bool.and_eq_true] at hc
    simp only [Memory.write]
    split
    · split
      · exact h
      · simp only [List.all_cons, Bool.and_eq_true]; exact ⟨ha, hc⟩
    · split
      · split
        · exact hc.2
        · simp only [List.all_cons, Bool.and_eq_true]; exact ⟨ha, hc.2⟩
      · simp only [List.all_cons, Bool.and_eq_true]; exact ⟨hc.1, ih hc.2⟩

end Sys2Proof.Machine
end

