-- ==== Sys2Proof/Laws/Peer.lean ====
section
/-!
SUPPORT. The register file: what each write leaves at every register, and that each keeps the canonical form and the
register keys.
-/

namespace Sys2Proof.Machine

/-! ## Homes -/

theorem home_home (c : Chip) (a : Nat) : home c (home c a) = home c a := by
  unfold home
  split
  · simp
  · split
    · rename_i h1 h2
      have h3 : ¬ c.regCanctrl % c.mirrorStep = c.regCanstat % c.mirrorStep := h2 ▸ h1
      simp [h3]
    · simp [*]

theorem home_le (c : Chip) (a : Nat) : home c a ≤ a := by
  unfold home
  split
  · rename_i h
    exact h ▸ Nat.mod_le a _
  · split
    · rename_i h
      exact h ▸ Nat.mod_le a _
    · exact Nat.le_refl a

theorem home_lt {c : Chip} {a n : Nat} (h : a < n) : home c a < n := Nat.lt_of_le_of_lt (home_le c a) h

/-- A buffer register of the MCP2515 is its own home. -/
theorem home_buffer {a : Nat} (h : a % 16 ≤ 13) : home .mcp2515 a = a := by
  have h1 : ¬ a % 16 = 14 := by omega
  have h2 : ¬ a % 16 = 15 := by omega
  simp [home, Chip.mcp2515, h1, h2]

theorem home_txb {n off : Nat} (hn : n < nTxb) (h : off ≤ 13) :
    home .mcp2515 (txbBase .mcp2515 n + off) = txbBase .mcp2515 n + off := by
  obtain rfl | rfl | rfl : n = 0 ∨ n = 1 ∨ n = 2 := by unfold nTxb at hn; omega
  all_goals exact home_buffer (by simp only [txbBase, Chip.mcp2515]; omega)

theorem home_rxb {n off : Nat} (hn : n < nRxb) (h : off ≤ 13) :
    home .mcp2515 (rxbBase .mcp2515 n + off) = rxbBase .mcp2515 n + off := by
  obtain rfl | rfl : n = 0 ∨ n = 1 := by unfold nRxb at hn; omega
  all_goals exact home_buffer (by simp only [rxbBase, Chip.mcp2515]; omega)

theorem home_canintf : home .mcp2515 Chip.mcp2515.regCanintf = Chip.mcp2515.regCanintf := rfl

theorem offsetIn_mem {c : Chip} {base off : Nat} (h : off ≤ offD7 c) : offsetIn c base (base + off) = some off := by
  unfold offsetIn
  rw [if_pos ⟨by omega, by omega⟩, Nat.add_sub_cancel_left]

theorem offsetIn_not_mem {c : Chip} {base a : Nat} (h : a < base ∨ base + offD7 c < a) : offsetIn c base a = none := by
  unfold offsetIn
  rw [if_neg (by omega)]

theorem txbOffset_txb {n off : Nat} (hn : n < nTxb) (h : off ≤ 13) :
    txbOffset .mcp2515 (txbBase .mcp2515 n + off) = some off := by
  obtain rfl | rfl | rfl : n = 0 ∨ n = 1 ∨ n = 2 := by unfold nTxb at hn; omega
  · simp only [txbOffset, txbBase]
    rw [offsetIn_mem h, Option.some_or]
  · simp only [txbOffset, txbBase]
    rw [offsetIn_not_mem (base := Chip.mcp2515.txb0) (.inr (by simp [offD7, Chip.mcp2515]; omega)), offsetIn_mem h,
      Option.none_or, Option.some_or]
  · simp only [txbOffset, txbBase]
    rw [offsetIn_not_mem (base := Chip.mcp2515.txb0) (.inr (by simp [offD7, Chip.mcp2515]; omega)),
      offsetIn_not_mem (base := Chip.mcp2515.txb1) (.inr (by simp [offD7, Chip.mcp2515]; omega)), offsetIn_mem h,
      Option.none_or, Option.none_or]

theorem txbOffset_rxb {n off : Nat} (hn : n < nRxb) : txbOffset .mcp2515 (rxbBase .mcp2515 n + off) = none := by
  have h : ∀ base, base + 13 < rxbBase .mcp2515 n + off → offsetIn .mcp2515 base (rxbBase .mcp2515 n + off) = none :=
    fun base hb => offsetIn_not_mem (.inr hb)
  have hr : 0x60 ≤ rxbBase .mcp2515 n := by
    obtain rfl | rfl : n = 0 ∨ n = 1 := by unfold nRxb at hn; omega
    all_goals decide
  simp only [txbOffset]
  rw [h _ (by simp only [Chip.mcp2515] at *; omega), h _ (by simp only [Chip.mcp2515] at *; omega),
    h _ (by simp only [Chip.mcp2515] at *; omega)]
  rfl

theorem rxbOffset_rxb {n off : Nat} (hn : n < nRxb) (h : off ≤ 13) :
    rxbOffset .mcp2515 (rxbBase .mcp2515 n + off) = some off := by
  obtain rfl | rfl : n = 0 ∨ n = 1 := by unfold nRxb at hn; omega
  · simp only [rxbOffset, rxbBase]
    rw [offsetIn_mem h, Option.some_or]
  · simp only [rxbOffset, rxbBase]
    rw [offsetIn_not_mem (base := Chip.mcp2515.rxb0) (.inr (by simp [offD7, Chip.mcp2515]; omega)), offsetIn_mem h,
      Option.none_or]

/-- No exchange of another master changes a bit of a received frame or of RXRTR (R158, log 5). -/
theorem writableMask_rxb {n off : Nat} (hn : n < nRxb) (h : off ≤ 13) (h0 : off ≠ 0) (config : Bool) :
    writableMask .mcp2515 config (rxbBase .mcp2515 n + off) = 0 := by
  simp only [writableMask, txbOffset_rxb hn, rxbOffset_rxb hn h, rxbWritable]
  exact if_neg h0

/-! ## What a register reads as depends on its home c alone -/

theorem peerByte_home (c : Chip) (m : Memory) (a : Nat) : peerByte c m (home c a) = peerByte c m a := by
  simp only [peerByte, home_home]

theorem peerByte_congr {c : Chip} {m m' : Memory} {a : Nat} (h : m'.read (home c a) = m.read (home c a)) :
    peerByte c m' a = peerByte c m a := by
  simp only [peerByte, h]

/-! ## The bits that R5 names, on every chip -/

/-- TXREQ, EXIDE and the remote-request bit are implemented, whatever their positions (R5, R29). -/
theorem txbMasks_hold_r5 (c : Chip) :
    c.txreqMask &&& txbCtrlMask c = c.txreqMask ∧ c.exideMask &&& txbSidlMask c = c.exideMask ∧
      c.dlcRtrMask &&& txbDlcMask c = c.dlcRtrMask := by
  refine ⟨?_, ?_, ?_⟩ <;> apply BitVec.eq_of_getLsbD_eq <;> intro i _ <;>
    simp only [txbCtrlMask, txbSidlMask, txbDlcMask, BitVec.getLsbD_and, BitVec.getLsbD_or]
  · cases c.txreqMask.getLsbD i <;> simp
  · cases c.exideMask.getLsbD i <;> simp
  · cases c.dlcRtrMask.getLsbD i <;> simp

/-- RXRTR of RXB0CTRL reads as it is kept, whatever its position (R5, R153). -/
theorem copyBukt_rxrtr (c : Chip) (raw : Byte) : copyBukt c raw &&& c.rxrtrMask = raw &&& c.rxrtrMask := by
  apply BitVec.eq_of_getLsbD_eq
  intro i hi
  simp only [copyBukt]
  split <;> simp only [BitVec.getLsbD_and, BitVec.getLsbD_or, BitVec.getLsbD_not] <;>
    cases c.rxrtrMask.getLsbD i <;> simp [hi]

/-- No exchange changes RXRTR, whatever its position (R158, log 5). -/
theorem rxbWritable_rxrtr (c : Chip) (h : Nat) : rxbWritable c h c.offCtrl &&& c.rxrtrMask = 0 := by
  apply BitVec.eq_of_getLsbD_eq
  intro i hi
  simp only [rxbWritable, if_pos, BitVec.getLsbD_and, BitVec.getLsbD_not]
  cases c.rxrtrMask.getLsbD i <;> simp [hi]

/-! ## mergeBits -/

theorem and_ones (x : Byte) : x &&& 0xFF = x := BitVec.and_allOnes

theorem ones_and (x : Byte) : 0xFF &&& x = x := BitVec.allOnes_and

@[simp] theorem mergeBits_zero (old new : Byte) : mergeBits 0 old new = old := by
  have h : old &&& ~~~(0 : Byte) = old := and_ones old
  have h' : new &&& (0 : Byte) = 0 := BitVec.and_zero
  simp only [mergeBits, h, h']
  exact BitVec.or_zero

@[simp] theorem mergeBits_ones (old new : Byte) : mergeBits 0xFF old new = new := by
  have h : old &&& ~~~(0xFF : Byte) = 0 := BitVec.and_zero
  simp only [mergeBits, h, and_ones]
  exact BitVec.zero_or

/-- A merge gives each bit from the side the mask selects. -/
theorem getLsbD_mergeBits (mask old new : Byte) (i : Nat) :
    (mergeBits mask old new).getLsbD i = if mask.getLsbD i then new.getLsbD i else old.getLsbD i := by
  simp only [mergeBits, BitVec.getLsbD_or, BitVec.getLsbD_and, BitVec.getLsbD_not]
  by_cases hi : i < 8
  · cases hm : mask.getLsbD i <;> simp [hi]
  · have : ∀ x : Byte, x.getLsbD i = false := fun x => BitVec.getLsbD_of_ge x i (by omega)
    simp [this]

/-- Merging twice under one mask keeps the last value. -/
theorem mergeBits_mergeBits (mask old v w : Byte) :
    mergeBits mask (mergeBits mask old v) w = mergeBits mask old w := by
  apply BitVec.eq_of_getLsbD_eq
  intro i _
  simp only [getLsbD_mergeBits]
  split <;> rfl

variable {c : Chip}

/-! ## One register stored -/

theorem peerStore_wf {m : Memory} (hm : m.wf = true) (config : Bool) (a : Nat) (mask v : Byte) :
    (peerStore c config m a mask v).wf = true := Memory.write_wf hm _ _

theorem peerStore_keys {m : Memory} (hm : peerKeysOk c m = true) (config : Bool) {a : Nat} (ha : a < c.size) (mask v : Byte) :
    peerKeysOk c (peerStore c config m a mask v) = true :=
  Memory.all_write hm (by simp [home_lt ha, home_home])

theorem read_peerStore_same {m : Memory} (hm : m.wf = true) (config : Bool) (a : Nat) (mask v : Byte) :
    (peerStore c config m a mask v).read (home c a) =
      mergeBits (mask &&& writableMask c config (home c a)) (m.read (home c a)) v :=
  Memory.read_write_same hm _ _

theorem read_peerStore_other {m : Memory} (config : Bool) {a b : Nat} (mask v : Byte) (h : b ≠ home c a) :
    (peerStore c config m a mask v).read b = m.read b :=
  Memory.read_write_other h

theorem peerByte_peerStore_other {m : Memory} (config : Bool) {a b : Nat} (mask v : Byte) (h : home c b ≠ home c a) :
    peerByte c (peerStore c config m a mask v) b = peerByte c m b :=
  peerByte_congr (read_peerStore_other config mask v h)

/-! ## A burst stored -/

theorem writeBurst_wf {m : Memory} (hm : m.wf = true) (config : Bool) (a : Nat) (ds : List Byte) :
    (writeBurst c config m a ds).wf = true := by
  induction ds generalizing m a with
  | nil => exact hm
  | cons d ds ih => exact ih (peerStore_wf hm config a 0xFF d) (a + 1)

theorem writeBurst_keys {m : Memory} (hm : peerKeysOk c m = true) (config : Bool) {a : Nat} {ds : List Byte}
    (ha : a + ds.length ≤ c.size) : peerKeysOk c (writeBurst c config m a ds) = true := by
  induction ds generalizing m a with
  | nil => exact hm
  | cons d ds ih =>
    simp only [List.length_cons] at ha
    exact ih (peerStore_keys hm config (by omega) 0xFF d) (by omega)

/-- A register that the burst does not reach keeps its byte. -/
theorem read_writeBurst_other {m : Memory} (config : Bool) {a b : Nat} {ds : List Byte}
    (h : ∀ i < ds.length, b ≠ home c (a + i)) : (writeBurst c config m a ds).read b = m.read b := by
  induction ds generalizing m a with
  | nil => rfl
  | cons d ds ih =>
    simp only [writeBurst]
    rw [ih]
    · exact read_peerStore_other config _ _ (by simpa using h 0 (by simp))
    · intro i hi
      have := h (i + 1) (by simp [hi])
      rwa [show a + (i + 1) = a + 1 + i by omega] at this

/-- The last byte of the burst that reaches a register is the one it takes, in its writable bits. -/
theorem read_writeBurst_at {m : Memory} (hm : m.wf = true) (config : Bool) {a i : Nat} {ds : List Byte} (hi : i < ds.length)
    (hlast : ∀ j, i < j → j < ds.length → home c (a + j) ≠ home c (a + i)) :
    (writeBurst c config m a ds).read (home c (a + i)) =
      mergeBits (writableMask c config (home c (a + i))) (m.read (home c (a + i))) ds[i] := by
  induction ds generalizing m a i with
  | nil => simp at hi
  | cons d ds ih =>
    simp only [writeBurst]
    cases i with
    | zero =>
      rw [read_writeBurst_other]
      · simp only [Nat.add_zero, List.getElem_cons_zero]
        rw [read_peerStore_same hm, ones_and]
      · intro j hj
        have := hlast (j + 1) (by omega) (by simpa using hj)
        rw [show a + 1 + j = a + (j + 1) by omega]
        exact fun e => this e.symm
    | succ i =>
      have hi' : i < ds.length := by simpa using hi
      have h := ih (peerStore_wf (c := c) hm config a 0xFF d) (a := a + 1) hi' (by
        intro j hij hj
        have := hlast (j + 1) (by omega) (by simpa using hj)
        rwa [show a + (j + 1) = a + 1 + j by omega, show a + (i + 1) = a + 1 + i by omega] at this)
      rw [show a + (i + 1) = a + 1 + i by omega, h]
      simp only [List.getElem_cons_succ]
      by_cases he : home c (a + 1 + i) = home c a
      · rw [he, read_peerStore_same hm, ones_and, mergeBits_mergeBits]
      · rw [read_peerStore_other config _ _ he]

/-! ## A burst read -/

theorem length_readBurst (c : Chip) (m : Memory) (a n : Nat) : (readBurst c m a n).length = n := by
  induction n generalizing a with
  | zero => rfl
  | succ n ih => simp [readBurst, ih]

theorem getElem_readBurst (c : Chip) (m : Memory) (a n i : Nat) (hi : i < (readBurst c m a n).length) :
    (readBurst c m a n)[i] = peerByte c m (a + i) := by
  induction n generalizing a i with
  | zero => simp [readBurst] at hi
  | succ n ih =>
    cases i with
    | zero => simp [readBurst]
    | succ i =>
      simp only [readBurst, List.getElem_cons_succ]
      rw [ih, show a + 1 + i = a + (i + 1) by omega]

/-! ## The chip's changes -/

theorem chipStore_wf {m : Memory} (hm : m.wf = true) (a : Nat) (v : Byte) : (chipStore c m a v).wf = true := by
  unfold chipStore
  split
  · exact hm
  · split <;> exact Memory.write_wf hm _ _

theorem chipStep_wf {m : Memory} (hm : m.wf = true) (changes : List Host.Cell) : (chipStep c m changes).wf = true := by
  induction changes generalizing m with
  | nil => exact hm
  | cons e es ih => exact ih (chipStore_wf hm e.1 e.2)

theorem chipStore_keys {m : Memory} (hm : peerKeysOk c m = true) (a : Nat) (v : Byte) :
    peerKeysOk c (chipStore c m a v) = true := by
  unfold chipStore
  split
  · exact hm
  · rename_i ha
    have ha' : a < c.size := by omega
    split
    · rename_i hc
      rw [← hc]
      exact Memory.all_write hm (by simp [home_lt ha', home_home])
    · exact Memory.all_write hm (by simp [home_lt ha', home_home])

theorem chipStep_keys {m : Memory} (hm : peerKeysOk c m = true) (changes : List Host.Cell) :
    peerKeysOk c (chipStep c m changes) = true := by
  induction changes generalizing m with
  | nil => exact hm
  | cons e es ih => exact ih (chipStore_keys hm e.1 e.2)

/-! ## The chip's reset -/

theorem resetRegisters_wf (values : List Host.Cell) {m : Memory} (hm : m.wf = true) (hs : List Nat) :
    (resetRegisters values m hs).wf = true := by
  induction hs generalizing m with
  | nil => exact hm
  | cons h hs ih => exact ih (Memory.write_wf hm _ _)

theorem peerReset_wf (q : Params) : (peerReset q).wf = true := resetRegisters_wf _ rfl _

theorem resetRegisters_keys {c : Chip} (values : List Host.Cell) {m : Memory} (hm : peerKeysOk c m = true) {hs : List Nat}
    (hh : ∀ h ∈ hs, h < c.size ∧ home c h = h) : peerKeysOk c (resetRegisters values m hs) = true := by
  induction hs generalizing m with
  | nil => exact hm
  | cons h hs ih =>
    have h0 := hh h (by simp)
    exact ih (Memory.all_write hm (by simp [h0.1, h0.2])) fun x hx => hh x (by simp [hx])

theorem mem_registers {c : Chip} {a : Nat} : a ∈ registers c ↔ a < c.size ∧ home c a = a := by
  simp [registers]

theorem peerReset_keys (q : Params) : peerKeysOk q.chip (peerReset q) = true :=
  resetRegisters_keys _ rfl fun _ h => mem_registers.1 h

theorem read_resetRegisters_other (values : List Host.Cell) {m : Memory} {a : Nat} {hs : List Nat} (h : a ∉ hs) :
    (resetRegisters values m hs).read a = m.read a := by
  induction hs generalizing m with
  | nil => rfl
  | cons x hs ih =>
    simp only [List.mem_cons, not_or] at h
    simp only [resetRegisters]
    rw [ih h.2, Memory.read_write_other h.1]

/-- Every register listed is at its reset value afterwards. -/
theorem read_resetRegisters (values : List Host.Cell) {m : Memory} (hm : m.wf = true) {a : Nat} {hs : List Nat}
    (h : a ∈ hs) : (resetRegisters values m hs).read a = Memory.read values a := by
  induction hs generalizing m with
  | nil => simp at h
  | cons x hs ih =>
    simp only [resetRegisters]
    by_cases hx : a ∈ hs
    · exact ih (Memory.write_wf hm _ _) hx
    · rw [read_resetRegisters_other _ hx]
      obtain rfl : a = x := by simpa [hx] using h
      exact Memory.read_write_same hm _ _

/-- Every implemented register is at the instance's reset value after the RESET exchange (R193, R243). -/
theorem read_peerReset {q : Params} {a : Nat} (h : a < q.chip.size) :
    (peerReset q).read (home q.chip a) = Memory.read q.chipReset (home q.chip a) :=
  read_resetRegisters _ rfl (mem_registers.2 ⟨home_lt h, home_home _ a⟩)

end Sys2Proof.Machine
end

