-- ==== Sys2Proof/Laws/State.lean ====
section
/-!
SUPPORT. One lemma per field for each operation that updates State, so that no proof unfolds a record update.
-/

namespace Sys2Proof.Machine

variable (s : State)

@[simp] theorem State.accept_params (op : Op) (bytes : List Byte) : (State.accept op bytes s).params = s.params := rfl
@[simp] theorem State.accept_ctrl (op : Op) (bytes : List Byte) : (State.accept op bytes s).ctrl = s.ctrl := rfl
@[simp] theorem State.accept_seq (op : Op) (bytes : List Byte) : (State.accept op bytes s).seq = .busy op 0 := rfl
@[simp] theorem State.accept_latch (op : Op) (bytes : List Byte) : (State.accept op bytes s).latch = some bytes := rfl
@[simp] theorem State.accept_got (op : Op) (bytes : List Byte) : (State.accept op bytes s).got = [] := rfl
@[simp] theorem State.accept_resp (op : Op) (bytes : List Byte) : (State.accept op bytes s).resp = s.resp := rfl
@[simp] theorem State.accept_peer (op : Op) (bytes : List Byte) : (State.accept op bytes s).peer = s.peer := rfl
@[simp] theorem State.accept_bus (op : Op) (bytes : List Byte) : (State.accept op bytes s).bus = s.bus := rfl
@[simp] theorem State.accept_port (op : Op) (bytes : List Byte) : (State.accept op bytes s).port = s.port := rfl
@[simp] theorem State.accept_agenda (op : Op) (bytes : List Byte) : (State.accept op bytes s).agenda = s.agenda := rfl
@[simp] theorem State.accept_trace (op : Op) (bytes : List Byte) : (State.accept op bytes s).trace = s.trace := rfl
@[simp] theorem State.accept_draws (op : Op) (bytes : List Byte) : (State.accept op bytes s).draws = s.draws := rfl

@[simp] theorem State.complete_params (bytes : List Byte) : (State.complete bytes s).params = s.params := rfl
@[simp] theorem State.complete_ctrl (bytes : List Byte) : (State.complete bytes s).ctrl = s.ctrl := rfl
@[simp] theorem State.complete_seq (bytes : List Byte) : (State.complete bytes s).seq = .idle := rfl
@[simp] theorem State.complete_latch (bytes : List Byte) : (State.complete bytes s).latch = none := rfl
@[simp] theorem State.complete_got (bytes : List Byte) : (State.complete bytes s).got = [] := rfl
@[simp] theorem State.complete_resp (bytes : List Byte) :
    (State.complete bytes s).resp = { valid := true, bytes := some bytes } := rfl
@[simp] theorem State.complete_peer (bytes : List Byte) : (State.complete bytes s).peer = s.peer := rfl
@[simp] theorem State.complete_bus (bytes : List Byte) : (State.complete bytes s).bus = s.bus := rfl
@[simp] theorem State.complete_port (bytes : List Byte) : (State.complete bytes s).port = s.port := rfl
@[simp] theorem State.complete_agenda (bytes : List Byte) : (State.complete bytes s).agenda = s.agenda := rfl
@[simp] theorem State.complete_trace (bytes : List Byte) : (State.complete bytes s).trace = s.trace := rfl
@[simp] theorem State.complete_draws (bytes : List Byte) : (State.complete bytes s).draws = s.draws := rfl

@[simp] theorem State.raise_params (e : Error) : (State.raise e s).params = s.params := rfl
@[simp] theorem State.raise_ctrl (e : Error) : (State.raise e s).ctrl = s.ctrl := rfl
@[simp] theorem State.raise_seq (e : Error) : (State.raise e s).seq = .idle := rfl
@[simp] theorem State.raise_latch (e : Error) : (State.raise e s).latch = none := rfl
@[simp] theorem State.raise_got (e : Error) : (State.raise e s).got = [] := rfl
@[simp] theorem State.raise_resp (e : Error) :
    (State.raise e s).resp = { valid := true, bytes := some [e.status] } := rfl
@[simp] theorem State.raise_peer (e : Error) : (State.raise e s).peer = s.peer := rfl
@[simp] theorem State.raise_bus (e : Error) : (State.raise e s).bus = s.bus := rfl
@[simp] theorem State.raise_port (e : Error) : (State.raise e s).port = s.port := rfl
@[simp] theorem State.raise_agenda (e : Error) : (State.raise e s).agenda = s.agenda := rfl
@[simp] theorem State.raise_trace (e : Error) : (State.raise e s).trace = s.trace := rfl
@[simp] theorem State.raise_draws (e : Error) : (State.raise e s).draws = s.draws := rfl

@[simp] theorem State.respond_params (bytes : List Byte) : (State.respond bytes s).params = s.params := rfl
@[simp] theorem State.respond_ctrl (bytes : List Byte) : (State.respond bytes s).ctrl = s.ctrl := rfl
@[simp] theorem State.respond_seq (bytes : List Byte) : (State.respond bytes s).seq = .idle := rfl
@[simp] theorem State.respond_latch (bytes : List Byte) : (State.respond bytes s).latch = none := rfl
@[simp] theorem State.respond_got (bytes : List Byte) : (State.respond bytes s).got = [] := rfl
@[simp] theorem State.respond_resp (bytes : List Byte) :
    (State.respond bytes s).resp = { valid := true, bytes := some (statusOk :: bytes) } := rfl
@[simp] theorem State.respond_peer (bytes : List Byte) : (State.respond bytes s).peer = s.peer := rfl
@[simp] theorem State.respond_bus (bytes : List Byte) : (State.respond bytes s).bus = s.bus := rfl
@[simp] theorem State.respond_port (bytes : List Byte) : (State.respond bytes s).port = s.port := rfl
@[simp] theorem State.respond_agenda (bytes : List Byte) : (State.respond bytes s).agenda = s.agenda := rfl
@[simp] theorem State.respond_trace (bytes : List Byte) : (State.respond bytes s).trace = s.trace := rfl
@[simp] theorem State.respond_draws (bytes : List Byte) : (State.respond bytes s).draws = s.draws := rfl

@[simp] theorem State.takeResponse_params : (State.takeResponse s).params = s.params := rfl
@[simp] theorem State.takeResponse_ctrl : (State.takeResponse s).ctrl = s.ctrl := rfl
@[simp] theorem State.takeResponse_seq : (State.takeResponse s).seq = s.seq := rfl
@[simp] theorem State.takeResponse_latch : (State.takeResponse s).latch = s.latch := rfl
@[simp] theorem State.takeResponse_got : (State.takeResponse s).got = s.got := rfl
@[simp] theorem State.takeResponse_resp :
    (State.takeResponse s).resp = { valid := false, bytes := s.resp.bytes } := rfl
@[simp] theorem State.takeResponse_peer : (State.takeResponse s).peer = s.peer := rfl
@[simp] theorem State.takeResponse_bus : (State.takeResponse s).bus = s.bus := rfl
@[simp] theorem State.takeResponse_port : (State.takeResponse s).port = s.port := rfl
@[simp] theorem State.takeResponse_agenda : (State.takeResponse s).agenda = s.agenda := rfl
@[simp] theorem State.takeResponse_trace : (State.takeResponse s).trace = s.trace := rfl
@[simp] theorem State.takeResponse_draws : (State.takeResponse s).draws = s.draws := rfl

@[simp] theorem State.blockReset_params : (State.blockReset s).params = s.params := rfl
@[simp] theorem State.blockReset_ctrl : (State.blockReset s).ctrl = 0x00 := rfl
@[simp] theorem State.blockReset_seq : (State.blockReset s).seq = .idle := rfl
@[simp] theorem State.blockReset_latch : (State.blockReset s).latch = none := rfl
@[simp] theorem State.blockReset_got : (State.blockReset s).got = [] := rfl
@[simp] theorem State.blockReset_resp : (State.blockReset s).resp = { valid := false, bytes := none } := rfl
@[simp] theorem State.blockReset_peer : (State.blockReset s).peer = s.peer := rfl
@[simp] theorem State.blockReset_bus : (State.blockReset s).bus = if s.bus = .held .block then .free else s.bus := rfl
@[simp] theorem State.blockReset_port : (State.blockReset s).port = s.port := rfl
@[simp] theorem State.blockReset_agenda : (State.blockReset s).agenda = s.agenda := rfl
@[simp] theorem State.blockReset_trace : (State.blockReset s).trace = s.trace := rfl
@[simp] theorem State.blockReset_draws : (State.blockReset s).draws = s.draws := rfl

@[simp] theorem State.holdCommand_params (bytes : List Byte) : (State.holdCommand bytes s).params = s.params := rfl
@[simp] theorem State.holdCommand_ctrl (bytes : List Byte) : (State.holdCommand bytes s).ctrl = s.ctrl := rfl
@[simp] theorem State.holdCommand_seq (bytes : List Byte) : (State.holdCommand bytes s).seq = s.seq := rfl
@[simp] theorem State.holdCommand_latch (bytes : List Byte) : (State.holdCommand bytes s).latch = s.latch := rfl
@[simp] theorem State.holdCommand_got (bytes : List Byte) : (State.holdCommand bytes s).got = s.got := rfl
@[simp] theorem State.holdCommand_resp (bytes : List Byte) : (State.holdCommand bytes s).resp = s.resp := rfl
@[simp] theorem State.holdCommand_peer (bytes : List Byte) : (State.holdCommand bytes s).peer = s.peer := rfl
@[simp] theorem State.holdCommand_bus (bytes : List Byte) : (State.holdCommand bytes s).bus = s.bus := rfl
@[simp] theorem State.holdCommand_port (bytes : List Byte) : (State.holdCommand bytes s).port = bytes :: s.port := rfl
@[simp] theorem State.holdCommand_agenda (bytes : List Byte) : (State.holdCommand bytes s).agenda = s.agenda := rfl
@[simp] theorem State.holdCommand_trace (bytes : List Byte) : (State.holdCommand bytes s).trace = s.trace := rfl
@[simp] theorem State.holdCommand_draws (bytes : List Byte) : (State.holdCommand bytes s).draws = s.draws := rfl

@[simp] theorem State.advance_params (bytes : List Byte) : (State.advance bytes s).params = s.params := rfl
@[simp] theorem State.advance_ctrl (bytes : List Byte) : (State.advance bytes s).ctrl = s.ctrl := rfl
@[simp] theorem State.advance_latch (bytes : List Byte) : (State.advance bytes s).latch = s.latch := rfl
@[simp] theorem State.advance_got (bytes : List Byte) : (State.advance bytes s).got = s.got ++ bytes := rfl
@[simp] theorem State.advance_resp (bytes : List Byte) : (State.advance bytes s).resp = s.resp := rfl
@[simp] theorem State.advance_peer (bytes : List Byte) : (State.advance bytes s).peer = s.peer := rfl
@[simp] theorem State.advance_bus (bytes : List Byte) : (State.advance bytes s).bus = s.bus := rfl
@[simp] theorem State.advance_port (bytes : List Byte) : (State.advance bytes s).port = s.port := rfl
@[simp] theorem State.advance_agenda (bytes : List Byte) : (State.advance bytes s).agenda = s.agenda := rfl
@[simp] theorem State.advance_trace (bytes : List Byte) : (State.advance bytes s).trace = s.trace := rfl
@[simp] theorem State.advance_draws (bytes : List Byte) : (State.advance bytes s).draws = s.draws := rfl

@[simp] theorem State.afterExchange_params (who : Agent) (x : Exchange) (r : BusResult) :
    (State.afterExchange who x r s).params = s.params := rfl
@[simp] theorem State.afterExchange_ctrl (who : Agent) (x : Exchange) (r : BusResult) :
    (State.afterExchange who x r s).ctrl = s.ctrl := rfl
@[simp] theorem State.afterExchange_seq (who : Agent) (x : Exchange) (r : BusResult) :
    (State.afterExchange who x r s).seq = s.seq := rfl
@[simp] theorem State.afterExchange_latch (who : Agent) (x : Exchange) (r : BusResult) :
    (State.afterExchange who x r s).latch = s.latch := rfl
@[simp] theorem State.afterExchange_got (who : Agent) (x : Exchange) (r : BusResult) :
    (State.afterExchange who x r s).got = s.got := rfl
@[simp] theorem State.afterExchange_resp (who : Agent) (x : Exchange) (r : BusResult) :
    (State.afterExchange who x r s).resp = s.resp := rfl
@[simp] theorem State.afterExchange_peer (who : Agent) (x : Exchange) (r : BusResult) :
    (State.afterExchange who x r s).peer = r.peer := rfl
@[simp] theorem State.afterExchange_bus (who : Agent) (x : Exchange) (r : BusResult) :
    (State.afterExchange who x r s).bus = .free := rfl
@[simp] theorem State.afterExchange_port (who : Agent) (x : Exchange) (r : BusResult) :
    (State.afterExchange who x r s).port = s.port := rfl
@[simp] theorem State.afterExchange_agenda (who : Agent) (x : Exchange) (r : BusResult) :
    (State.afterExchange who x r s).agenda = s.agenda := rfl
@[simp] theorem State.afterExchange_trace (who : Agent) (x : Exchange) (r : BusResult) :
    (State.afterExchange who x r s).trace
      = s.trace ++ [{ who := who, mosi := encodeExchange s.params.chip x, miso := r.miso }] := rfl
@[simp] theorem State.afterExchange_draws (who : Agent) (x : Exchange) (r : BusResult) :
    (State.afterExchange who x r s).draws = r.draws := rfl

@[simp] theorem State.advance_seq_busy (bytes : List Byte) {op : Op} {k : Nat} (h : s.seq = .busy op k) :
    (State.advance bytes s).seq = .busy op (k + 1) := by
  simp [State.advance, h]

@[simp] theorem State.advance_seq_idle (bytes : List Byte) (h : s.seq = .idle) :
    (State.advance bytes s).seq = .idle := by
  simp [State.advance, h]

@[simp] theorem State.view_params : s.view.params = s.params := rfl
@[simp] theorem State.view_ctrl : s.view.ctrl = s.ctrl := rfl
@[simp] theorem State.view_step : s.view.step = s.seq.step := rfl
@[simp] theorem State.view_got : s.view.got = s.got := rfl
@[simp] theorem State.view_draws : s.view.draws = s.draws := rfl

end Sys2Proof.Machine
end

