-- ==== Sys2Proof/Laws/Ops.lean ====
section
/-!
SUPPORT. What the shared operations can do, each said once: an exchange's effect, an action, a turn, the run of a command,
and the one induction over the run that invariants rest on.
-/

namespace Sys2Proof.Machine

/-! ## The effect of an exchange -/

variable {c : Chip} {q : Params}

theorem requestTransmit_wf {m : Memory} (hm : m.wf = true) (n : Nat) : (requestTransmit c m n).wf = true :=
  peerStore_wf hm _ _ _ _

theorem clearRxFlag_wf {m : Memory} (hm : m.wf = true) (n : Nat) : (clearRxFlag c m n).wf = true :=
  peerStore_wf hm _ _ _ _

theorem requestSelected_wf {m : Memory} (hm : m.wf = true) (t : BitVec 3) : (requestSelected c m t).wf = true := by
  unfold requestSelected
  have h0 : (if t.getLsbD 0 then requestTransmit c m 0 else m).wf = true := by
    split
    · exact requestTransmit_wf hm 0
    · exact hm
  have h1 : (if t.getLsbD 1 then requestTransmit c (if t.getLsbD 0 then requestTransmit c m 0 else m) 1
      else (if t.getLsbD 0 then requestTransmit c m 0 else m)).wf = true := by
    split
    · exact requestTransmit_wf h0 1
    · exact h0
  dsimp only
  by_cases h2 : t.getLsbD 2 = true
  · simp only [h2, if_true]; exact requestTransmit_wf h1 2
  · simp only [h2, Bool.false_eq_true, if_false]; exact h1

theorem chipOk_txb (hc : chipOk c = true) (n : Nat) : txbBase c n + offD7 c < c.size ∧ c.offCtrl ≤ offD7 c := by
  simp only [chipOk, List.all_cons, List.all_nil, Bool.and_eq_true, decide_eq_true_eq] at hc
  obtain ⟨⟨⟨⟨-, h0, h1, h2, -⟩, h⟩, -⟩, -⟩ := hc
  refine ⟨?_, h⟩
  unfold txbBase
  split <;> assumption

theorem chipOk_canintf (hc : chipOk c = true) : c.regCanintf < c.size := by
  simp only [chipOk, Bool.and_eq_true, decide_eq_true_eq] at hc
  exact hc.1.1.1.1.2

theorem mcp2515_chipOk : chipOk .mcp2515 = true := by decide

theorem requestTransmit_keys (hc : chipOk c = true) {m : Memory} (hm : peerKeysOk c m = true) (n : Nat) :
    peerKeysOk c (requestTransmit c m n) = true :=
  peerStore_keys hm _ (by have := chipOk_txb hc n; omega) _ _

theorem clearRxFlag_keys (hc : chipOk c = true) {m : Memory} (hm : peerKeysOk c m = true) (n : Nat) :
    peerKeysOk c (clearRxFlag c m n) = true :=
  peerStore_keys hm _ (chipOk_canintf hc) _ _

theorem requestSelected_keys (hc : chipOk c = true) {m : Memory} (hm : peerKeysOk c m = true) (t : BitVec 3) :
    peerKeysOk c (requestSelected c m t) = true := by
  unfold requestSelected
  have h0 : peerKeysOk c (if t.getLsbD 0 then requestTransmit c m 0 else m) = true := by
    split
    · exact requestTransmit_keys hc hm _
    · exact hm
  have h1 : peerKeysOk c (if t.getLsbD 1 then requestTransmit c (if t.getLsbD 0 then requestTransmit c m 0 else m) 1
      else (if t.getLsbD 0 then requestTransmit c m 0 else m)) = true := by
    split
    · exact requestTransmit_keys hc h0 _
    · exact h0
  dsimp only
  by_cases h2 : t.getLsbD 2 = true
  · simp only [h2, if_true]; exact requestTransmit_keys hc h1 _
  · simp only [h2, Bool.false_eq_true, if_false]; exact h1

/-- An exchange on an active interface keeps the peer's memory in canonical form. -/
theorem activeEffect_wf {x : Exchange} {m : Memory} {d : Nat} {r : BusResult} (h : activeEffect q x m d = .next r)
    (hm : m.wf = true) : r.peer.wf = true := by
  cases x with
  | read a n =>
    simp only [activeEffect] at h
    split at h
    · cases h
    · split at h <;> cases h
      exact hm
  | write a data =>
    simp only [activeEffect] at h
    split at h
    · cases h
    · split at h <;> cases h
      exact writeBurst_wf hm _ _ _
  | bitModify a mask v =>
    simp only [activeEffect] at h
    split at h <;> cases h
    exact peerStore_wf hm _ _ _ _
  | reset => cases h; exact peerReset_wf q
  | readStatus k =>
    simp only [activeEffect] at h
    split at h <;> cases h
    exact hm
  | rxStatus k =>
    simp only [activeEffect] at h
    split at h <;> cases h
    exact hm
  | readRxb n sel k =>
    simp only [activeEffect] at h
    split at h <;> cases h
    exact clearRxFlag_wf hm _
  | loadTxb abc data =>
    simp only [activeEffect] at h
    split at h
    · cases h
    · split at h <;> cases h
      exact writeBurst_wf hm _ _ _
  | rts t => cases h; exact requestSelected_wf hm t

/-- An exchange on an active interface lists registers that exist. -/
theorem activeEffect_keys {x : Exchange} {m : Memory} {d : Nat} {r : BusResult} (h : activeEffect q x m d = .next r)
    (hc : chipOk q.chip = true) (hm : peerKeysOk q.chip m = true) : peerKeysOk q.chip r.peer = true := by
  cases x with
  | read a n =>
    simp only [activeEffect] at h
    split at h
    · cases h
    · split at h <;> cases h
      exact hm
  | write a data =>
    simp only [activeEffect] at h
    split at h
    · cases h
    · split at h <;> cases h
      exact writeBurst_keys hm _ (by omega)
  | bitModify a mask v =>
    simp only [activeEffect] at h
    split at h <;> cases h
    exact peerStore_keys hm _ (by omega) _ _
  | reset => cases h; exact peerReset_keys q
  | readStatus k =>
    simp only [activeEffect] at h
    split at h <;> cases h
    exact hm
  | rxStatus k =>
    simp only [activeEffect] at h
    split at h <;> cases h
    exact hm
  | readRxb n sel k =>
    simp only [activeEffect] at h
    split at h <;> cases h
    exact clearRxFlag_keys hc hm _
  | loadTxb abc data =>
    simp only [activeEffect] at h
    split at h
    · cases h
    · split at h <;> cases h
      exact writeBurst_keys hm _ (by omega)
  | rts t => cases h; exact requestSelected_keys hc hm t

/-- On an active interface an exchange returns as many MISO bytes as it sends MOSI bytes (R50). -/
theorem activeEffect_length {x : Exchange} {m : Memory} {d : Nat} {r : BusResult}
    (h : activeEffect q x m d = .next r) : r.miso.length = (encodeExchange q.chip x).length := by
  cases x with
  | read a n =>
    simp only [activeEffect] at h
    split at h
    · cases h
    · split at h <;> cases h
      simp [noValue, encodeExchange, length_readBurst]
  | write a data =>
    simp only [activeEffect] at h
    split at h
    · cases h
    · split at h <;> cases h
      simp [noValue, encodeExchange]; omega
  | bitModify a mask v =>
    simp only [activeEffect] at h
    split at h <;> cases h
    rfl
  | reset => cases h; rfl
  | readStatus k =>
    simp only [activeEffect] at h
    split at h <;> cases h
    simp [noValue, encodeExchange]
  | rxStatus k =>
    simp only [activeEffect] at h
    split at h <;> cases h
    simp [noValue, encodeExchange]; omega
  | readRxb n sel k =>
    simp only [activeEffect] at h
    split at h <;> cases h
    simp [noValue, encodeExchange, length_readBurst]
  | loadTxb abc data =>
    simp only [activeEffect] at h
    split at h
    · cases h
    · split at h <;> cases h
      simp [noValue, encodeExchange]; omega
  | rts t => cases h; rfl

/-! ## The effect of an exchange, awake and asleep -/

/-- Awake, or with an interface that is active in Sleep, an exchange has its ordinary effect. -/
theorem exchangeEffect_awake {x : Exchange} {m : Memory} {d : Nat} (h : asleep q m = false) :
    exchangeEffect q x m d = activeEffect q x m d := by
  simp only [exchangeEffect, h, Bool.false_eq_true, if_false]
  cases activeEffect q x m d <;> rfl

/-- What an exchange that takes effect leaves: the ordinary result, or asleep any. -/
theorem exchangeEffect_next {x : Exchange} {m : Memory} {d : Nat} {r : BusResult} (h : exchangeEffect q x m d = .next r) :
    ∃ r0, activeEffect q x m d = .next r0 ∧
      (asleep q m = false ∧ r = r0 ∨ asleep q m = true ∧ r = asleepResult q.chip m r0) := by
  simp only [exchangeEffect] at h
  split at h
  · rename_i r0 h0
    cases h
    refine ⟨r0, h0, ?_⟩
    cases ha : asleep q m
    · exact .inl ⟨rfl, by simp⟩
    · exact .inr ⟨rfl, by simp⟩
  · cases h
  · cases h

/-- Awake or asleep, an exchange takes effect where the ordinary one does. -/
theorem exchangeEffect_completes {x : Exchange} {m : Memory} {d : Nat} {r : BusResult}
    (h : activeEffect q x m d = .next r) : ∃ r', exchangeEffect q x m d = .next r' :=
  ⟨if asleep q m then asleepResult q.chip m r else r, by simp only [exchangeEffect, h]⟩

theorem length_redraw (d : Nat) (miso : List (Option Byte)) : (redraw d miso).length = miso.length := by
  induction miso generalizing d with
  | nil => rfl
  | cons b rest ih => cases b <;> simp [redraw, ih]

/-- Asleep, an exchange returns as many bytes that have a value as awake. -/
theorem length_dataBytes_redraw (d : Nat) (miso : List (Option Byte)) :
    ((redraw d miso).filterMap id).length = (miso.filterMap id).length := by
  induction miso generalizing d with
  | nil => rfl
  | cons b rest ih => cases b <;> simpa [redraw] using ih _

theorem setRegisters_wf {m : Memory} (hm : m.wf = true) (changes : List Host.Cell) :
    (setRegisters c m changes).wf = true := by
  induction changes generalizing m with
  | nil => exact hm
  | cons e es ih =>
    refine ih ?_
    split
    · exact Memory.write_wf hm _ _
    · exact hm

theorem setRegisters_keys {m : Memory} (hm : peerKeysOk c m = true) (changes : List Host.Cell) :
    peerKeysOk c (setRegisters c m changes) = true := by
  induction changes generalizing m with
  | nil => exact hm
  | cons e es ih =>
    refine ih ?_
    split
    · rename_i h
      exact Memory.all_write hm (by simp [home_lt h, home_home])
    · exact hm

/-- An exchange that takes effect keeps the peer's memory in canonical form. -/
theorem exchangeEffect_wf {x : Exchange} {m : Memory} {d : Nat} {r : BusResult} (h : exchangeEffect q x m d = .next r)
    (hm : m.wf = true) : r.peer.wf = true := by
  obtain ⟨r0, h0, ⟨-, rfl⟩ | ⟨-, rfl⟩⟩ := exchangeEffect_next h
  · exact activeEffect_wf h0 hm
  · exact setRegisters_wf hm _

/-- An exchange that takes effect lists registers that exist. -/
theorem exchangeEffect_keys {x : Exchange} {m : Memory} {d : Nat} {r : BusResult} (h : exchangeEffect q x m d = .next r)
    (hc : chipOk q.chip = true) (hm : peerKeysOk q.chip m = true) : peerKeysOk q.chip r.peer = true := by
  obtain ⟨r0, h0, ⟨-, rfl⟩ | ⟨-, rfl⟩⟩ := exchangeEffect_next h
  · exact activeEffect_keys h0 hc hm
  · exact setRegisters_keys hm _

/-- An exchange returns as many MISO bytes as it sends MOSI bytes (R50). -/
theorem exchangeEffect_length {x : Exchange} {m : Memory} {d : Nat} {r : BusResult}
    (h : exchangeEffect q x m d = .next r) : r.miso.length = (encodeExchange q.chip x).length := by
  obtain ⟨r0, h0, ⟨-, rfl⟩ | ⟨-, rfl⟩⟩ := exchangeEffect_next h
  · exact activeEffect_length h0
  · exact (length_redraw _ _).trans (activeEffect_length h0)

/-! ## One action and one turn -/

/-- What an exchange of another master can leave. -/
theorem masterExchange_next {x : Exchange} {s t : State} (h : masterExchange x s = .next t) :
    s.bus ≠ .held .block ∧ ∃ r, exchangeEffect s.params x s.peer s.draws = .next r ∧ t = s.afterExchange .other x r := by
  unfold masterExchange at h
  split at h
  · cases h
  · rename_i hb
    refine ⟨fun e => hb e, ?_⟩
    split at h
    · rename_i r hr
      cases h
      exact ⟨r, hr, rfl⟩
    · cases h
    · cases h

/-- What an exchange of the block can leave: it waits, or the exchange is done and counted. -/
theorem blockExchange_next {x : Exchange} {s t : State} (h : blockExchange x s = .next t) :
    (s.bus = .held .other ∧ t = s) ∨
    (s.bus ≠ .held .other ∧ ∃ r, exchangeEffect s.params x s.peer s.draws = .next r ∧
      t = (s.afterExchange .block x r).advance (dataBytes r.miso)) := by
  unfold blockExchange at h
  split at h
  · rename_i hb
    cases h
    exact .inl ⟨hb, rfl⟩
  · rename_i hb
    refine .inr ⟨fun e => hb e, ?_⟩
    split at h
    · rename_i r hr
      cases h
      exact ⟨r, hr, rfl⟩
    · cases h
    · cases h

/-- What an action can leave, by the action the plan takes. -/
theorem act_next {p : Plan} {s t : State} (h : act p s = .next t) :
    (∃ x, p s.view = .issue x ∧ blockExchange x s = .next t) ∨
    (∃ e, p s.view = .raise e ∧ t = s.raise e) ∨
    (∃ bytes drawn, p s.view = .respond bytes drawn ∧ t = State.respond bytes { s with draws := s.draws + drawn }) ∨
    (∃ v, p s.view = .writeCtrl v ∧ t = State.respond [] { s with ctrl := ctrlWritten v }) := by
  unfold act at h
  split at h
  · rename_i x hx
    exact .inl ⟨x, hx, h⟩
  · rename_i e he
    cases h
    exact .inr (.inl ⟨e, he, rfl⟩)
  · rename_i bytes drawn hr
    cases h
    exact .inr (.inr (.inl ⟨bytes, drawn, hr, rfl⟩))
  · rename_i v hv
    cases h
    exact .inr (.inr (.inr ⟨v, hv, rfl⟩))

/-- A turn that is not the block's is the same with and without a command in progress. -/
theorem turn_eq_envTurn {p : Plan} {t : Turn} {s : State} (h : t ≠ .block) : turn p t s = envTurn t s := by
  cases t <;> first | exact absurd rfl h | rfl

/-! ## The run of a command -/

/-- What every action keeps, the actions of a command alone keep. -/
theorem runAlone_keeps {p : Plan} {P : State → Prop}
    (hact : ∀ s t, P s → s.seq ≠ .idle → act p s = .next t → P t) :
    ∀ (n : Nat) (s t : State), P s → runAlone p n s = .next t → P t := by
  intro n
  induction n with
  | zero => intro s t hs h; cases h; exact hs
  | succ n ih =>
    intro s t hs h
    simp only [runAlone] at h
    split at h
    · cases h; exact hs
    · rename_i hidle
      split at h
      · rename_i u hu
        exact ih u t (hact s u hs hidle hu) h
      · cases h
      · cases h

/-- The induction over the run of a command: what every turn keeps, and does not depend on the agenda, the run keeps. -/
theorem drive_keeps {p : Plan} {P : State → Prop} (hagenda : ∀ s ts, P s → P { s with agenda := ts })
    (hturn : ∀ u s t, P s → s.seq ≠ .idle → turn p u s = .next t → P t) :
    ∀ (ts : List Turn) (s t : State), P s → drive p ts s = .next t → P t := by
  intro ts
  induction ts with
  | nil =>
    intro s t hs h
    exact runAlone_keeps (fun s t hs hi h => hturn .block s t hs hi h) _ _ _ (hagenda s [] hs) h
  | cons u ts ih =>
    intro s t hs h
    simp only [drive] at h
    split at h
    · cases h; exact hagenda s _ hs
    · rename_i hidle
      split at h
      · rename_i s' hs'
        exact ih s' t (hturn u s s' hs hidle hs') h
      · cases h
      · cases h

/-- What a command at the block can leave: held by its host, refused by the check, or run. -/
theorem runCommand_next {op : Op} {bytes : List Byte} {p : Plan} {s t : State}
    (h : runCommand op bytes p s = .next t) :
    t = s.holdCommand bytes ∨
    (∃ r, Ready s ∧ structuralCheck bytes = some r ∧ t = (s.accept op bytes).raise (.illegal r)) ∨
    (Ready s ∧ structuralCheck bytes = none ∧ drive p s.agenda (s.accept op bytes) = .next t) ∨
    (s.latch = some bytes ∧ (∃ o k, s.seq = .busy o k) ∧ drive p s.agenda s = .next t) := by
  unfold runCommand at h
  split at h
  · rename_i hseq
    split at h
    · cases h; exact .inl rfl
    · rename_i hv
      have hr : Ready s := ⟨hseq, by simpa using hv⟩
      split at h
      · rename_i r hc
        cases h
        exact .inr (.inl ⟨r, hr, hc, rfl⟩)
      · rename_i hc
        exact .inr (.inr (.inl ⟨hr, hc, h⟩))
  · rename_i o k hseq
    split at h
    · rename_i hl
      exact .inr (.inr (.inr ⟨hl, ⟨o, k, hseq⟩, h⟩))
    · cases h; exact .inl rfl

/-- A command at a ready block is accepted and run (R86). -/
theorem runCommand_ready {op : Op} {bytes : List Byte} {p : Plan} {s : State} (hs : Ready s)
    (hc : structuralCheck bytes = none) : runCommand op bytes p s = drive p s.agenda (s.accept op bytes) := by
  unfold runCommand
  simp [hs.1, hs.2, hc]

/-- A run with no other agent is the actions of the block. -/
theorem drive_alone (p : Plan) {s : State} (h : s.agenda = []) : drive p [] s = runAlone p maxActions s := by
  have : { s with agenda := [] } = s := by rw [← h]
  rw [drive, this]

/-! ## Actions that take effect -/

theorem act_issue {p : Plan} {s : State} {x : Exchange} {r : BusResult} (hp : p s.view = .issue x)
    (hb : s.bus = .free) (hr : exchangeEffect s.params x s.peer s.draws = .next r) :
    act p s = .next ((s.afterExchange .block x r).advance (dataBytes r.miso)) := by
  simp [act, hp, blockExchange, hb, hr]

theorem act_raise {p : Plan} {s : State} {e : Error} (hp : p s.view = .raise e) : act p s = .next (s.raise e) := by
  simp [act, hp]

theorem act_respond {p : Plan} {s : State} {bytes : List Byte} {drawn : Nat} (hp : p s.view = .respond bytes drawn) :
    act p s = .next (State.respond bytes { s with draws := s.draws + drawn }) := by
  simp [act, hp]

/-- The run alone goes on after an action that does not end the command. -/
theorem runAlone_succ {p : Plan} {n : Nat} {s t : State} (hs : s.seq ≠ .idle) (h : act p s = .next t) :
    runAlone p (n + 1) s = runAlone p n t := by
  simp [runAlone, hs, h]

/-- The run alone stops when the command has ended. -/
theorem runAlone_idle {p : Plan} {n : Nat} {s : State} (hs : s.seq = .idle) : runAlone p n s = .next s := by
  cases n <;> simp [runAlone, hs]

/-! ## The effects the block needs -/

/-- A WRITE within the implemented addresses takes effect on an active interface (R191). -/
theorem activeEffect_write {a : Byte} {data : List Byte} {m : Memory} {d : Nat} (h1 : 1 ≤ data.length)
    (h2 : a.toNat + data.length ≤ q.chip.size) :
    activeEffect q (.write a data) m d =
      .next { peer := writeRegisters q.chip m a.toNat data, miso := noValue (2 + data.length), draws := d } := by
  have h1' : data.length ≠ 0 := by omega
  have h2' : ¬ q.chip.size < a.toNat + data.length := by omega
  simp only [activeEffect, h1', if_false, h2']

/-- A READ within the implemented addresses takes effect on an active interface (R190). -/
theorem activeEffect_read {a : Byte} {n : Nat} {m : Memory} {d : Nat} (h1 : 1 ≤ n) (h2 : a.toNat + n ≤ q.chip.size) :
    activeEffect q (.read a n) m d =
      .next { peer := m, miso := noValue 2 ++ (readBurst q.chip m a.toNat n).map some, draws := d } := by
  have h1' : n ≠ 0 := by omega
  have h2' : ¬ q.chip.size < a.toNat + n := by omega
  simp only [activeEffect, h1', if_false, h2']

/-- A BIT_MODIFY of an implemented address takes effect on an active interface (R192). -/
theorem activeEffect_bitModify {a mask v : Byte} {m : Memory} {d : Nat} (h : a.toNat < q.chip.size) :
    activeEffect q (.bitModify a mask v) m d =
      .next { peer := bitModifyPeer q.chip m a.toNat mask v, miso := noValue 4, draws := d } := by
  have h' : ¬ q.chip.size ≤ a.toNat := by omega
  simp only [activeEffect, h', if_false]

@[simp] theorem dataBytes_noValue (n : Nat) : dataBytes (noValue n) = [] := by
  simp [dataBytes, noValue]

@[simp] theorem dataBytes_read (n : Nat) (bs : List Byte) : dataBytes (noValue n ++ bs.map some) = bs := by
  simp [dataBytes, noValue, List.filterMap_append]

end Sys2Proof.Machine
end

