-- ==== Sys2Proof/Laws/PerInstr.lean ====
section
/-!
SUPPORT. A statement about every instruction as syntax, one lemma per constructor: how many bytes its encoding has.
-/

namespace Sys2Proof

/-- The number of bytes of an instruction (R83, R96). -/
def instrLength : Instr → Nat
  | .encodeStdData _ _ data => 6 + data.length
  | .encodeExtData _ _ data => 6 + data.length
  | .encodeStdRtr _ _ data => 6 + data.length
  | .encodeExtRtr _ _ data => 6 + data.length
  | .sendStdData _ _ data => 6 + data.length
  | .sendExtData _ _ data => 6 + data.length
  | .sendStdRtr _ _ data => 6 + data.length
  | .sendExtRtr _ _ data => 6 + data.length
  | .trigger _ => 1
  | .decode _ => 1
  | .timing _ _ => 4
  | .wrctrl _ => 2
  | .spiRead _ n => 2 + n
  | .spiWrite _ data => 2 + data.length
  | .spiBitModify _ _ _ => 4
  | .spiReset => 1
  | .spiReadStatus k => 1 + k
  | .spiRxStatus k => 1 + k
  | .spiReadRxb _ _ k => 1 + k
  | .spiLoadTxb _ data => 1 + data.length
  | .spiRts _ => 1

/-- A command has 1 to 21 bytes when it is well formed (R80), and every encoding has the length of its format. -/
def Laws.EncodedLength.Statement (i : Instr) : Prop :=
  (encode i).length = instrLength i ∧ (i.wellFormed = true → i.port = .command → instrLength i ≤ 21)

/-- LEN has four bits, so a frame command has at most 21 bytes (R80). -/
theorem frame_length_le {data : List Byte} (h : lenFits data = true) : 6 + data.length ≤ 21 := by
  have : data.length ≤ 15 := by simpa [lenFits] using h
  omega

theorem Laws.EncodedLength.encodeStdData (buf : BitVec 2) (id : BitVec 32) (data : List Byte) :
    Laws.EncodedLength.Statement (.encodeStdData buf id data) :=
  ⟨length_frameBytes .., fun h _ => frame_length_le h⟩

theorem Laws.EncodedLength.encodeExtData (buf : BitVec 2) (id : BitVec 32) (data : List Byte) :
    Laws.EncodedLength.Statement (.encodeExtData buf id data) :=
  ⟨length_frameBytes .., fun h _ => frame_length_le h⟩

theorem Laws.EncodedLength.encodeStdRtr (buf : BitVec 2) (id : BitVec 32) (data : List Byte) :
    Laws.EncodedLength.Statement (.encodeStdRtr buf id data) :=
  ⟨length_frameBytes .., fun h _ => frame_length_le h⟩

theorem Laws.EncodedLength.encodeExtRtr (buf : BitVec 2) (id : BitVec 32) (data : List Byte) :
    Laws.EncodedLength.Statement (.encodeExtRtr buf id data) :=
  ⟨length_frameBytes .., fun h _ => frame_length_le h⟩

theorem Laws.EncodedLength.sendStdData (buf : BitVec 2) (id : BitVec 32) (data : List Byte) :
    Laws.EncodedLength.Statement (.sendStdData buf id data) :=
  ⟨length_frameBytes .., fun h _ => frame_length_le h⟩

theorem Laws.EncodedLength.sendExtData (buf : BitVec 2) (id : BitVec 32) (data : List Byte) :
    Laws.EncodedLength.Statement (.sendExtData buf id data) :=
  ⟨length_frameBytes .., fun h _ => frame_length_le h⟩

theorem Laws.EncodedLength.sendStdRtr (buf : BitVec 2) (id : BitVec 32) (data : List Byte) :
    Laws.EncodedLength.Statement (.sendStdRtr buf id data) :=
  ⟨length_frameBytes .., fun h _ => frame_length_le h⟩

theorem Laws.EncodedLength.sendExtRtr (buf : BitVec 2) (id : BitVec 32) (data : List Byte) :
    Laws.EncodedLength.Statement (.sendExtRtr buf id data) :=
  ⟨length_frameBytes .., fun h _ => frame_length_le h⟩

theorem Laws.EncodedLength.trigger (buf : BitVec 2) : Laws.EncodedLength.Statement (.trigger buf) :=
  ⟨rfl, fun _ _ => by simp [instrLength]⟩

theorem Laws.EncodedLength.decode (buf : BitVec 2) : Laws.EncodedLength.Statement (.decode buf) :=
  ⟨rfl, fun _ _ => by simp [instrLength]⟩

theorem Laws.EncodedLength.timing (osc : Byte) (rate : BitVec 16) : Laws.EncodedLength.Statement (.timing osc rate) :=
  ⟨rfl, fun _ _ => by simp [instrLength]⟩

theorem Laws.EncodedLength.wrctrl (v : Byte) : Laws.EncodedLength.Statement (.wrctrl v) :=
  ⟨rfl, fun _ _ => by simp [instrLength]⟩

theorem Laws.EncodedLength.spiRead (a : Byte) (n : Nat) : Laws.EncodedLength.Statement (.spiRead a n) :=
  ⟨by simp [encode, encodeExchange, instrLength]; omega, fun _ h => by simp [Instr.port, Instr.exchange?] at h⟩

theorem Laws.EncodedLength.spiWrite (a : Byte) (data : List Byte) : Laws.EncodedLength.Statement (.spiWrite a data) :=
  ⟨by simp [encode, encodeExchange, instrLength]; omega, fun _ h => by simp [Instr.port, Instr.exchange?] at h⟩

theorem Laws.EncodedLength.spiBitModify (a m v : Byte) : Laws.EncodedLength.Statement (.spiBitModify a m v) :=
  ⟨rfl, fun _ h => by simp [Instr.port, Instr.exchange?] at h⟩

theorem Laws.EncodedLength.spiReset : Laws.EncodedLength.Statement .spiReset :=
  ⟨rfl, fun _ h => by simp [Instr.port, Instr.exchange?] at h⟩

theorem Laws.EncodedLength.spiReadStatus (k : Nat) : Laws.EncodedLength.Statement (.spiReadStatus k) :=
  ⟨by simp [encode, encodeExchange, instrLength]; omega, fun _ h => by simp [Instr.port, Instr.exchange?] at h⟩

theorem Laws.EncodedLength.spiRxStatus (k : Nat) : Laws.EncodedLength.Statement (.spiRxStatus k) :=
  ⟨by simp [encode, encodeExchange, instrLength]; omega, fun _ h => by simp [Instr.port, Instr.exchange?] at h⟩

theorem Laws.EncodedLength.spiReadRxb (n m : BitVec 1) (k : Nat) : Laws.EncodedLength.Statement (.spiReadRxb n m k) :=
  ⟨by simp [encode, encodeExchange, instrLength]; omega, fun _ h => by simp [Instr.port, Instr.exchange?] at h⟩

theorem Laws.EncodedLength.spiLoadTxb (abc : BitVec 3) (data : List Byte) :
    Laws.EncodedLength.Statement (.spiLoadTxb abc data) :=
  ⟨by simp [encode, encodeExchange, instrLength]; omega, fun _ h => by simp [Instr.port, Instr.exchange?] at h⟩

theorem Laws.EncodedLength.spiRts (t : BitVec 3) : Laws.EncodedLength.Statement (.spiRts t) :=
  ⟨rfl, fun _ h => by simp [Instr.port, Instr.exchange?] at h⟩

end Sys2Proof
end

