-- ==== Sys2Proof/Tests/Slice0.lean ====
section
/-!
SUPPORT. Tests: well-formedness, decoding from words written out by hand, one or two steps for each instruction with
results taken from 95_test_vectors.md, and a witness for the hypotheses of each statement.
-/

namespace Sys2Proof.Tests

open Sys2Proof Sys2Proof.Machine

/-- The outcome is a next state that passes a test. -/
def nextAnd (o : Host.Outcome State Fault Refusal) (p : State → Bool) : Bool :=
  match o with
  | .next t => p t
  | .fault _ => false
  | .refused _ => false

/-- Bytes written to ascending addresses of a memory. -/
def place (m : Memory) (a : Nat) : List Byte → Memory
  | [] => m
  | d :: ds => place (m.write a d) (a + 1) ds

/-- After reset, with a command at the port. -/
def given (cmd : List Byte) : State := { State.reset with port := [cmd] }

/-- An instance that encodes remote frames. -/
def encoding : Params := { Config.defaultParams with remoteTx := .encode }

/-- The step answers with this response, after exactly these exchanges (MOSI bytes). -/
def answers (s : State) (resp : List Byte) (mosi : List (List Byte)) : Bool :=
  nextAnd (step s) fun t =>
    decide (t.resp = { valid := true, bytes := some resp }) && decide (t.seq = .idle)
      && decide (t.trace.map BusRecord.mosi = mosi)

/-! ## Well-formedness: one ill-formed term for each check -/

theorem test_wf_len : (Instr.encodeStdData 0 0 (List.replicate 16 0)).wellFormed = false := by decide
theorem test_wf_len_ext : (Instr.encodeExtData 0 0 (List.replicate 16 0)).wellFormed = false := by decide
theorem test_wf_len_rtr : (Instr.encodeStdRtr 0 0 (List.replicate 16 0)).wellFormed = false := by decide
theorem test_wf_len_ext_rtr : (Instr.encodeExtRtr 0 0 (List.replicate 16 0)).wellFormed = false := by decide
theorem test_wf_send : (Instr.sendStdData 0 0 (List.replicate 16 0)).wellFormed = false := by decide
theorem test_wf_send_ext : (Instr.sendExtData 0 0 (List.replicate 16 0)).wellFormed = false := by decide
theorem test_wf_send_rtr : (Instr.sendStdRtr 0 0 (List.replicate 16 0)).wellFormed = false := by decide
theorem test_wf_send_ext_rtr : (Instr.sendExtRtr 0 0 (List.replicate 16 0)).wellFormed = false := by decide
theorem test_wf_wrctrl : (Instr.wrctrl 2).wellFormed = false := by decide
theorem test_wf_read : (Instr.spiRead 0x61 0).wellFormed = false := by decide
theorem test_wf_write : (Instr.spiWrite 0x31 []).wellFormed = false := by decide
theorem test_wf_read_status : (Instr.spiReadStatus 0).wellFormed = false := by decide
theorem test_wf_rx_status : (Instr.spiRxStatus 0).wellFormed = false := by decide
theorem test_wf_load_txb : (Instr.spiLoadTxb 6 []).wellFormed = false := by decide
theorem test_wf_frame_payload : ({ kind := .std, type := .data, id := 0, data := List.replicate 9 0 } : Frame).wellFormed
    = false := by decide
theorem test_wf_frame_id : ({ kind := .std, type := .data, id := 0x800, data := [] } : Frame).wellFormed = false := by decide
/-- LEN 9 and BUF 3 are arguments out of range, not ill-formed (R97). -/
theorem test_wf_out_of_range : (Instr.encodeStdData 3 0x800 (List.replicate 9 0)).wellFormed = true := by decide

/-! ## Decoding: a word of each constructor, written out from R81, R83, R84, R88 and R96 -/

theorem test_decode_encode_std_data :
    decode .command [0b00010000, 0b00000010, 0x00, 0x00, 0x01, 0x23, 0xAA, 0xBB]
      = .ok (.encodeStdData 0 0x123 [0xAA, 0xBB]) := by decide
theorem test_decode_encode_ext_data :
    decode .command [0b00010001, 0b10000001, 0x12, 0x34, 0x56, 0x78, 0x01]
      = .ok (.encodeExtData 1 0x12345678 [0x01]) := by decide
theorem test_decode_encode_std_rtr :
    decode .command [0b00010010, 0b01000000, 0x00, 0x00, 0x07, 0xFF] = .ok (.encodeStdRtr 2 0x7FF []) := by decide
theorem test_decode_encode_ext_rtr :
    decode .command [0b00010011, 0b11000000, 0x18, 0xDB, 0x33, 0xF1] = .ok (.encodeExtRtr 3 0x18DB33F1 []) := by decide
theorem test_decode_send_std_data :
    decode .command [0b00110000, 0b00000001, 0x00, 0x00, 0x01, 0x23, 0xAA] = .ok (.sendStdData 0 0x123 [0xAA]) := by decide
theorem test_decode_send_ext_data :
    decode .command [0b00110010, 0b10000000, 0x00, 0x00, 0x00, 0x01] = .ok (.sendExtData 2 1 []) := by decide
theorem test_decode_send_std_rtr :
    decode .command [0b00110001, 0b01000100, 0x00, 0x00, 0x01, 0x00, 0x00, 0x00, 0x00, 0x00]
      = .ok (.sendStdRtr 1 0x100 [0, 0, 0, 0]) := by decide
theorem test_decode_send_ext_rtr :
    decode .command [0b00110000, 0b11000000, 0x00, 0x00, 0x00, 0x00] = .ok (.sendExtRtr 0 0 []) := by decide
theorem test_decode_trigger : decode .command [0b00100010] = .ok (.trigger 2) := by decide
theorem test_decode_decode : decode .command [0b01000001] = .ok (.decode 1) := by decide
theorem test_decode_timing : decode .command [0b01010000, 0x10, 0x01, 0xF4] = .ok (.timing 16 500) := by decide
theorem test_decode_wrctrl : decode .command [0b01100000, 0b00000001] = .ok (.wrctrl 1) := by decide
theorem test_decode_spi_read : decode .bus [0b00000011, 0x61, 0x00, 0x00] = .ok (.spiRead 0x61 2) := by decide
theorem test_decode_spi_write : decode .bus [0b00000010, 0x35, 0x02, 0xAA] = .ok (.spiWrite 0x35 [0x02, 0xAA]) := by decide
theorem test_decode_spi_bit_modify :
    decode .bus [0b00000101, 0x2C, 0x01, 0x02] = .ok (.spiBitModify 0x2C 0x01 0x02) := by decide
theorem test_decode_spi_reset : decode .bus [0b11000000] = .ok .spiReset := by decide
theorem test_decode_spi_read_status : decode .bus [0b10100000, 0x00] = .ok (.spiReadStatus 1) := by decide
theorem test_decode_spi_rx_status : decode .bus [0b10110000, 0x00] = .ok (.spiRxStatus 1) := by decide
theorem test_decode_spi_read_rxb : decode .bus [0b10010010, 0x00, 0x00] = .ok (.spiReadRxb 0 1 2) := by decide
theorem test_decode_spi_load_txb : decode .bus [0b01000011, 0x5A] = .ok (.spiLoadTxb 3 [0x5A]) := by decide
theorem test_decode_spi_rts : decode .bus [0b10000101] = .ok (.spiRts 5) := by decide

/-- A reserved opcode, a wrong length and a reserved bit are three refusals (R87, R97). -/
theorem test_decode_refuses :
    decode .command [0x70, 0x00] = .error (.illegal .reservedOpcode) ∧
    decode .command [0x20, 0x00] = .error (.illegal .wrongLength) ∧
    decode .command [0x24] = .error (.illegal .reservedBit) ∧
    decode .bus [0x46, 0x00] = .error .undefinedLoadTxb ∧
    decode .bus [0x91] = .error .unknownOpcode ∧
    decode .bus [0x03, 0x61] = .error .badFraming := by decide

/-- The words of the table (R100): (header << 8) | F0 for a frame command, the header or the first byte otherwise. -/
theorem test_decode_table_words :
    decodeTableWord 16 0x1000 = some (.encodeStdData 0 0 []) ∧
    decodeTableWord 16 0x31C2 = some (.sendExtRtr 1 0 [0, 0]) ∧
    decodeTableWord 8 0x50 = some (.timing 0 0) ∧
    decodeTableWord 8 0x05 = some (.spiBitModify 0 0 0) ∧
    decodeTableWord 8 0x44 = some (.spiLoadTxb 4 []) ∧
    decodeTableWord 16 0x1800 = none := by decide

/-! ## One step of each instruction: expected results from 95_test_vectors.md -/

/-- L2.2, first vector. -/
theorem test_encode_std_data :
    answers (given [0x10, 0x02, 0x00, 0x00, 0x01, 0x23, 0xAA, 0xBB]) [0x00]
      [[0x02, 0x31, 0x24, 0x60], [0x02, 0x35, 0x02, 0xAA, 0xBB]] = true := by decide
/-- L2.2, second vector. -/
theorem test_encode_ext_data :
    answers (given [0x11, 0x83, 0x12, 0x34, 0x56, 0x78, 0x01, 0x02, 0x03]) [0x00]
      [[0x02, 0x41, 0x91, 0xA8, 0x56, 0x78], [0x02, 0x45, 0x03, 0x01, 0x02, 0x03]] = true := by decide
/-- L2.2: an identifier of 30 bits. -/
theorem test_encode_ext_data_width : answers (given [0x10, 0x80, 0x20, 0x00, 0x00, 0x00]) [0x34] [] = true := by decide
/-- L2.2: REMOTE_TX = Encode. -/
theorem test_encode_std_rtr :
    answers { given [0x12, 0x40, 0x00, 0x00, 0x07, 0xFF] with params := encoding } [0x00]
      [[0x02, 0x51, 0xFF, 0xE0], [0x02, 0x55, 0x40]] = true := by decide
/-- L2.2: REMOTE_TX = Refuse. -/
theorem test_encode_std_rtr_refused : answers (given [0x10, 0x40, 0x00, 0x00, 0x07, 0xFF]) [0x03] [] = true := by decide
/-- L2.2: LEN 8, none of the payload written. -/
theorem test_encode_ext_rtr :
    answers { given ([0x10, 0xC8, 0x18, 0xDB, 0x33, 0xF1] ++ List.replicate 8 0x00) with params := encoding } [0x00]
      [[0x02, 0x31, 0xC6, 0xCB, 0x33, 0xF1], [0x02, 0x35, 0x48]] = true := by decide
/-- Program P1: TXB0 after the SEND, TXP kept, EID8 and EID0 not written. -/
theorem test_send_std_data :
    nextAnd (step { given [0x30, 0x02, 0x00, 0x00, 0x01, 0x23, 0xAA, 0xBB] with peer := [(0x30, 0x03)] }) (fun t =>
      decide (readBurst .mcp2515 t.peer 0x30 14
        = [0x0B, 0x24, 0x60, 0x00, 0x00, 0x02, 0xAA, 0xBB, 0x00, 0x00, 0x00, 0x00, 0x00, 0x00])) = true := by decide
/-- L2.4. -/
theorem test_send_ext_data :
    answers (given [0x32, 0x80, 0x00, 0x00, 0x00, 0x01]) [0x00]
      [[0x02, 0x51, 0x00, 0x08, 0x00, 0x01], [0x02, 0x55, 0x00], [0x05, 0x50, 0x08, 0x08]] = true := by decide
/-- L2.4: Encode with Rts. -/
theorem test_send_std_rtr :
    answers
      { given [0x31, 0x44, 0x00, 0x00, 0x01, 0x00, 0x00, 0x00, 0x00, 0x00] with
        params := { encoding with triggerForm := .rts } } [0x00]
      [[0x02, 0x41, 0x20, 0x00], [0x02, 0x45, 0x44], [0x82]] = true := by decide
/-- L2.4. -/
theorem test_send_ext_rtr :
    answers { given [0x30, 0xC0, 0x00, 0x00, 0x00, 0x00] with params := encoding } [0x00]
      [[0x02, 0x31, 0x00, 0x08, 0x00, 0x00], [0x02, 0x35, 0x40], [0x05, 0x30, 0x08, 0x08]] = true := by decide
/-- L2.3: TXP kept. -/
theorem test_trigger :
    nextAnd (step { given [0x20] with peer := [(0x30, 0x03)] }) (fun t =>
      decide (reg t.peer 0x30 = 0x0B) && decide (t.trace.map BusRecord.mosi = [[0x05, 0x30, 0x08, 0x08]]))
      = true := by decide
/-- L2.3: the Rts form. -/
theorem test_trigger_rts :
    answers { given [0x22] with params := { Config.defaultParams with triggerForm := .rts } } [0x00] [[0x84]]
      = true := by decide
/-- DV3: only bit 1 of CANINTF is cleared. -/
theorem test_decode_interrupt_mode :
    nextAnd
      (step
        { given [0x41] with
          ctrl := 0x01
          peer := place [(0x2C, 0xA6)] 0x70 [0x00, 0xFF, 0xEB, 0xFF, 0xFF, 0x08, 1, 2, 3, 4, 5, 6, 7, 8] })
      (fun t =>
        decide (t.resp.bytes = some [0x00, 0x88, 0x1F, 0xFF, 0xFF, 0xFF, 1, 2, 3, 4, 5, 6, 7, 8])
          && decide (reg t.peer 0x2C = 0xA4)) = true := by decide
/-- DV6: the flag stays, one exchange. -/
theorem test_decode_dlc_nine :
    nextAnd
      (step { given [0x40] with ctrl := 0x01, peer := place [(0x2C, 0x01)] 0x60 [0x00, 0x24, 0x60, 0x00, 0x00, 0x09] })
      (fun t =>
        decide (t.resp.bytes = some [0x02]) && decide (reg t.peer 0x2C = 0x01)
          && decide (t.trace.map BusRecord.mosi = [[0x03, 0x61, 0x00, 0x00, 0x00, 0x00, 0x00]])) = true := by decide
/-- L2.6, with a table that has (16, 500). -/
theorem test_timing :
    answers
      { given [0x50, 0x10, 0x01, 0xF4] with
        params :=
          { Config.defaultParams with
            otherTimings := [{ osc := 16, rate := 500, triple := { cnf1 := 1, cnf2 := 2, cnf3 := 3 } }] } }
      [0x00, 1, 2, 3] [] = true := by decide
/-- L2.6. -/
theorem test_timing_unlisted : answers (given [0x50, 0x00, 0x00, 0x7D]) [0x11] [] = true := by decide
/-- L2.7. -/
theorem test_wrctrl : nextAnd (step (given [0x60, 0x01])) (fun t => decide (t.ctrl = 0x01)) = true := by decide
/-- L2.7: CTRL unchanged. -/
theorem test_wrctrl_reserved :
    nextAnd (step { given [0x60, 0x02] with ctrl := 0x01 }) (fun t =>
      decide (t.ctrl = 0x01) && decide (t.resp.bytes = some [0x35])) = true := by decide
/-- L2.9: READ in address order. -/
theorem test_spi_read :
    nextAnd (exec (.spiRead 0x61 5) { State.reset with peer := place [] 0x61 [1, 2, 3, 4, 5] }) (fun t =>
      decide (t.trace.map BusRecord.miso = [[none, none, some 1, some 2, some 3, some 4, some 5]])) = true := by decide
/-- R31: CANSTAT answers at all of its addresses. -/
theorem test_spi_read_mirror :
    nextAnd (exec (.spiRead 0x7E 1) { State.reset with peer := [(0x0E, 0x80)] }) (fun t =>
      decide (t.trace.map BusRecord.miso = [[none, none, some 0x80]])) = true := by decide
/-- L2.9: TXB0DLC, TXB0D0, TXB0D1. -/
theorem test_spi_write :
    nextAnd (exec (.spiWrite 0x35 [0x02, 0xAA, 0xBB]) State.reset) (fun t =>
      decide (readBurst .mcp2515 t.peer 0x34 5 = [0x00, 0x02, 0xAA, 0xBB, 0x00])) = true := by decide
/-- R158, R171: a WRITE changes no byte of a received frame, and CNF1 to CNF3 in Configuration mode alone. -/
theorem test_spi_write_read_only :
    nextAnd (exec (.spiWrite 0x65 [0x02, 0xAA]) { State.reset with peer := [(0x65, 0x01), (0x66, 0x55)] }) (fun t =>
      decide (readBurst .mcp2515 t.peer 0x65 2 = [0x01, 0x55])) = true ∧
    nextAnd (exec (.spiWrite 0x28 [0xFF, 0x02, 0x03]) { State.reset with peer := [(0x0E, 0x80)] }) (fun t =>
      decide (readBurst .mcp2515 t.peer 0x28 3 = [0xC7, 0x02, 0x03])) = true ∧
    nextAnd (exec (.spiWrite 0x28 [0xFF, 0x02, 0x03]) State.reset) (fun t =>
      decide (readBurst .mcp2515 t.peer 0x28 3 = [0x00, 0x00, 0x00])) = true := by decide
/-- L2.9. -/
theorem test_spi_bit_modify :
    nextAnd (exec (.spiBitModify 0x2C 0x01 0x00) { State.reset with peer := [(0x2C, 0x03)] }) (fun t =>
      decide (reg t.peer 0x2C = 0x02)) = true := by decide
/-- R193, R50: one exchange, and the block's registers keep their values. -/
theorem test_spi_reset :
    nextAnd (exec .spiReset { State.reset with ctrl := 0x01 }) (fun t =>
      decide (t.trace.map BusRecord.mosi = [[0xC0]]) && decide (t.ctrl = 0x01)) = true := by decide
/-- R194, by hand: RX1IF (bit 1), TXB1CTRL.TXREQ (bit 4), TX2IF (bit 7). -/
theorem test_spi_read_status :
    nextAnd (exec (.spiReadStatus 1) { State.reset with peer := [(0x2C, 0x12), (0x40, 0x08)] }) (fun t =>
      decide (t.trace.map BusRecord.miso = [[none, some 0x92]])) = true := by decide
/-- R195, by hand: a message in RXB0 (bits 7:6 = 01), extended remote (bits 4:3 = 11), whatever the open bits are. -/
theorem test_spi_rx_status :
    ∀ free : Byte, rxStatusByte .mcp2515 [(0x2C, 0x01), (0x60, 0x08), (0x62, 0x08)] free &&& 0xDF = 0x58 := by decide
/-- R96: the byte comes back on MISO byte 1. -/
theorem test_spi_rx_status_framing :
    nextAnd (exec (.spiRxStatus 1) State.reset) (fun t =>
      decide (t.trace.map (fun r => (r.mosi, r.miso.length)) = [([0xB0, 0x00], 2)])) = true := by decide
/-- R196, by hand: from RXB1D0, and RX1IF cleared alone. -/
theorem test_spi_read_rxb :
    nextAnd (exec (.spiReadRxb 1 1 2) { State.reset with peer := [(0x2C, 0x03), (0x76, 0x11), (0x77, 0x22)] }) (fun t =>
      decide (t.trace.map BusRecord.miso = [[none, some 0x11, some 0x22]]) && decide (reg t.peer 0x2C = 0x01))
      = true := by decide
/-- R197, by hand: abc = 011 starts at 0x46. -/
theorem test_spi_load_txb :
    nextAnd (exec (.spiLoadTxb 3 [0x11, 0x22]) State.reset) (fun t =>
      decide (readBurst .mcp2515 t.peer 0x45 4 = [0x00, 0x11, 0x22, 0x00])) = true := by decide
/-- R198, by hand: t2 and t0. -/
theorem test_spi_rts :
    nextAnd (exec (.spiRts 5) State.reset) (fun t =>
      decide ([reg t.peer 0x30, reg t.peer 0x40, reg t.peer 0x50] = [0x08, 0x00, 0x08])) = true := by decide

/-! ## A chip with other bit positions (R2): the values change and no rule -/

/-- A chip with EXIDE at bit 4, the remote-request bit at bit 7, TXREQ at bit 2 and RXRTR at bit 1. -/
def otherChip : Params :=
  { encoding with
    chip := { Chip.mcp2515 with exideMask := 0x10, dlcRtrMask := 0x80, txreqMask := 0x04, rxrtrMask := 0x02 } }

/-- R126, R127, R131 on it: SIDL, DLC and TXBnCTRL hold the three bits. -/
theorem test_other_chip_send :
    nextAnd (step { given [0x30, 0xC2, 0x00, 0x00, 0x00, 0x01, 0x00, 0x00] with params := otherChip }) (fun t =>
      decide (readBurst otherChip.chip t.peer 0x30 6 = [0x04, 0x00, 0x10, 0x00, 0x01, 0x82])) = true := by decide
/-- R153 on it: RXRTR is read from its own bit of RXB0CTRL. -/
theorem test_other_chip_decode :
    nextAnd (step { given [0x40] with params := otherChip, peer := [(0x60, 0x02), (0x61, 0x24), (0x62, 0x60)] }) (fun t =>
      decide (t.resp.bytes = some [0x00, 0x40, 0x00, 0x00, 0x01, 0x23])) = true := by decide

/-! ## Sleep (R230) -/

/-- A chip in Sleep whose serial interface sleeps too. -/
def sleepy : State :=
  { State.reset with params := { Config.defaultParams with spiActiveInSleep := false }, peer := [(0x0E, 0x20), (0x61, 0x24)] }

/-- A chip in Sleep whose serial interface is active. -/
def sleepyActive : State := { sleepy with params := { sleepy.params with spiActiveInSleep := true } }

/-- R230: the exchange still runs, and the block keeps its registers. -/
theorem test_sleep_rts :
    nextAnd (exec (.spiRts 1) { sleepy with ctrl := 0x01 }) (fun t =>
      decide (t.trace.map BusRecord.mosi = [[0x81]]) && decide (t.ctrl = 0x01)) = true := by decide
/-- R230: on the MCP2515 the interface stays active, and the write takes effect. -/
theorem test_sleep_active_load_txb :
    nextAnd (exec (.spiLoadTxb 0 [0x55]) sleepyActive) (fun t => decide (reg t.peer 0x31 = 0x55)) = true := by decide

/-! ## Agents between exchanges -/

/-- R58: the chip's turn comes between the two WRITEs of an ENCODE; TXBnSIDH stays (R30). -/
theorem test_interleaved_chip :
    nextAnd
      (step
        { given [0x10, 0x00, 0x00, 0x00, 0x01, 0x23] with
          agenda := [.block, .block, .chip [(0x31, 0xFF), (0x2C, 0x04)], .block] })
      (fun t => decide (reg t.peer 0x31 = 0x24) && decide (reg t.peer 0x2C = 0x04) && decide (t.seq = .idle))
      = true := by decide
/-- R240: a reset between the two WRITEs of a SEND; the first stands, the second is never issued, no response. -/
theorem test_reset_between_exchanges :
    nextAnd
      (step { given [0x30, 0x00, 0x00, 0x00, 0x01, 0x23] with ctrl := 0x01, agenda := [.block, .block, .reset] })
      (fun t =>
        decide (t.trace.map BusRecord.mosi = [[0x02, 0x31, 0x24, 0x60]]) && !t.resp.valid && decide (t.seq = .idle)
          && decide (t.ctrl = 0x00)) = true := by decide

/-! ## Witnesses: a state and operands that meet the hypotheses of each statement, clause by clause -/

/-- A state in which the block is ready, alone, and has something in its peer. -/
def ready : State := { State.reset with peer := [(0x2C, 0x03), (0x31, 0x80), (0x65, 0x08), (0x75, 0x08)] }

/-- A block in the middle of TRIGGER. -/
def midTrigger : State := { ready with seq := .busy .trigger 0, latch := some [0x20] }

theorem witness_ready : Mcp2515 ready ∧ Awake ready ∧ Memory.wf ready.peer = true ∧ Ready ready ∧ Alone ready :=
  ⟨rfl, by decide, by decide, by decide, by decide⟩

theorem witness_BlockResetTakesEffectBetweenExchanges :
    { midTrigger with agenda := [.reset, .block] }.agenda = .reset :: [.block] ∧
    (∃ t, step { midTrigger with agenda := [.reset] } = .next t) ∧
    ((Instr.decode 3).port = .command ∧ (Instr.decode 3).wellFormed = true ∧
      Ready { ready with agenda := [.reset] }) ∧
    ((2 : BitVec 2).toNat < 3 ∧ Ready { ready with agenda := [.block, .reset] }) :=
  ⟨rfl, ⟨_, rfl⟩, by decide, by decide⟩

/-- The clause over the exchanges of a command: a SEND, reset after two of its three. -/
theorem witness_BlockResetBetweenExchanges :
    (Instr.sendStdData 0 0x123 []).wellFormed = true ∧
    (∃ alone, exec (.sendStdData 0 0x123 []) { ready with agenda := [] } = .next alone ∧
      alone.trace = ready.trace ++ alone.trace ∧ alone.trace.length = 3) ∧
    { ready with agenda := [.block, .block, .reset] }.agenda = List.replicate 2 .block ++ .reset :: [] :=
  ⟨by decide, ⟨_, rfl, rfl, by decide⟩, rfl⟩

theorem witness_StepRunsTheDecodedCommand :
    (Ready (given [0x20]) ∧ (given [0x20]).port = [0x20] :: [] ∧ decode .command [0x20] = .ok (.trigger 0)) ∧
    ({ midTrigger with agenda := [.block] }.agenda = .block :: [] ∧ midTrigger.seq = .busy .trigger 0 ∧
      midTrigger.latch = some [0x20]) := by decide

theorem witness_StepRunsTheDecodedExchange :
    { ready with agenda := [.master [0xA0, 0x00]] }.agenda = .master [0xA0, 0x00] :: [] ∧
    decodeExchange ready.params.chip [0xA0, 0x00] = .ok (.readStatus 1) ∧
    decode .bus [0xA0, 0x00] = .ok (.spiReadStatus 1) := by decide

theorem witness_PlacedTableWordRunsAtTheNextStep :
    decodeTableWord 8 0x20 = some (.trigger 0) ∧ (Instr.trigger 0).port = .command ∧
    decodeTableWord 16 0x33C3 = some (.sendExtRtr 3 0 [0, 0, 0]) ∧ decodeTableWord 8 0xC0 = some .spiReset := by decide

theorem witness_DecodeOfEncodeIsTheInstruction :
    (Instr.sendExtRtr 3 0xFFFFFFFF (List.replicate 15 0xFF)).wellFormed = true ∧
    (Instr.spiLoadTxb 5 []).wellFormed = true := by decide

theorem witness_CommandBytesHaveOneMeaning :
    decodeCommand [0x10, 0xC1, 0xFF, 0xFF, 0xFF, 0xFF, 0x00] = .ok (.encodeExtRtr 0 0xFFFFFFFF [0x00]) := by decide

theorem witness_IllegalCommandEndsWithItsStatus :
    Ready (given [0x20, 0x00]) ∧ structuralCheck [0x20, 0x00] = some .wrongLength ∧
    structuralCheck [0x00] = some .reservedOpcode ∧ structuralCheck [0x60, 0x02] = some .reservedBit := by decide

theorem witness_ReservedOpcodeRaises15 :
    Ready (given [0x70, 0x00]) ∧ (0x0F : Byte).toNat / 16 = 0 ∧ 7 ≤ (0x70 : Byte).toNat / 16 := by decide

theorem witness_RefusedWrctrlLeavesCtrl :
    Ready (given [0x60, 0x02]) ∧ (given [0x60, 0x02]).agenda = [] ∧ (given [0x60, 0x02]).port = [0x60, 0x02] :: [] ∧
    (given [0x60, 0x80]).port = [0x60, 0x80] :: [] ∧ (given [0x61, 0x01]).port = [0x61, 0x01] :: [] ∧
    (given [0x60]).port = [0x60] :: [] := by decide

theorem witness_CommandIsHeldWhileAResponseWaits :
    ((answered [0x00] ready).seq = .idle ∧ (answered [0x00] ready).resp.valid = true ∧
      (answered [0x00] ready).agenda = []) ∧
    ((Instr.decode 0).port = .command ∧ midTrigger.seq ≠ .idle ∧ midTrigger.latch ≠ some (encode (.decode 0))) := by
  decide

theorem witness_TakingTheResponseFreesTheBlock :
    { answered [0x00] ready with agenda := [.take] }.agenda = .take :: [] := by decide

theorem witness_BlockWaitsForTheBus :
    Ready { ready with bus := .held .other } ∧ { ready with bus := .held .other }.agenda = [] ∧
    frameStatus ready.params.remoteTx .ext .data 2 0x1FFFFFFF 8 = none ∧
    (2 : BitVec 2).toNat < 3 ∧ (1 : BitVec 2).toNat < 2 := by decide

theorem witness_identifiers :
    (0x7FF : BitVec 32).toNat < 2 ^ 11 ∧ (0x1FFFFFFF : BitVec 32).toNat < 2 ^ 29 ∧
    (0xF7 : Byte) &&& 0x08 = 0 ∧ (0x08 : Byte) &&& 0x08 ≠ 0 ∧ (List.replicate 15 (0xFF : Byte)).length ≤ 15 := by decide

/-- For ENCODE and SEND of data and of remote frames. -/
theorem witness_frames :
    Mcp2515 { ready with params := encoding } ∧ Ready { ready with params := encoding } ∧
    Alone { ready with params := encoding } ∧
    { ready with params := encoding }.params.remoteTx = .encode ∧ (2 : BitVec 2).toNat < 3 ∧
    (List.replicate 8 (0xFF : Byte)).length ≤ 8 :=
  ⟨rfl, by decide, by decide, rfl, by decide, by decide⟩

theorem witness_FrameErrorsInOrderOfPrecedence :
    frameStatus .refuse .std .remote 3 0x800 9 = some 0x14 ∧ frameStatus .refuse .std .remote 2 0x800 9 = some 0x24 ∧
    frameStatus .refuse .std .remote 2 0x800 8 = some 0x34 ∧ frameStatus .refuse .ext .remote 2 0x20000000 8 = some 0x34 ∧
    frameStatus .refuse .std .remote 2 0x7FF 8 = some 0x03 := by decide

theorem witness_CommandExchangesInOrderUnderInterleaving :
    isTransmit (.trigger 0) = true ∧ (Instr.trigger 0).wellFormed = true ∧
    Ready { ready with agenda := [.chip [(0x31, 0x01)], .master [0x81], .block] } ∧
    .reset ∉ [Turn.chip [(0x31, 0x01)], .master [0x81], .block] ∧
    nextAnd (exec (.trigger 0) { ready with agenda := [.chip [(0x31, 0x01)], .master [0x81], .block] })
      (fun t => decide (t.seq = .idle)) = true ∧
    nextAnd (exec (.decode 1) { ready with agenda := [.chip [(0x75, 0x02)], .master [0x81], .block] })
      (fun t => decide (t.seq = .idle) && decide (t.resp.bytes ≠ some [0x02])) = true := by decide

theorem witness_EncodedFrameSurvivesTheChip :
    Ready { ready with agenda := [.block, .chip [(0x31, 0x00)]] } ∧ (0x1FFFFFFF : BitVec 32).toNat < FrameKind.ext.idLimit ∧
    ∀ u ∈ [Turn.block, .chip [(0x31, 0x00)]], u = .block ∨ ∃ changes, u = .chip changes ∧
      (ready.params.spiActiveInSleep = true ∨ ∀ e ∈ changes, homeOf e.1 = 0x0E → e.2 &&& 0xE0 ≠ 0x20) := by
  refine ⟨by decide, by decide, fun u hu => ?_⟩
  obtain rfl | rfl : u = .block ∨ u = .chip [(0x31, 0x00)] := by simpa using hu
  · exact .inl rfl
  · exact .inr ⟨_, rfl, .inr (by decide)⟩

theorem witness_DecodeReturnsTheDataFrame : rxLen ready.peer 1 ≤ 8 ∧ rxType ready.peer 1 = .data := by decide

theorem witness_DecodeReturnsTheRemoteFrame :
    rxLen [(0x70, 0x08), (0x75, 0x08)] 1 ≤ 8 ∧ rxType [(0x70, 0x08), (0x75, 0x08)] 1 = .remote := by decide

theorem witness_DecodeRefusesDlcAboveEight : 8 < rxLen [(0x65, 0x09)] 0 ∧ 8 < rxLen [(0x75, 0x0F)] 1 := by decide

theorem witness_DecodeRefusesBufferAboveOne : Ready ready ∧ 2 ≤ (2 : BitVec 2).toNat ∧ 2 ≤ (3 : BitVec 2).toNat := by
  decide

theorem witness_DecodedFrameIsWellFormed :
    nextAnd (exec (.decode 0) { ready with peer := [(0x65, 0x01), (0x66, 0x55)] }) (fun t =>
      decide (t.resp = { valid := true, bytes := some (0x00 :: [0x01, 0x00, 0x00, 0x00, 0x00, 0x55]) })) = true := by
  decide

/-- HOLD_WHILE_FLAG: the chip writes RXB1 and another master writes to RXB0 while the block decodes RXB0. -/
theorem witness_DecodeSeesOneFrameUnderHold :
    rxFlag .mcp2515 ready.peer 0 = true ∧ rxLen ready.peer 0 ≤ 8 ∧
    KeepsFrame (decodePlan 0) 0 [.chip [(0x71, 0x55)], .master [0x02, 0x66, 0xFF]]
      ({ ready with agenda := [.chip [(0x71, 0x55)], .master [0x02, 0x66, 0xFF]] }.accept .decode (encode (.decode 0))) ∧
    nextAnd (exec (.decode 0) { ready with agenda := [.chip [(0x71, 0x55)], .master [0x02, 0x66, 0xFF]] })
      (fun t => t.resp.valid) = true := by
  refine ⟨by decide, by decide, .inr ⟨by decide, fun _ => ?_, fun s' hs => .inr ⟨?_, ?_, fun s'' hs' => .inr ?_⟩⟩, by decide⟩
  · have h : ∀ k, k < 14 →
        reg (chipStep .mcp2515 ready.peer [(0x71, 0x55)]) (0x60 + k) = reg ready.peer (0x60 + k) := by decide
    intro a ha hb
    have ha' : 0x60 ≤ a ∧ a ≤ 0x60 + 13 := ⟨ha, hb⟩
    have hk := h (a - 0x60) (by omega)
    rwa [show 0x60 + (a - 0x60) = a by omega] at hk
  · cases hs
    decide
  · cases hs
    intro x r hx hr _
    cases hx
    cases hr
    decide
  · cases hs
    cases hs'
    decide

/-- Program P5: the extended frame of TXB1 copied to RXB0. -/
theorem witness_RoundTripThroughTheBuffers :
    ({ kind := .ext, type := .data, id := 0x12345678, data := [1, 2, 3] } : Frame).wellFormed = true ∧
    nextAnd (exec (encodeVariant .ext .data 1 (BitVec.ofNat 32 0x12345678) [1, 2, 3]) ready) (fun t =>
      decide (readBurst .mcp2515 (place [] 0x61 [0x91, 0xA8, 0x56, 0x78, 0x03, 1, 2, 3]) (rxBase 0 + 1) 8
        = readBurst .mcp2515 t.peer (txBase 1 + 1) 8)) = true ∧
    rxRemote .mcp2515 (place [] 0x61 [0x91, 0xA8, 0x56, 0x78, 0x03, 1, 2, 3]) 0 = false ∧
    Memory.wf (place [] 0x61 [0x91, 0xA8, 0x56, 0x78, 0x03, 1, 2, 3]) = true := by decide

theorem witness_TimingLooksUpTheTable :
    timingTable Config.defaultParams 8 125 = some Config.documentedTriple ∧
    timingTable Config.defaultParams 16 500 = none ∧ timingTable Config.defaultParams 0 125 = none :=
  ⟨rfl, rfl, rfl⟩

theorem witness_TimingTableConstraints : ∃ t, step (given [0x50, 0x08, 0x00, 0x7D]) = .next t := ⟨_, rfl⟩

theorem witness_TimingIsAPureFunction :
    ready.params = State.reset.params ∧ Ready ready ∧ Ready State.reset ∧ ready.agenda = [] ∧ State.reset.agenda = [] ∧
    .reset ∉ ready.agenda ∧ ∃ t, exec (.timing 8 125) ready = .next t :=
  ⟨rfl, by decide, by decide, rfl, rfl, by decide, _, rfl⟩

theorem witness_WrctrlWritesCtrl : Ready ready ∧ (0x01 : Byte).toNat < 2 ∧ 2 ≤ (0x02 : Byte).toNat := by decide

/-- The exchanges: the first and the last address, and one past it. -/
theorem witness_exchanges :
    ready.bus ≠ .held .block ∧ (0x7F : Byte).toNat + 1 ≤ 128 ∧ 128 < (0x7F : Byte).toNat + 2 ∧ 128 < (0x80 : Byte).toNat + 1 ∧
    (0x76 + 10 ≤ 128 ∧ 128 < 0x76 + 11) ∧ (5 : BitVec 3).toNat < 6 ∧ 6 ≤ (6 : BitVec 3).toNat ∧
    ((0x2C : Byte).toNat = 0x2C ∧ (0x50 : Byte).toNat = 0x50) := by decide

theorem witness_WriteStoresBytesInOrder :
    (∀ j, j < 2 → 0 < j → homeOf (0x31 + j) ≠ homeOf (0x31 + 0)) ∧ ∀ k, k < 2 → homeOf 0x30 ≠ homeOf (0x31 + k) := by
  refine ⟨fun j hj h0 => ?_, by decide⟩
  obtain rfl : j = 1 := by omega
  decide

theorem witness_RxStatusNamesTheFullBuffers :
    (rxFlag .mcp2515 [(0x2C, 0x01)] 0 = true ∧ rxFlag .mcp2515 [(0x2C, 0x01)] 1 = false) ∧
    (rxFlag .mcp2515 [(0x2C, 0x02)] 0 = false ∧ rxFlag .mcp2515 [(0x2C, 0x02)] 1 = true) := by decide

theorem witness_ExchangeWhileTheBusIsHeldAndInSleep :
    { ready with bus := .held .block }.bus = .held .block ∧ sleepy.bus ≠ .held .block ∧ ¬ Awake sleepy ∧
    (∃ t, exec (Instr.ofExchange (.read 0x30 1)) sleepyActive = .next t) ∧
    exec (Instr.ofExchange (.read 0x80 1)) sleepyActive = .fault .unimplementedAddress ∧
    exec (Instr.ofExchange (.read 0x30 0)) sleepyActive = .refused .malformedExchange :=
  ⟨rfl, by decide, by decide, ⟨_, rfl⟩, rfl, rfl⟩

/-- One change for each clause of R30: a frame byte, RXBnCTRL, CANINTF, TXBnCTRL, another register. -/
theorem witness_ChipStepKeepsToItsRule :
    (∀ change ∈ [(rxBase 1 + 13, 0x55), (0x60, 0x04), (0x70, 0x55), (0x2C, 0x04), (txBase 2, 0x70), (0x2D, 0xFF)],
      { ready with agenda := [.chip [change]] }.agenda = .chip [change] :: []) ∧ rxFlag .mcp2515 ready.peer 0 = true :=
  ⟨fun _ _ => rfl, by decide⟩

theorem witness_Inv_ready : Inv ready :=
  ⟨by decide, by decide, by decide, by decide, by decide, by decide, by decide⟩

theorem witness_Inv_midTrigger : Inv midTrigger :=
  ⟨by decide, by decide, by decide, by decide, by decide, by decide, by decide⟩

theorem witness_EveryStepKeepsTheInvariant : Inv midTrigger ∧ ∃ t, step midTrigger = .next t :=
  ⟨witness_Inv_midTrigger, _, rfl⟩

theorem witness_OnlyWrctrlAndResetChangeCtrl :
    (∃ t, exec (.decode 0) ready = .next t) ∧ (∀ v, Instr.decode 0 ≠ .wrctrl v) ∧ .reset ∉ ready.agenda :=
  ⟨⟨_, rfl⟩, by simp, by decide⟩

theorem witness_BlockIssuesOnlyItsOwnExchanges : BlockTrafficOk midTrigger ∧ ∃ t, step midTrigger = .next t :=
  ⟨by simp [BlockTrafficOk, midTrigger, ready, State.reset], _, rfl⟩

theorem witness_FailedCommandLeavesPeerAndCtrl :
    (Instr.decode 2).port = .command ∧
    nextAnd (exec (.decode 2) ready) (fun t => decide (t.resp.bytes = some (0x14 :: []))) = true := by decide

theorem witness_NoCommandStopsTheMachine :
    chipOk ready.params.chip = true ∧ (Instr.decode 2).port = .command ∧ ∀ u ∈ [Turn.reset, .hold], ∀ mosi, u ≠ .master mosi := by
  refine ⟨by decide, by decide, ?_⟩
  simp

end Sys2Proof.Tests
end

