-- ==== Sys2Proof/Proofs/StepLaws.lean ====
section
/-!
SUPPORT. What an instruction, a fetch and a step can do, each said once.
-/

namespace Sys2Proof.Machine

variable {s t : State}

/-! ## Instructions -/

/-- An instruction of the bus is the exchange of another master (R32). -/
@[simp] theorem exec_ofExchange (x : Exchange) (s : State) : exec (Instr.ofExchange x) s = masterExchange x s := by
  cases x <;> rfl

/-- An instruction is a command run by its plan, or an exchange of another master. -/
theorem exec_command_or_exchange (i : Instr) :
    (∃ op p, opOf i = some op ∧ ∀ s, exec i s = runCommand op (encode i) p s) ∨
    (∃ x, i = Instr.ofExchange x ∧ ∀ s, exec i s = masterExchange x s) := by
  cases i with
  | encodeStdData => exact .inl ⟨_, _, rfl, fun _ => rfl⟩
  | encodeExtData => exact .inl ⟨_, _, rfl, fun _ => rfl⟩
  | encodeStdRtr => exact .inl ⟨_, _, rfl, fun _ => rfl⟩
  | encodeExtRtr => exact .inl ⟨_, _, rfl, fun _ => rfl⟩
  | sendStdData => exact .inl ⟨_, _, rfl, fun _ => rfl⟩
  | sendExtData => exact .inl ⟨_, _, rfl, fun _ => rfl⟩
  | sendStdRtr => exact .inl ⟨_, _, rfl, fun _ => rfl⟩
  | sendExtRtr => exact .inl ⟨_, _, rfl, fun _ => rfl⟩
  | trigger => exact .inl ⟨_, _, rfl, fun _ => rfl⟩
  | decode => exact .inl ⟨_, _, rfl, fun _ => rfl⟩
  | timing => exact .inl ⟨_, _, rfl, fun _ => rfl⟩
  | wrctrl => exact .inl ⟨_, _, rfl, fun _ => rfl⟩
  | spiRead a n => exact .inr ⟨.read a n, rfl, fun _ => rfl⟩
  | spiWrite a data => exact .inr ⟨.write a data, rfl, fun _ => rfl⟩
  | spiBitModify a m v => exact .inr ⟨.bitModify a m v, rfl, fun _ => rfl⟩
  | spiReset => exact .inr ⟨.reset, rfl, fun _ => rfl⟩
  | spiReadStatus k => exact .inr ⟨.readStatus k, rfl, fun _ => rfl⟩
  | spiRxStatus k => exact .inr ⟨.rxStatus k, rfl, fun _ => rfl⟩
  | spiReadRxb n m k => exact .inr ⟨.readRxb n m k, rfl, fun _ => rfl⟩
  | spiLoadTxb abc data => exact .inr ⟨.loadTxb abc data, rfl, fun _ => rfl⟩
  | spiRts sel => exact .inr ⟨.rts sel, rfl, fun _ => rfl⟩

/-! ## The block's turn -/

/-- What the block runs: the command in LATCH when it is busy (R23), the oldest at the port when it is ready (R86). -/
theorem fetchBlock_run {i : Instr} {u : State} (h : fetchBlock s = .run i u) :
    (∃ op k bytes, s.seq = .busy op k ∧ s.latch = some bytes ∧ decodeCommand bytes = .ok i ∧ u = s) ∨
    (∃ bytes rest, Ready s ∧ s.port = bytes :: rest ∧ decodeCommand bytes = .ok i ∧ u = { s with port := rest }) := by
  unfold fetchBlock at h
  split at h
  next op k hseq =>
    split at h
    next => cases h
    next bytes hl =>
      split at h
      next j hd => cases h; exact .inl ⟨op, k, bytes, hseq, hl, hd, rfl⟩
      next => cases h
  next hseq =>
    split at h
    next => cases h
    next bytes rest hp =>
      split at h
      next => cases h
      next hv =>
        have hready : Ready s := ⟨hseq, by simpa using hv⟩
        split at h <;> cases h
        next hd => exact .inr ⟨bytes, rest, hready, hp, hd, rfl⟩

/-- What the block does without an instruction: it waits, or it refuses the oldest command at the port (R87). -/
theorem fetchBlock_done (h : fetchBlock s = .done (.next t)) :
    (s.seq = .idle ∧ (s.port = [] ∨ s.resp.valid = true) ∧ t = s) ∨
    (∃ bytes rest r, Ready s ∧ s.port = bytes :: rest ∧ decodeCommand bytes = .error (.illegal r) ∧
      t = State.raise (.illegal r) { s with port := rest }) := by
  unfold fetchBlock at h
  split at h
  next =>
    split at h
    next => cases h
    next => split at h <;> cases h
  next hseq =>
    split at h
    next hp => cases h; exact .inl ⟨hseq, .inl hp, rfl⟩
    next bytes rest hp =>
      split at h
      next hv => cases h; exact .inl ⟨hseq, .inr hv, rfl⟩
      next hv =>
        have hready : Ready s := ⟨hseq, by simpa using hv⟩
        split at h <;> cases h
        next r hd => exact .inr ⟨bytes, rest, r, hready, hp, hd, rfl⟩

/-! ## One step -/

/-- With an empty agenda, or one that names the block, the step is the block's (R58, R60). -/
theorem fetch_block (h : s.agenda = [] ∨ s.agenda = .block :: s.agenda.tail) :
    fetch s = fetchBlock { s with agenda := s.agenda.tail } := by
  obtain h | h := h
  · have hs : { s with agenda := s.agenda.tail } = s := by rw [h, List.tail_nil, ← h]
    rw [hs, fetch, h]
  · rw [fetch, h, List.tail_cons]

/-- The turn of another agent is the same as a step of its own and while a command is in progress. -/
theorem step_other {u : Turn} {ts : List Turn} (h : s.agenda = u :: ts) (hu : u ≠ .block) :
    step s = envTurn u { s with agenda := ts } := by
  cases u with
  | block => exact absurd rfl hu
  | master mosi =>
    simp only [step, fetch, h, envTurn]
    cases decodeExchange s.params.chip mosi with
    | error e => rfl
    | ok x => exact exec_ofExchange x _
  | chip changes => simp only [step, fetch, h]
  | hold => simp only [step, fetch, h]
  | offer cmd => simp only [step, fetch, h]
  | take => simp only [step, fetch, h]
  | reset => simp only [step, fetch, h]

/-- What a step can do: the block's turn, when the agenda is empty or names it, or the turn of another agent (R58). -/
theorem step_next (h : step s = .next t) :
    ((s.agenda = [] ∨ s.agenda = .block :: s.agenda.tail) ∧
      ((∃ i u, fetchBlock { s with agenda := s.agenda.tail } = .run i u ∧ exec i u = .next t) ∨
        fetchBlock { s with agenda := s.agenda.tail } = .done (.next t))) ∨
    (∃ u ts, s.agenda = u :: ts ∧ u ≠ .block ∧ envTurn u { s with agenda := ts } = .next t) := by
  by_cases hb : s.agenda = [] ∨ s.agenda = .block :: s.agenda.tail
  · rw [step, fetch_block hb] at h
    refine .inl ⟨hb, ?_⟩
    split at h
    next i u hf => exact .inl ⟨i, u, hf, h⟩
    next o hf => exact .inr (by rw [hf, h])
  · obtain ⟨hnil, hblock⟩ := not_or.mp hb
    obtain ⟨u, ts, hag⟩ := List.exists_cons_of_ne_nil hnil
    have hu : u ≠ .block := fun hu => hblock (by rw [hag, hu, List.tail_cons])
    exact .inr ⟨u, ts, hag, hu, by rw [← step_other hag hu, h]⟩

end Sys2Proof.Machine
end

