-- ==== Sys2Proof/Proofs/TimingTable.lean ====
section
/-!
SUPPORT. The parameters along a step (R242), the timing table as a finite function (R6), and the statement
about it.
-/

namespace Sys2Proof.Machine

variable {s t : State} {p : Plan}

/-! ## The parameters are kept -/

theorem masterExchange_params {x : Exchange} (h : masterExchange x s = .next t) : t.params = s.params := by
  obtain ⟨-, r, -, rfl⟩ := masterExchange_next h
  exact State.afterExchange_params ..

theorem blockExchange_params {x : Exchange} (h : blockExchange x s = .next t) : t.params = s.params := by
  obtain ⟨-, rfl⟩ | ⟨-, r, -, rfl⟩ := blockExchange_next h
  · rfl
  · rw [State.advance_params, State.afterExchange_params]

theorem act_params (h : act p s = .next t) : t.params = s.params := by
  obtain ⟨x, -, hx⟩ | ⟨e, -, rfl⟩ | ⟨bytes, drawn, -, rfl⟩ | ⟨v, -, rfl⟩ := act_next h
  · exact blockExchange_params hx
  · exact State.raise_params ..
  · exact State.respond_params ..
  · exact State.respond_params ..

theorem envTurn_params {u : Turn} (h : envTurn u s = .next t) : t.params = s.params := by
  cases u with
  | master mosi =>
    simp only [envTurn] at h
    split at h
    · exact masterExchange_params h
    · cases h
  | block => cases h; rfl
  | chip changes => cases h; rfl
  | hold => cases h; rfl
  | offer cmd => cases h; rfl
  | take => cases h; exact State.takeResponse_params ..
  | reset => cases h; exact State.blockReset_params ..

theorem turn_params {u : Turn} (h : turn p u s = .next t) : t.params = s.params := by
  by_cases hu : u = .block
  · subst hu; exact act_params h
  · rw [turn_eq_envTurn hu] at h; exact envTurn_params h

theorem drive_params {ts : List Turn} (h : drive p ts s = .next t) : t.params = s.params :=
  drive_keeps (P := fun u => u.params = s.params) (fun _ _ hu => hu)
    (fun _ _ _ hu _ hturn => (turn_params hturn).trans hu) ts s t rfl h

theorem runCommand_params {op : Op} {bytes : List Byte} (h : runCommand op bytes p s = .next t) :
    t.params = s.params := by
  obtain rfl | ⟨r, -, -, rfl⟩ | ⟨-, -, hd⟩ | ⟨-, -, hd⟩ := runCommand_next h
  · exact State.holdCommand_params ..
  · rw [State.raise_params, State.accept_params]
  · rw [drive_params hd, State.accept_params]
  · exact drive_params hd

theorem exec_params {i : Instr} (h : exec i s = .next t) : t.params = s.params := by
  obtain ⟨op, p, -, he⟩ | ⟨x, -, he⟩ := exec_command_or_exchange i
  · rw [he] at h; exact runCommand_params h
  · rw [he] at h; exact masterExchange_params h

theorem fetchBlock_run_params {i : Instr} {u : State} (h : fetchBlock s = .run i u) : u.params = s.params := by
  obtain ⟨_, _, _, -, -, -, rfl⟩ | ⟨_, _, -, -, -, rfl⟩ := fetchBlock_run h <;> rfl

theorem fetchBlock_done_params (h : fetchBlock s = .done (.next t)) : t.params = s.params := by
  obtain ⟨-, -, rfl⟩ | ⟨_, _, _, -, -, -, rfl⟩ := fetchBlock_done h <;> rfl

/-- A step of any agent, block reset among them, keeps the parameters (R242). -/
theorem step_params (h : step s = .next t) : t.params = s.params := by
  obtain ⟨-, ⟨i, u, hf, he⟩ | hf⟩ | ⟨u, ts, -, -, he⟩ := step_next h
  · exact (exec_params he).trans (fetchBlock_run_params hf :)
  · exact (fetchBlock_done_params hf :)
  · exact (envTurn_params he :)

/-! ## The table is a finite partial function -/

variable (q : Params)

@[simp] theorem timingTable_documented : timingTable q 8 125 = some q.timing8x125 := rfl

@[simp] theorem timingTable_osc_zero (rate : BitVec 16) : timingTable q 0 rate = none := by
  simp [timingTable]

@[simp] theorem timingTable_rate_zero (osc : Byte) : timingTable q osc 0 = none := by
  simp [timingTable]

/-- The pairs at which the table can have an entry: (8, 125) and those the parameters list. -/
def timingDomain : List (Byte × BitVec 16) := (8, 125) :: q.otherTimings.map fun e => (e.osc, e.rate)

theorem timingTable_mem_domain {osc : Byte} {rate : BitVec 16} (h : timingTable q osc rate ≠ none) :
    (osc, rate) ∈ timingDomain q := by
  unfold timingTable at h
  split at h
  next hdoc =>
    obtain ⟨rfl, rfl⟩ := hdoc
    exact List.mem_cons_self
  next =>
    split at h
    next => exact absurd rfl h
    next =>
      simp only [ne_eq, Option.map_eq_none_iff, List.find?_eq_none, decide_eq_true_eq, not_forall, not_not] at h
      obtain ⟨e, he, rfl, rfl⟩ := h
      exact List.mem_cons_of_mem _ (List.mem_map_of_mem he)

/-- Settles O37: the table is read from the parameters alone, and every step keeps those. -/
theorem timingTableConstraints : Obligations.TimingTableConstraints := fun s =>
  ⟨⟨_, timingTable_documented s.params⟩, timingTable_osc_zero s.params, timingTable_rate_zero s.params,
    ⟨timingDomain s.params, fun _ _ => timingTable_mem_domain s.params⟩,
    fun _ h _ _ => by rw [step_params h]⟩

end Sys2Proof.Machine
end

