-- ==== Sys2Proof/Proofs/Registers.lean ====
section
/-!
SUPPORT. The registers of the MCP2515 by their literal addresses: where each is kept, what it reads as, which bits a WRITE
changes, what a WRITE within a transmit buffer leaves; and when an exchange has its ordinary effect.
-/

namespace Sys2Proof.Machine

/-! ## Addresses -/

theorem txbBase_mcp2515 {n : Nat} (hn : n < 3) : txbBase .mcp2515 n = txBase n := by
  obtain rfl | rfl | rfl : n = 0 ∨ n = 1 ∨ n = 2 := by omega
  all_goals rfl

theorem rxbBase_mcp2515 {n : Nat} (hn : n < 2) : rxbBase .mcp2515 n = rxBase n := by
  obtain rfl | rfl : n = 0 ∨ n = 1 := by omega
  all_goals rfl

theorem home_txBase {n off : Nat} (hn : n < 3) (h : off ≤ 13) : home .mcp2515 (txBase n + off) = txBase n + off :=
  txbBase_mcp2515 hn ▸ home_txb hn h

theorem home_rxBase {n off : Nat} (hn : n < 2) (h : off ≤ 13) : home .mcp2515 (rxBase n + off) = rxBase n + off :=
  rxbBase_mcp2515 hn ▸ home_rxb hn h

theorem txbOffset_txBase {n off : Nat} (hn : n < 3) (h : off ≤ 13) : txbOffset .mcp2515 (txBase n + off) = some off :=
  txbBase_mcp2515 hn ▸ txbOffset_txb hn h

theorem txbOffset_rxBase {n : Nat} (off : Nat) (hn : n < 2) : txbOffset .mcp2515 (rxBase n + off) = none :=
  rxbBase_mcp2515 hn ▸ txbOffset_rxb hn

/-- The registers below the transmit buffers belong to none. -/
theorem txbOffset_low {h : Nat} (hh : h < 0x30) : txbOffset .mcp2515 h = none := by
  have below : ∀ base, 0x30 ≤ base → offsetIn .mcp2515 base h = none := fun base hb =>
    offsetIn_not_mem (.inl (Nat.lt_of_lt_of_le hh hb))
  rw [txbOffset, below _ (by decide), below _ (by decide), below _ (by decide)]
  rfl

/-! ## What a register reads as -/

/-- All but TXBnCTRL, RXB0CTRL and CNF3 read as they are kept. -/
theorem peerByte_raw {c : Chip} {a : Nat} (m : Memory) (ht : txbOffset c (home c a) ≠ some c.offCtrl)
    (hr : home c a ≠ c.rxb0 + c.offCtrl) (hc : home c a ≠ c.regCnf3) : peerByte c m a = m.read (home c a) := by
  simp only [peerByte, if_neg ht, if_neg hr, if_neg hc]

/-- The identifier, DLC and data registers of a transmit buffer read as they are kept. -/
theorem reg_txBase {n off : Nat} (m : Memory) (hn : n < 3) (h1 : 1 ≤ off) (h : off ≤ 13) :
    reg m (txBase n + off) = m.read (txBase n + off) := by
  have hh := home_txBase hn h
  have ht : txbOffset .mcp2515 (txBase n + off) ≠ some Chip.mcp2515.offCtrl := by
    rw [txbOffset_txBase hn h]
    exact fun e => absurd (Option.some.inj e) (Nat.pos_iff_ne_zero.mp h1)
  have hr : txBase n + off ≠ 0x60 := by unfold txBase; omega
  have hc : txBase n + off ≠ 0x28 := by unfold txBase; omega
  rw [reg, peerByte_raw m (by rwa [hh]) (by rwa [hh]) (by rwa [hh]), hh]

/-- The registers of a receive buffer, RXB0CTRL apart, read as they are kept. -/
theorem reg_rxBase {n off : Nat} (m : Memory) (hn : n < 2) (h : off ≤ 13) (h0 : rxBase n + off ≠ 0x60) :
    reg m (rxBase n + off) = m.read (rxBase n + off) := by
  have hh := home_rxBase hn h
  have ht : txbOffset .mcp2515 (rxBase n + off) ≠ some Chip.mcp2515.offCtrl := by
    rw [txbOffset_rxBase off hn]
    exact nofun
  have hc : rxBase n + off ≠ 0x28 := by unfold rxBase; omega
  rw [reg, peerByte_raw m (by rwa [hh]) (by rwa [hh]) (by rwa [hh]), hh]

/-- TXBnCTRL reads without its unimplemented bits (R29). -/
theorem reg_txbCtrl {n : Nat} (m : Memory) (hn : n < 3) : reg m (txBase n) = m.read (txBase n) &&& 0x7B := by
  have hh := home_txBase hn (Nat.zero_le 13)
  have ho := txbOffset_txBase hn (Nat.zero_le 13)
  rw [Nat.add_zero] at hh ho
  simp only [reg, peerByte, hh, ho]
  rfl

/-! ## Writable bits -/

theorem writableMask_txBase {n off : Nat} (config : Bool) (hn : n < 3) (h : off ≤ 13) :
    writableMask .mcp2515 config (txBase n + off) = txbWritable .mcp2515 off := by
  simp only [writableMask, txbOffset_txBase hn h]

theorem txbWritable_mcp2515 (off : Nat) : txbWritable .mcp2515 off =
    if off = 0 then 0x7B else if off = 2 then 0xEB else if off = 5 then 0x4F else 0xFF := rfl

theorem writableMask_cnf : ∀ config, ∀ a ∈ [0x28, 0x29, 0x2A],
    writableMask .mcp2515 config (homeOf a) = (if config = false then 0x00 else if a = 0x28 then 0xC7 else 0xFF) := by
  decide

theorem writableMask_whole (config : Bool) : ∀ a < 0x2D,
    (a < 0x0C ∨ a = 0x0F ∨ (0x10 ≤ a ∧ a < 0x1C) ∨ (0x20 ≤ a ∧ a < 0x28) ∨ a = 0x2B ∨ a = 0x2C) →
    writableMask .mcp2515 config (homeOf a) = 0xFF := by
  cases config <;> decide

/-- Of RXBnCTRL a WRITE changes RXM, of RXB0CTRL BUKT too, whatever it does to FILHIT. -/
theorem rxbCtrl_writable (config : Bool) :
    writableMask .mcp2515 config (homeOf 0x60) &&& 0xFE = 0x64 ∧
    writableMask .mcp2515 config (homeOf 0x70) &&& 0xF8 = 0x60 := by
  have h0 : ∀ free : Byte, (0x60 ||| 0x04 ||| (free &&& 0x01)) &&& ~~~0x08 &&& 0xFE = (0x64 : Byte) := by decide
  have h1 : ∀ free : Byte, (0x60 ||| (free &&& 0x07)) &&& ~~~0x08 &&& 0xF8 = (0x60 : Byte) := by decide
  exact ⟨h0 (Config.writableUnstated 0x60), h1 (Config.writableUnstated 0x70)⟩

/-! ## A WRITE within a transmit buffer -/

section
variable {m : Memory} {b start : Nat} {ds : List Byte}

/-- A register outside the addresses of a WRITE within a transmit buffer keeps its byte. -/
theorem read_writeRegisters_outside (hb : b < 3) (hlen : start + ds.length ≤ 14) {h : Nat}
    (hh : h < txBase b + start ∨ txBase b + start + ds.length ≤ h) :
    (writeRegisters .mcp2515 m (txBase b + start) ds).read h = m.read h := by
  refine read_writeBurst_other _ fun i hi => ?_
  rw [Nat.add_assoc, home_txBase hb (by omega)]
  omega

/-- A register that it reaches takes its byte in the writable bits (R191). -/
theorem read_writeRegisters_inside (hm : m.wf = true) (hb : b < 3) (hlen : start + ds.length ≤ 14) {i : Nat}
    (hi : i < ds.length) :
    (writeRegisters .mcp2515 m (txBase b + start) ds).read (txBase b + (start + i)) =
      mergeBits (txbWritable .mcp2515 (start + i)) (m.read (txBase b + (start + i))) ds[i] := by
  have hhome : ∀ j < ds.length, home .mcp2515 (txBase b + start + j) = txBase b + (start + j) := fun j hj => by
    rw [Nat.add_assoc, home_txBase hb (by omega)]
  have hread := read_writeBurst_at hm (configurationMode .mcp2515 m) (c := .mcp2515) (a := txBase b + start) hi
    (fun j hij hj => by rw [hhome i hi, hhome j hj]; omega)
  rwa [hhome i hi, writableMask_txBase _ hb (by omega)] at hread

/-- What the register at offset `off` of transmit buffer `n` holds after a WRITE to buffer `b`, from what it held. -/
def writtenByte (b start : Nat) (ds : List Byte) (n off : Nat) (old : Byte) : Byte :=
  if n = b ∧ start ≤ off ∧ off < start + ds.length then
    mergeBits (txbWritable .mcp2515 off) old (ds.getD (off - start) 0)
  else old

theorem writtenByte_other {n : Nat} (hn : n ≠ b) (off : Nat) (old : Byte) : writtenByte b start ds n off old = old :=
  if_neg fun h => hn h.1

theorem writtenByte_outside {off : Nat} (h : off < start ∨ start + ds.length ≤ off) (n : Nat) (old : Byte) :
    writtenByte b start ds n off old = old :=
  if_neg fun ⟨_, hle, hlt⟩ => by omega

theorem reg_writeRegisters (hm : m.wf = true) (hb : b < 3) (hlen : start + ds.length ≤ 14) {n off : Nat} (hn : n < 3)
    (h1 : 1 ≤ off) (h : off ≤ 13) :
    reg (writeRegisters .mcp2515 m (txBase b + start) ds) (txBase n + off) =
      writtenByte b start ds n off (reg m (txBase n + off)) := by
  rw [reg_txBase _ hn h1 h, reg_txBase _ hn h1 h, writtenByte]
  split
  next hin =>
    obtain ⟨rfl, hle, hlt⟩ := hin
    obtain ⟨i, rfl⟩ := Nat.exists_eq_add_of_le hle
    have hi : i < ds.length := by omega
    rw [read_writeRegisters_inside hm hb hlen hi, Nat.add_sub_cancel_left, List.getD_eq_getElem _ _ hi]
  next hout =>
    refine read_writeRegisters_outside hb hlen ?_
    simp only [txBase]
    omega

end

/-! ## Awake -/

section
variable {q : Params} {m : Memory}

/-- The MCP2515 is awake as long as OPMOD does not say Sleep, or its interface is active there (R230). -/
theorem asleep_eq_false (hq : q.chip = .mcp2515) :
    asleep q m = false ↔ q.spiActiveInSleep = true ∨ m.read 0x0E &&& 0xE0 ≠ 0x20 := by
  have hs : sleeping q.chip m = decide (m.read 0x0E &&& 0xE0 = 0x20) := by rw [hq]; rfl
  rw [asleep, hs]
  cases q.spiActiveInSleep <;> simp

/-- A WRITE within a transmit buffer does not put the chip to Sleep. -/
theorem awake_writeRegisters (hq : q.chip = .mcp2515) {b start : Nat} {ds : List Byte} (hb : b < 3)
    (hlen : start + ds.length ≤ 14) (ha : asleep q m = false) :
    asleep q (writeRegisters .mcp2515 m (txBase b + start) ds) = false := by
  rw [asleep_eq_false hq] at ha ⊢
  rwa [read_writeRegisters_outside hb hlen (.inl (by simp only [txBase]; omega))]

end

theorem toNat_txbAddress {buf : BitVec 2} (hb : buf.toNat < 3) {off : Nat} (h : off ≤ 13) :
    (txbAddress .mcp2515 buf off).toNat = txBase buf.toNat + off := by
  rw [txbAddress, txbBase_mcp2515 hb, BitVec.toNat_ofNat]
  exact Nat.mod_eq_of_lt (by simp only [txBase]; omega)

/-! ## The statement -/

/-- Settles O42: each clause is a lemma about `writableMask` at the registers it names. -/
theorem writableBitsOfTheBuffers : Obligations.WritableBitsOfTheBuffers := by
  intro config
  refine ⟨fun n off hn h => ?_, fun n off hn h1 h => ?_, (rxbCtrl_writable config).1, (rxbCtrl_writable config).2,
    writableMask_cnf config, fun a ha => writableMask_whole config a (by omega) ha⟩
  · rw [homeOf, home_txBase hn h, writableMask_txBase config hn h, txbWritable_mcp2515]
  · rw [homeOf, home_rxBase hn h, ← rxbBase_mcp2515 hn]
    exact writableMask_rxb hn h (by omega) config

end Sys2Proof.Machine
end

