-- ==== Sys2Proof/Proofs/ChipTurns.lean ====
section
/-!
SUPPORT. A turn of the chip (R30): what one change does to each register, what every turn keeps, and the statement about it.
-/

namespace Sys2Proof.Machine

variable {c : Chip} {m : Memory}

/-! ## One change of the chip -/

theorem read_chipStore_other {a h : Nat} (v : Byte) (hh : h ≠ home c a) :
    (chipStore c m a v).read h = m.read h := by
  unfold chipStore
  split
  · rfl
  · split
    next hi => exact Memory.read_write_other (hi ▸ hh)
    next => exact Memory.read_write_other hh

theorem chipStore_unimplemented {a : Nat} (v : Byte) (ha : c.size ≤ a) : chipStore c m a v = m := if_pos ha

theorem read_chipStore_same (hm : m.wf = true) {a : Nat} (v : Byte) (ha : a < c.size) (hi : home c a ≠ c.regCanintf) :
    (chipStore c m a v).read (home c a) = mergeBits (chipMask c (home c a)) (m.read (home c a)) v := by
  rw [chipStore, if_neg (Nat.not_le.mpr ha), if_neg hi, Memory.read_write_same hm]

theorem read_chipStore_canintf (hm : m.wf = true) {a : Nat} (v : Byte) (ha : a < c.size)
    (hi : home c a = c.regCanintf) :
    (chipStore c m a v).read c.regCanintf = v ||| (m.read c.regCanintf &&& (c.rxif0 ||| c.rxif1)) := by
  rw [chipStore, if_neg (Nat.not_le.mpr ha), if_pos hi, Memory.read_write_same hm]

/-- Outside the transmit buffers the chip may change every bit (R30 (d)). -/
theorem chipMask_of_no_txb {h : Nat} (ht : txbOffset c h = none) : chipMask c h = 0xFF := by
  rw [chipMask, ht]

/-- A register that is no transmit buffer's and not CANINTF takes the value the chip gives it. -/
theorem read_chipStore_free (hm : m.wf = true) {a : Nat} (v : Byte) (ha : a < c.size) (hi : home c a ≠ c.regCanintf)
    (ht : txbOffset c (home c a) = none) : (chipStore c m a v).read (home c a) = v := by
  rw [read_chipStore_same hm v ha hi, chipMask_of_no_txb ht, mergeBits_ones]

/-- A merge leaves the bits outside its mask. -/
theorem mergeBits_and_of_disjoint {mask k : Byte} (h : mask &&& k = 0) (old new : Byte) :
    mergeBits mask old new &&& k = old &&& k := by
  apply BitVec.eq_of_getLsbD_eq
  intro i _
  have hi := congrArg (fun x => x.getLsbD i) h
  simp only [BitVec.getLsbD_and, BitVec.getLsbD_zero, BitVec.ofNat_eq_ofNat] at hi
  simp only [BitVec.getLsbD_and, getLsbD_mergeBits]
  cases hmask : mask.getLsbD i
  · rfl
  · rw [hmask, Bool.true_and] at hi
    simp [hi]

/-! ## What every change keeps, a turn of the chip keeps -/

theorem chipStep_keeps {P : Memory → Prop} {changes : List Host.Cell}
    (hstore : ∀ u, ∀ e ∈ changes, u.wf = true → P u → P (chipStore c u e.1 e.2)) (hm : m.wf = true) (h : P m) :
    P (chipStep c m changes) := by
  induction changes generalizing m with
  | nil => exact h
  | cons e es ih =>
    exact ih (fun u e' he' => hstore u e' (List.mem_cons_of_mem _ he')) (chipStore_wf hm e.1 e.2)
      (hstore m e List.mem_cons_self hm h)

/-- The bits that are not the chip's to change keep their values (R30). -/
theorem read_chipStep_and (hm : m.wf = true) (changes : List Host.Cell) {h : Nat} {k : Byte}
    (hk : chipMask c h &&& k = 0) (hh : h ≠ c.regCanintf) : (chipStep c m changes).read h &&& k = m.read h &&& k := by
  refine chipStep_keeps (P := fun u => u.read h &&& k = m.read h &&& k) (fun u e _ hu ih => ?_) hm rfl
  by_cases ha : c.size ≤ e.1
  · rwa [chipStore_unimplemented e.2 ha]
  · by_cases heq : h = home c e.1
    · subst heq
      rwa [read_chipStore_same hu e.2 (Nat.not_le.mp ha) hh, mergeBits_and_of_disjoint hk]
    · rwa [read_chipStore_other e.2 heq]

/-- A receive flag that is set stays set (R30 (b)). -/
theorem read_chipStep_flag (hm : m.wf = true) (changes : List Host.Cell) {k : Byte}
    (hk : (c.rxif0 ||| c.rxif1) &&& k = k) (h : m.read c.regCanintf &&& k ≠ 0) :
    (chipStep c m changes).read c.regCanintf &&& k ≠ 0 := by
  refine chipStep_keeps (P := fun u => u.read c.regCanintf &&& k ≠ 0) (fun u e _ hu ih => ?_) hm h
  by_cases ha : c.size ≤ e.1
  · rwa [chipStore_unimplemented e.2 ha]
  · by_cases heq : home c e.1 = c.regCanintf
    · rw [read_chipStore_canintf hu e.2 (Nat.not_le.mp ha) heq, BitVec.and_or_distrib_right, BitVec.and_assoc, hk]
      exact fun h0 => ih (BitVec.or_eq_zero_iff.mp h0).2
    · rwa [read_chipStore_other e.2 (Ne.symm heq)]

/-! ## A turn of the MCP2515 -/

theorem chipMask_txBase {n off : Nat} (hn : n < 3) (h : off ≤ 13) :
    chipMask .mcp2515 (txBase n + off) = if off = 0 then 0x78 else 0x00 := by
  rw [chipMask, txbOffset_txBase hn h]
  rfl

theorem txBase_ne_canintf (n off : Nat) : txBase n + off ≠ Chip.mcp2515.regCanintf :=
  Nat.ne_of_gt (by simp only [txBase, Chip.mcp2515]; omega)

/-- The chip changes no identifier, DLC or data register of a transmit buffer (R30 (c)). -/
theorem reg_chipStep_txBase (hm : m.wf = true) (changes : List Host.Cell) {n off : Nat} (hn : n < 3) (h1 : 1 ≤ off)
    (h : off ≤ 13) : reg (chipStep .mcp2515 m changes) (txBase n + off) = reg m (txBase n + off) := by
  have hk : chipMask .mcp2515 (txBase n + off) &&& 0xFF = 0 := by
    rw [chipMask_txBase hn h, if_neg (by omega)]
    rfl
  have hread := read_chipStep_and hm changes hk (txBase_ne_canintf n off)
  rwa [and_ones, and_ones, ← reg_txBase _ hn h1 h, ← reg_txBase _ hn h1 h] at hread

/-- Of TXBnCTRL the chip changes at most bits 6 to 3 (R30 (c)). -/
theorem reg_chipStep_txbCtrl (hm : m.wf = true) (changes : List Host.Cell) {n : Nat} (hn : n < 3) :
    reg (chipStep .mcp2515 m changes) (txBase n) &&& 0x87 = reg m (txBase n) &&& 0x87 := by
  have hk : chipMask .mcp2515 (txBase n) &&& (0x7B &&& 0x87) = 0 := by
    rw [← Nat.add_zero (txBase n), chipMask_txBase hn (Nat.zero_le _)]
    rfl
  rw [reg_txbCtrl _ hn, reg_txbCtrl _ hn, BitVec.and_assoc, BitVec.and_assoc]
  exact read_chipStep_and hm changes hk (txBase_ne_canintf n 0)

/-- The chip clears no receive flag (R30 (b)). -/
theorem rxFlag_chipStep (hm : m.wf = true) (changes : List Host.Cell) (n : Nat) (h : rxFlag .mcp2515 m n = true) :
    rxFlag .mcp2515 (chipStep .mcp2515 m changes) n = true := by
  have hk : (Chip.mcp2515.rxif0 ||| Chip.mcp2515.rxif1) &&& rxifMask .mcp2515 n = rxifMask .mcp2515 n := by
    cases n with
    | zero => decide
    | succ n => exact (by decide : (0x01 ||| 0x02) &&& 0x02 = (0x02 : Byte))
  rw [rxFlag, decide_eq_true_eq] at h ⊢
  exact read_chipStep_flag hm changes hk h

/-- The chip gives a register of a receive buffer any value (R30 (a)); RXB0CTRL has a copied bit. -/
theorem reg_chipStore_rxBase (hm : m.wf = true) {n off : Nat} (v : Byte) (hn : n < 2) (h : off ≤ 13)
    (h0 : rxBase n + off ≠ 0x60) : reg (chipStore .mcp2515 m (rxBase n + off) v) (rxBase n + off) = v := by
  have hh := home_rxBase hn h
  have hsize : rxBase n + off < Chip.mcp2515.size := by simp only [rxBase, Chip.mcp2515]; omega
  have hi : home .mcp2515 (rxBase n + off) ≠ Chip.mcp2515.regCanintf := by
    rw [hh]
    exact Nat.ne_of_gt (by simp only [rxBase, Chip.mcp2515]; omega)
  have ht : txbOffset .mcp2515 (home .mcp2515 (rxBase n + off)) = none := by rw [hh, txbOffset_rxBase off hn]
  have hread := read_chipStore_free hm v hsize hi ht
  rw [hh] at hread
  rw [reg_rxBase _ hn h h0, hread]

/-- BUKT1 of RXB0CTRL reads as BUKT (R29). -/
theorem copyBukt_mcp2515 : ∀ raw : Byte, copyBukt .mcp2515 raw = (raw &&& 0xFD) ||| ((raw &&& 0x04) >>> 1) := by
  decide

theorem reg_chipStore_rxb0Ctrl (hm : m.wf = true) (v : Byte) :
    reg (chipStore .mcp2515 m 0x60 v) 0x60 = (v &&& 0xFD) ||| ((v &&& 0x04) >>> 1) :=
  calc reg (chipStore .mcp2515 m 0x60 v) 0x60
      = copyBukt .mcp2515 ((chipStore .mcp2515 m 0x60 v).read 0x60) := rfl
    _ = copyBukt .mcp2515 v :=
      congrArg _ (read_chipStore_free (c := .mcp2515) (a := 0x60) hm v (by decide) (by decide) (by decide))
    _ = _ := copyBukt_mcp2515 v

/-- The chip sets and clears every flag of CANINTF but the two it never clears (R30 (b)). -/
theorem reg_chipStore_canintf (hm : m.wf = true) (v : Byte) :
    reg (chipStore .mcp2515 m 0x2C v) 0x2C = v ||| (reg m 0x2C &&& 0x03) :=
  read_chipStore_canintf (c := .mcp2515) (a := 0x2C) hm v (by decide) (by decide)

/-- The chip gives TXREQ, ABTF, MLOA and TXERR any value (R30 (c)). -/
theorem reg_chipStore_txbCtrl (hm : m.wf = true) {n : Nat} (v : Byte) (hn : n < 3) :
    reg (chipStore .mcp2515 m (txBase n) v) (txBase n) = (v &&& 0x78) ||| (reg m (txBase n) &&& 0x87) := by
  have hh := home_txBase hn (Nat.zero_le 13)
  rw [Nat.add_zero] at hh
  have hsize : txBase n < Chip.mcp2515.size := by simp only [txBase, Chip.mcp2515]; omega
  have hread := read_chipStore_same hm v hsize (by rw [hh]; exact txBase_ne_canintf n 0)
  rw [hh, ← Nat.add_zero (txBase n), chipMask_txBase hn (Nat.zero_le _), if_pos rfl, Nat.add_zero] at hread
  rw [reg_txbCtrl _ hn, reg_txbCtrl _ hn, hread, mergeBits, BitVec.and_or_distrib_right, BitVec.or_comm]
  simp only [BitVec.and_assoc]
  rfl

/-- The chip gives every other register any value (R30 (d)). -/
theorem read_chipStore_other_register (hm : m.wf = true) {a : Nat} (v : Byte)
    (ha : a < 0x2C ∨ a = 0x2D ∨ a = 0x2E ∨ a = 0x2F) : (chipStore .mcp2515 m a v).read (homeOf a) = v := by
  have hlow : homeOf a < 0x30 := home_lt (by omega)
  have hsize : a < Chip.mcp2515.size := Nat.lt_of_lt_of_le (m := 0x30) (by omega) (by decide)
  have hi : home .mcp2515 a ≠ Chip.mcp2515.regCanintf := by
    unfold home
    split
    · decide
    · split
      · decide
      · exact (by omega : a ≠ 0x2C)
  exact read_chipStore_free hm v hsize hi (txbOffset_low hlow)

/-- A turn of the chip that does not put it to Sleep leaves it awake. -/
theorem awake_chipStep {q : Params} (hq : q.chip = .mcp2515) (hm : m.wf = true) {changes : List Host.Cell}
    (hc : q.spiActiveInSleep = true ∨ ∀ e ∈ changes, homeOf e.1 = 0x0E → e.2 &&& 0xE0 ≠ 0x20)
    (ha : asleep q m = false) : asleep q (chipStep .mcp2515 m changes) = false := by
  rw [asleep_eq_false hq] at ha ⊢
  obtain hspi | hc := hc
  · exact .inl hspi
  · refine ha.imp_right fun hopmod => ?_
    refine chipStep_keeps (P := fun u => u.read 0x0E &&& 0xE0 ≠ 0x20) (fun u e he hu ih => ?_) hm hopmod
    by_cases hsize : Chip.mcp2515.size ≤ e.1
    · rwa [chipStore_unimplemented e.2 hsize]
    · by_cases hhome : home .mcp2515 e.1 = 0x0E
      · have hread := read_chipStore_free hu e.2 (Nat.not_le.mp hsize) (by rw [hhome]; decide) (by rw [hhome]; decide)
        rw [hhome] at hread
        rw [hread]
        exact hc e he hhome
      · rwa [read_chipStore_other e.2 (Ne.symm hhome)]

/-- A turn of the chip is a step that changes the peer alone. -/
theorem step_chip {s : State} {changes : List Host.Cell} {ts : List Turn} (h : s.agenda = .chip changes :: ts) :
    step s = .next { s with peer := chipStep s.params.chip s.peer changes, agenda := ts } :=
  step_other h nofun

/-- Settles O52: each clause of R30 is a lemma about the change or the list of changes. -/
theorem chipStepKeepsToItsRule : Obligations.ChipStepKeepsToItsRule := by
  intro s changes ts hchip hm hag
  refine ⟨_, step_chip hag, rfl, ?_⟩
  rw [show s.params.chip = .mcp2515 from hchip]
  refine ⟨fun n off hn h1 h => reg_chipStep_txBase hm changes hn h1 h, fun n hn => reg_chipStep_txbCtrl hm changes hn,
    fun n _ h => rxFlag_chipStep hm changes n h, ?_, ?_, ?_, ?_, ?_, ?_⟩
  · rintro n off v hn h1 h rfl
    exact reg_chipStore_rxBase hm v hn h (by unfold rxBase; omega)
  · rintro v rfl
    exact reg_chipStore_rxb0Ctrl hm v
  · rintro v rfl
    exact reg_chipStore_rxBase (n := 1) (off := 0) hm v (by decide) (by decide) (by decide)
  · rintro v rfl
    exact reg_chipStore_canintf hm v
  · rintro n v hn rfl
    exact reg_chipStore_txbCtrl hm v hn
  · rintro a v ha rfl
    exact read_chipStore_other_register hm v ha

end Sys2Proof.Machine
end

