-- ==== Sys2Proof/Proofs/Invariant.lean ====
section
/-!
SUPPORT. The invariant: each operation keeps it, so each agent and each step does. A busy block's LATCH holds a command that
decodes, because what the structural check lets through of an encoded command decodes to it.
-/

namespace Sys2Proof

theorem commandOf_encodeFrame (kind : FrameKind) (type : FrameType) (buf : BitVec 2) (id : BitVec 32)
    (data : List Byte) :
    commandOf (headerByte 1 buf) (f0Byte kind type data.length :: (idBytes id ++ data)) =
      .ok (encodeVariant kind type buf id data) := by
  simp [commandOf, idBytes, idOf_idBytes]

theorem commandOf_sendFrame (kind : FrameKind) (type : FrameType) (buf : BitVec 2) (id : BitVec 32)
    (data : List Byte) :
    commandOf (headerByte 3 buf) (f0Byte kind type data.length :: (idBytes id ++ data)) =
      .ok (sendVariant kind type buf id data) := by
  simp [commandOf, idBytes, idOf_idBytes]

/-- A command string that passes the structural check is read by its operands alone (R90). -/
theorem decodeCommand_of_check {h : Byte} {ops : List Byte} (hc : structuralCheck (h :: ops) = none) :
    decodeCommand (h :: ops) = commandOf h ops := by
  rw [decodeCommand, hc]

/-- What the structural check lets through of an encoded command, well formed or not, decodes to that command. -/
theorem decodeCommand_encode {i : Instr} (hport : i.port = .command) (hc : structuralCheck (encode i) = none) :
    decodeCommand (encode i) = .ok i := by
  cases i with
  | encodeStdData buf id data => exact (decodeCommand_of_check hc).trans (commandOf_encodeFrame .std .data buf id data)
  | encodeExtData buf id data => exact (decodeCommand_of_check hc).trans (commandOf_encodeFrame .ext .data buf id data)
  | encodeStdRtr buf id data => exact (decodeCommand_of_check hc).trans (commandOf_encodeFrame .std .remote buf id data)
  | encodeExtRtr buf id data => exact (decodeCommand_of_check hc).trans (commandOf_encodeFrame .ext .remote buf id data)
  | sendStdData buf id data => exact (decodeCommand_of_check hc).trans (commandOf_sendFrame .std .data buf id data)
  | sendExtData buf id data => exact (decodeCommand_of_check hc).trans (commandOf_sendFrame .ext .data buf id data)
  | sendStdRtr buf id data => exact (decodeCommand_of_check hc).trans (commandOf_sendFrame .std .remote buf id data)
  | sendExtRtr buf id data => exact (decodeCommand_of_check hc).trans (commandOf_sendFrame .ext .remote buf id data)
  | trigger buf => exact (decodeCommand_of_check hc).trans (by simp [commandOf])
  | decode buf => exact (decodeCommand_of_check hc).trans (by simp [commandOf])
  | timing osc rate => exact (decodeCommand_of_check hc).trans (by simp [commandOf, rateOf_bytes])
  | wrctrl v => exact (decodeCommand_of_check hc).trans (by simp [commandOf])
  | spiRead | spiWrite | spiBitModify | spiReset | spiReadStatus | spiRxStatus | spiReadRxb | spiLoadTxb | spiRts =>
    simp [Instr.port, Instr.exchange?] at hport

end Sys2Proof
namespace Sys2Proof.Machine

/-- An instruction that SEQ names an operation for arrives at the command port (R80, R85). -/
theorem port_of_opOf {i : Instr} {op : Op} (h : opOf i = some op) : i.port = .command := by
  revert h
  cases i <;> simp [opOf, Instr.port, Instr.exchange?]

variable {s t : State}

/-! ## The clauses of the invariant -/

theorem responseOk_error (e : Error) : responseOk { valid := true, bytes := some [e.status] } = true := by
  cases e with
  | illegal r => cases r <;> decide
  | _ => decide

theorem responseOk_ok (bytes : List Byte) : responseOk { valid := true, bytes := some (statusOk :: bytes) } = true := rfl

theorem responseOk_taken {r : Resp} (h : responseOk r = true) :
    responseOk { valid := false, bytes := r.bytes } = true := by
  obtain ⟨valid, bytes⟩ := r
  cases bytes with
  | none => rfl
  | some bs => cases bs <;> exact h

theorem ctrlWritten_and_fe (v : Byte) : ctrlWritten v &&& 0xFE = 0 := by
  revert v
  decide

theorem sequencerOk_idle (hseq : s.seq = .idle) (hl : s.latch = none) (hg : s.got = []) : sequencerOk s = true := by
  rw [sequencerOk, hseq, hl, hg]
  rfl

/-- While SEQ is busy, LATCH holds a command of its operation and no response waits. -/
theorem sequencerOk_busy {op : Op} {k : Nat} (hseq : s.seq = .busy op k) :
    sequencerOk s = true ↔
      s.resp.valid = false ∧ ∃ bytes i, s.latch = some bytes ∧ decodeCommand bytes = .ok i ∧ opOf i = some op := by
  rw [sequencerOk, hseq]
  cases hl : s.latch with
  | none => simp
  | some bytes => cases hd : decodeCommand bytes <;> simp [hd]

/-! ## Each operation keeps the invariant -/

theorem Inv.setAgenda (h : Inv s) (ts : List Turn) : Inv { s with agenda := ts } :=
  ⟨h.chip, h.peerWf, h.peerKeys, h.ctrl, h.sequencer, h.bus, h.response⟩

theorem Inv.setPort (h : Inv s) (cmds : List (List Byte)) : Inv { s with port := cmds } :=
  ⟨h.chip, h.peerWf, h.peerKeys, h.ctrl, h.sequencer, h.bus, h.response⟩

theorem Inv.setDraws (h : Inv s) (d : Nat) : Inv { s with draws := d } :=
  ⟨h.chip, h.peerWf, h.peerKeys, h.ctrl, h.sequencer, h.bus, h.response⟩

theorem Inv.setCtrl (h : Inv s) (v : Byte) : Inv { s with ctrl := ctrlWritten v } :=
  ⟨h.chip, h.peerWf, h.peerKeys, ctrlWritten_and_fe v, h.sequencer, h.bus, h.response⟩

theorem Inv.complete (h : Inv s) {bytes : List Byte} (hr : responseOk { valid := true, bytes := some bytes } = true) :
    Inv (s.complete bytes) :=
  ⟨h.chip, h.peerWf, h.peerKeys, h.ctrl, sequencerOk_idle rfl rfl rfl, h.bus, hr⟩

theorem Inv.raise (h : Inv s) (e : Error) : Inv (s.raise e) := h.complete (responseOk_error e)

theorem Inv.respond (h : Inv s) (bytes : List Byte) : Inv (s.respond bytes) := h.complete (responseOk_ok bytes)

theorem Inv.takeResponse (h : Inv s) : Inv s.takeResponse where
  chip := h.chip
  peerWf := h.peerWf
  peerKeys := h.peerKeys
  ctrl := h.ctrl
  sequencer := by
    have hs := h.sequencer
    cases hseq : s.seq with
    | idle =>
      rw [sequencerOk, hseq] at hs
      rwa [sequencerOk, State.takeResponse_seq, hseq]
    | busy op k => exact (sequencerOk_busy (s := s.takeResponse) hseq).mpr ⟨rfl, ((sequencerOk_busy hseq).mp hs).2⟩
  bus := h.bus
  response := responseOk_taken h.response

theorem Inv.blockReset (h : Inv s) : Inv s.blockReset where
  chip := h.chip
  peerWf := h.peerWf
  peerKeys := h.peerKeys
  ctrl := (by decide : (0x00 : Byte) &&& 0xFE = 0)
  sequencer := sequencerOk_idle rfl rfl rfl
  bus := by rw [State.blockReset_bus, if_neg h.bus]; exact h.bus
  response := rfl

/-- Accepting a command that decodes keeps the invariant, at a ready block (R86). -/
theorem Inv.accept (h : Inv s) (hready : Ready s) {bytes : List Byte} {i : Instr} {op : Op}
    (hd : decodeCommand bytes = .ok i) (hop : opOf i = some op) : Inv (s.accept op bytes) where
  chip := h.chip
  peerWf := h.peerWf
  peerKeys := h.peerKeys
  ctrl := h.ctrl
  sequencer := (sequencerOk_busy (State.accept_seq s op bytes)).mpr ⟨hready.2, bytes, i, rfl, hd, hop⟩
  bus := h.bus
  response := h.response

/-- A change of the peer that keeps its memory canonical and its registers real keeps the invariant. -/
theorem Inv.setPeer (h : Inv s) {m : Memory} (hw : m.wf = true) (hk : peerKeysOk s.params.chip m = true) :
    Inv { s with peer := m } :=
  ⟨h.chip, hw, hk, h.ctrl, h.sequencer, h.bus, h.response⟩

theorem Inv.afterExchange (h : Inv s) (who : Agent) {x : Exchange} {r : BusResult}
    (hr : exchangeEffect s.params x s.peer s.draws = .next r) : Inv (s.afterExchange who x r) :=
  ⟨h.chip, exchangeEffect_wf hr h.peerWf, exchangeEffect_keys hr h.chip h.peerKeys, h.ctrl, h.sequencer, nofun,
    h.response⟩

theorem Inv.advance (h : Inv s) (hbusy : s.seq ≠ .idle) (bytes : List Byte) : Inv (s.advance bytes) where
  chip := h.chip
  peerWf := h.peerWf
  peerKeys := h.peerKeys
  ctrl := h.ctrl
  sequencer := by
    cases hseq : s.seq with
    | idle => exact absurd hseq hbusy
    | busy op k =>
      exact (sequencerOk_busy (State.advance_seq_busy s bytes hseq)).mpr ((sequencerOk_busy hseq).mp h.sequencer)
  bus := h.bus
  response := h.response

/-! ## Each agent keeps the invariant -/

theorem Inv.masterExchange (h : Inv s) {x : Exchange} (hx : masterExchange x s = .next t) : Inv t := by
  obtain ⟨-, r, hr, rfl⟩ := masterExchange_next hx
  exact h.afterExchange .other hr

theorem Inv.act (h : Inv s) (hbusy : s.seq ≠ .idle) {p : Plan} (ha : act p s = .next t) : Inv t := by
  obtain ⟨x, -, hx⟩ | ⟨e, -, rfl⟩ | ⟨bytes, drawn, -, rfl⟩ | ⟨v, -, rfl⟩ := act_next ha
  · obtain ⟨-, rfl⟩ | ⟨-, r, hr, rfl⟩ := blockExchange_next hx
    · exact h
    · exact (h.afterExchange .block hr).advance hbusy _
  · exact h.raise e
  · exact (h.setDraws _).respond bytes
  · exact (h.setCtrl v).respond []

theorem Inv.envTurn (h : Inv s) {u : Turn} (ht : envTurn u s = .next t) : Inv t := by
  cases u with
  | block => cases ht; exact h
  | chip changes => cases ht; exact h.setPeer (chipStep_wf h.peerWf changes) (chipStep_keys h.peerKeys changes)
  | master mosi =>
    simp only [Machine.envTurn] at ht
    split at ht
    · exact h.masterExchange ht
    · cases ht
  | hold =>
    cases ht
    refine ⟨h.chip, h.peerWf, h.peerKeys, h.ctrl, h.sequencer, ?_, h.response⟩
    dsimp only
    split
    · nofun
    · exact h.bus
  | offer cmd => cases ht; exact h.setPort _
  | take => cases ht; exact h.takeResponse
  | reset => cases ht; exact h.blockReset

theorem Inv.turn (h : Inv s) (hbusy : s.seq ≠ .idle) {p : Plan} {u : Turn} (ht : turn p u s = .next t) : Inv t := by
  by_cases hu : u = .block
  · subst hu
    exact h.act hbusy ht
  · rw [turn_eq_envTurn hu] at ht
    exact h.envTurn ht

theorem Inv.drive (h : Inv s) {p : Plan} {ts : List Turn} (hd : drive p ts s = .next t) : Inv t :=
  drive_keeps (P := Inv) (fun _ ts hu => hu.setAgenda ts) (fun _ _ _ hu hbusy ht => hu.turn hbusy ht) ts s t h hd

/-- A command keeps the invariant, well formed or not: what the check lets through decodes to it. -/
theorem Inv.exec (h : Inv s) {i : Instr} (he : exec i s = .next t) : Inv t := by
  obtain ⟨op, p, hop, hrun⟩ | ⟨x, -, hrun⟩ := exec_command_or_exchange i
  · rw [hrun] at he
    obtain rfl | ⟨r, hready, -, rfl⟩ | ⟨hready, hc, hd⟩ | ⟨-, -, hd⟩ := runCommand_next he
    · exact h.setPort _
    · exact ⟨h.chip, h.peerWf, h.peerKeys, h.ctrl, sequencerOk_idle rfl rfl rfl, h.bus, responseOk_error _⟩
    · exact (h.accept hready (decodeCommand_encode (port_of_opOf hop) hc) hop).drive hd
    · exact h.drive hd
  · rw [hrun] at he
    exact h.masterExchange he

/-- Settles O54, by what a step can do: an instruction of the block, a command refused, or the turn of another agent. -/
theorem everyStepKeepsTheInvariant : Obligations.EveryStepKeepsTheInvariant := by
  intro s t h hstep
  obtain ⟨-, ⟨i, u, hf, he⟩ | hf⟩ | ⟨u, ts, -, -, he⟩ := step_next hstep
  · obtain ⟨_, _, _, -, -, -, rfl⟩ | ⟨_, rest, -, -, -, rfl⟩ := fetchBlock_run hf
    · exact (h.setAgenda _).exec he
    · exact ((h.setAgenda _).setPort rest).exec he
  · obtain ⟨-, -, rfl⟩ | ⟨_, rest, r, -, -, -, rfl⟩ := fetchBlock_done hf
    · exact h.setAgenda _
    · exact ((h.setAgenda _).setPort rest).raise _
  · exact (h.setAgenda ts).envTurn he

end Sys2Proof.Machine
end

