-- ==== Sys2Proof/Proofs/BlockTurns.lean ====
section
/-!
SUPPORT. What the block fetches, the turn of another master, and the statements on reset, fetch and the taken response.
-/

namespace Sys2Proof.Machine

variable {s t : State}

/-- Settles O1: each register is read off `State.reset`. -/
theorem resetLeavesBlockIdleInPollingMode : Obligations.ResetLeavesBlockIdleInPollingMode :=
  ⟨rfl, rfl, by decide, rfl, rfl, rfl⟩

theorem fetchBlock_ready {bytes : List Byte} {rest : List (List Byte)} {i : Instr} (hs : Ready s)
    (hp : s.port = bytes :: rest) (hd : decodeCommand bytes = .ok i) :
    fetchBlock s = .run i { s with port := rest } := by
  simp only [fetchBlock, hs.1, hs.2, hp, hd, Bool.false_eq_true, if_false]

theorem fetchBlock_busy {bytes : List Byte} {i : Instr} {op : Op} {k : Nat} (hs : s.seq = .busy op k)
    (hl : s.latch = some bytes) (hd : decodeCommand bytes = .ok i) : fetchBlock s = .run i s := by
  simp only [fetchBlock, hs, hl, hd]

/-- Settles O3: the block's turn fetches the decoded command, from the port or from LATCH. -/
theorem stepRunsTheDecodedCommand : Obligations.StepRunsTheDecodedCommand := by
  intro s bytes i hag hd
  have hblock : s.agenda = [] ∨ s.agenda = .block :: s.agenda.tail := by
    obtain h | ⟨ts, h⟩ := hag
    · exact .inl h
    · exact .inr (by rw [h, List.tail_cons])
  refine ⟨fun rest hready hport => ?_, fun op k hseq hl => ?_⟩
  · rw [step, fetch_block hblock, fetchBlock_ready (s := { s with agenda := s.agenda.tail }) hready hport hd]
  · rw [step, fetch_block hblock, fetchBlock_busy (s := { s with agenda := s.agenda.tail }) hseq hl hd]

/-- A turn of another master runs the exchange its bytes frame (R32, R96). -/
theorem step_master {mosi : List Byte} {ts : List Turn} {x : Exchange} (h : s.agenda = .master mosi :: ts)
    (hx : decodeExchange s.params.chip mosi = .ok x) : step s = exec (Instr.ofExchange x) { s with agenda := ts } := by
  simp only [step, fetch, h, hx]

theorem decode_bus_ok {mosi : List Byte} {i : Instr} (h : decode .bus mosi = .ok i) :
    ∃ x, decodeExchange .mcp2515 mosi = .ok x ∧ i = Instr.ofExchange x := by
  simp only [decode] at h
  split at h <;> cases h
  next x hx => exact ⟨x, hx, rfl⟩

/-- Settles O4: under the MCP2515's opcodes `decode` reads the exchange that the step reads. -/
theorem stepRunsTheDecodedExchange : Obligations.StepRunsTheDecodedExchange := by
  intro s mosi ts h
  refine ⟨fun x hx => step_master h hx, fun i hchip hd => ?_⟩
  obtain ⟨x, hx, rfl⟩ := decode_bus_ok hd
  exact step_master h (by rwa [hchip])

/-- Settles O14: a take turn is the turn of another agent, and all it does is take the response. -/
theorem takingTheResponseFreesTheBlock : Obligations.TakingTheResponseFreesTheBlock :=
  fun _ _ h => step_other h nofun

end Sys2Proof.Machine
end

