-- ==== Sys2Proof/Proofs/CommandRuns.lean ====
section
/-!
SUPPORT. The run of a command: the two inductions over it for turns of some kinds (what the run keeps, and that it
completes), a block that waits for BUS, a WRITE that takes effect, and that WRCTRL and block reset alone write CTRL.
-/

namespace Sys2Proof.Machine

variable {s t : State} {p : Plan}

/-- The induction over the run of a command, for turns of some kinds: what the command's actions and these turns keep, the
run keeps. -/
theorem drive_keeps_turns {P : State → Prop} {Q : Turn → Prop} (hagenda : ∀ s ts, P s → P { s with agenda := ts })
    (hact : ∀ s t, P s → s.seq ≠ .idle → act p s = .next t → P t)
    (hturn : ∀ u s t, Q u → P s → envTurn u s = .next t → P t) {ts : List Turn} (hts : ∀ u ∈ ts, Q u) (hs : P s)
    (h : drive p ts s = .next t) : P t := by
  induction ts generalizing s with
  | nil => exact runAlone_keeps hact _ _ _ (hagenda s [] hs) h
  | cons u ts ih =>
    simp only [drive] at h
    split at h
    next => cases h; exact hagenda s _ hs
    next hbusy =>
      split at h
      next s' hs' =>
        refine ih (fun v hv => hts v (List.mem_cons_of_mem _ hv)) ?_ h
        by_cases hu : u = .block
        · subst hu
          exact hact s s' hs hbusy hs'
        · rw [turn_eq_envTurn hu] at hs'
          exact hturn u s s' (hts u List.mem_cons_self) hs hs'
      next => cases h
      next => cases h

section Completion

variable {P : Nat → State → Prop}

/-- A command that is done after `n` more actions, `P n` saying where it stands, gets there alone (R262). -/
theorem runAlone_completes (hidle : ∀ s, P 0 s → s.seq = .idle)
    (hact : ∀ n s, P (n + 1) s → s.seq ≠ .idle ∧ ∃ t, act p s = .next t ∧ P n t) {k n : Nat} (hn : n ≤ k) (hs : P n s) :
    ∃ t, runAlone p k s = .next t ∧ P 0 t := by
  induction n generalizing s k with
  | zero => exact ⟨s, runAlone_idle (hidle s hs), hs⟩
  | succ n ih =>
    obtain ⟨hbusy, t, ht, hP⟩ := hact n s hs
    obtain ⟨k, rfl⟩ : ∃ k', k = k' + 1 := ⟨k - 1, by omega⟩
    rw [runAlone_succ hbusy ht]
    exact ih (Nat.le_of_succ_le_succ hn) hP

/-- The same with other agents' turns between its actions, when each of them leaves the command where it stands. -/
theorem drive_completes (hagenda : ∀ n s ts, P n s → P n { s with agenda := ts })
    (hidle : ∀ s, P 0 s → s.seq = .idle)
    (hact : ∀ n s, P (n + 1) s → s.seq ≠ .idle ∧ ∃ t, act p s = .next t ∧ P n t) {ts : List Turn}
    (hturn : ∀ u ∈ ts, u ≠ .block → ∀ n s, P (n + 1) s → ∃ t, envTurn u s = .next t ∧ P (n + 1) t)
    {n : Nat} (hn : n ≤ maxActions) (hs : P n s) : ∃ t, drive p ts s = .next t ∧ P 0 t := by
  induction ts generalizing s n with
  | nil => exact runAlone_completes hidle hact hn (hagenda n s [] hs)
  | cons u ts ih =>
    have hrest := fun v hv => hturn v (List.mem_cons_of_mem u hv)
    cases n with
    | zero => exact ⟨_, by rw [drive, if_pos (hidle s hs)], hagenda 0 s _ hs⟩
    | succ n =>
      obtain ⟨hbusy, t, ht, hP⟩ := hact n s hs
      rw [drive, if_neg hbusy]
      by_cases hu : u = .block
      · subst hu
        simp only [turn, ht]
        exact ih hrest (Nat.le_of_succ_le hn) hP
      · obtain ⟨t, ht, hP⟩ := hturn u List.mem_cons_self hu n s hs
        simp only [turn_eq_envTurn hu, ht]
        exact ih hrest hn hP

end Completion

/-! ## Waiting for BUS -/

section
variable {s : State} {op : Op} {bytes : List Byte} {p : Plan} {x : Exchange}

/-- The block waits with its next exchange while another master holds BUS (R32). -/
theorem act_waits (hp : p s.view = .issue x) (hb : s.bus = .held .other) : act p s = .next s := by
  simp only [act, hp, blockExchange, hb]

theorem runAlone_waits (hp : p s.view = .issue x) (hb : s.bus = .held .other) (n : Nat) :
    runAlone p n s = .next s := by
  induction n with
  | zero => rfl
  | succ n ih =>
    rw [runAlone, act_waits hp hb]
    split
    · rfl
    · exact ih

/-- A command whose first action is an exchange is accepted and stays at step 0 while another master holds BUS. -/
theorem runCommand_waits (hs : Ready s) (hag : s.agenda = []) (hb : s.bus = .held .other)
    (hc : structuralCheck bytes = none) (hp : p (s.accept op bytes).view = .issue x) :
    runCommand op bytes p s = .next { s with latch := some bytes, seq := .busy op 0, got := [] } := by
  have hrun : drive p s.agenda (s.accept op bytes) = .next (s.accept op bytes) := by
    rw [hag, drive_alone p (s := s.accept op bytes) hag, runAlone_waits hp hb]
  exact (runCommand_ready hs hc).trans hrun

end

/-! ## A WRITE of the block -/

/-- A WRITE of the block on an active interface, with BUS free: the peer written, the exchange counted (R191, R23). -/
theorem act_write {p : Plan} {s : State} {a : Byte} {ds : List Byte} (hp : p s.view = .issue (.write a ds))
    (hb : s.bus = .free) (ha : Awake s) (h1 : 1 ≤ ds.length) (h2 : a.toNat + ds.length ≤ s.params.chip.size) :
    act p s = .next (State.advance [] (s.afterExchange .block (.write a ds)
      { peer := writeRegisters s.params.chip s.peer a.toNat ds
        miso := noValue (2 + ds.length)
        draws := s.draws })) := by
  have hr := exchangeEffect_awake (x := .write a ds) (d := s.draws) ha
  rw [activeEffect_write h1 h2] at hr
  rw [act_issue hp hb hr, dataBytes_noValue]

/-! ## CTRL -/

/-- The plan of a command that does not write CTRL. -/
def PlanKeepsCtrl (p : Plan) : Prop := ∀ v w, p v ≠ .writeCtrl w

theorem encodePlan_keepsCtrl (kind : FrameKind) (type : FrameType) (buf : BitVec 2) (id : BitVec 32)
    (data : List Byte) :
    PlanKeepsCtrl (encodePlan kind type buf id data) := by
  intro v w h
  unfold encodePlan at h
  split at h
  · cases h
  · split at h <;> cases h

theorem sendPlan_keepsCtrl (kind : FrameKind) (type : FrameType) (buf : BitVec 2) (id : BitVec 32)
    (data : List Byte) :
    PlanKeepsCtrl (sendPlan kind type buf id data) := by
  intro v w h
  unfold sendPlan at h
  split at h
  · cases h
  · split at h <;> cases h

theorem triggerPlan_keepsCtrl (buf : BitVec 2) : PlanKeepsCtrl (triggerPlan buf) := by
  intro v w h
  unfold triggerPlan at h
  split at h
  · cases h
  · split at h <;> cases h

theorem timingPlan_keepsCtrl (osc : Byte) (rate : BitVec 16) : PlanKeepsCtrl (timingPlan osc rate) := by
  intro v w h
  unfold timingPlan at h
  split at h <;> cases h

theorem afterPayload_keepsCtrl (buf : BitVec 2) : PlanKeepsCtrl (afterPayload buf) := by
  intro v w h
  simp only [afterPayload] at h
  split at h <;> cases h

theorem decodePlan_keepsCtrl (buf : BitVec 2) : PlanKeepsCtrl (decodePlan buf) := by
  intro v w h
  simp only [decodePlan] at h
  split at h
  · cases h
  · split at h
    · cases h
    · split at h
      · cases h
      · split at h
        · cases h
        · split at h
          · exact afterPayload_keepsCtrl buf v w h
          · cases h
        · split at h
          · cases h
          · exact afterPayload_keepsCtrl buf v w h
        · cases h

/-- An instruction but WRCTRL is a command whose plan does not write CTRL, or an exchange. -/
theorem exec_keepsCtrl_or_exchange {i : Instr} (hi : ∀ v, i ≠ .wrctrl v) :
    (∃ op p, PlanKeepsCtrl p ∧ ∀ s, exec i s = runCommand op (encode i) p s) ∨
    ∃ x, ∀ s, exec i s = masterExchange x s := by
  cases i with
  | encodeStdData | encodeExtData | encodeStdRtr | encodeExtRtr =>
    exact .inl ⟨_, _, encodePlan_keepsCtrl _ _ _ _ _, fun _ => rfl⟩
  | sendStdData | sendExtData | sendStdRtr | sendExtRtr => exact .inl ⟨_, _, sendPlan_keepsCtrl _ _ _ _ _, fun _ => rfl⟩
  | trigger => exact .inl ⟨_, _, triggerPlan_keepsCtrl _, fun _ => rfl⟩
  | decode => exact .inl ⟨_, _, decodePlan_keepsCtrl _, fun _ => rfl⟩
  | timing => exact .inl ⟨_, _, timingPlan_keepsCtrl _ _, fun _ => rfl⟩
  | wrctrl v => exact absurd rfl (hi v)
  | spiReset => exact .inr ⟨.reset, fun _ => rfl⟩
  | spiRts sel => exact .inr ⟨.rts sel, fun _ => rfl⟩
  | spiRead | spiWrite | spiBitModify | spiReadStatus | spiRxStatus | spiReadRxb | spiLoadTxb =>
    exact .inr ⟨_, fun _ => rfl⟩

theorem masterExchange_ctrl {x : Exchange} (h : masterExchange x s = .next t) : t.ctrl = s.ctrl := by
  obtain ⟨-, r, -, rfl⟩ := masterExchange_next h
  exact State.afterExchange_ctrl ..

theorem act_ctrl (hp : PlanKeepsCtrl p) (h : act p s = .next t) : t.ctrl = s.ctrl := by
  obtain ⟨x, -, hx⟩ | ⟨e, -, rfl⟩ | ⟨bytes, drawn, -, rfl⟩ | ⟨v, hv, -⟩ := act_next h
  · obtain ⟨-, rfl⟩ | ⟨-, r, -, rfl⟩ := blockExchange_next hx
    · rfl
    · rw [State.advance_ctrl, State.afterExchange_ctrl]
  · exact State.raise_ctrl ..
  · exact State.respond_ctrl ..
  · exact absurd hv (hp _ v)

/-- Of the other agents' turns, block reset alone writes CTRL (R240). -/
theorem envTurn_ctrl {u : Turn} (hu : u ≠ .reset) (h : envTurn u s = .next t) : t.ctrl = s.ctrl := by
  cases u with
  | master mosi =>
    simp only [envTurn] at h
    split at h
    · exact masterExchange_ctrl h
    · cases h
  | block => cases h; rfl
  | chip changes => cases h; rfl
  | hold => cases h; rfl
  | offer cmd => cases h; rfl
  | take => cases h; exact State.takeResponse_ctrl ..
  | reset => exact absurd rfl hu

theorem drive_ctrl (hp : PlanKeepsCtrl p) {ts : List Turn} (hts : .reset ∉ ts) (h : drive p ts s = .next t) :
    t.ctrl = s.ctrl :=
  drive_keeps_turns (P := fun u => u.ctrl = s.ctrl) (Q := (· ≠ .reset)) (fun _ _ hu => hu)
    (fun _ _ hu _ ha => (act_ctrl hp ha).trans hu) (fun _ _ _ hQ hu he => (envTurn_ctrl hQ he).trans hu)
    (fun _ hu e => hts (e ▸ hu)) rfl h

/-- Settles O56: the plan of any other instruction does not write CTRL, nor does a turn but block reset. -/
theorem onlyWrctrlAndResetChangeCtrl : Obligations.OnlyWrctrlAndResetChangeCtrl := by
  intro s t i h hi hreset
  obtain ⟨op, p, hp, hrun⟩ | ⟨x, hrun⟩ := exec_keepsCtrl_or_exchange hi
  · rw [hrun] at h
    obtain rfl | ⟨r, -, -, rfl⟩ | ⟨-, -, hd⟩ | ⟨-, -, hd⟩ := runCommand_next h
    · exact State.holdCommand_ctrl ..
    · rw [State.raise_ctrl, State.accept_ctrl]
    · rw [drive_ctrl hp hreset hd, State.accept_ctrl]
    · exact drive_ctrl hp hreset hd
  · rw [hrun] at h
    exact masterExchange_ctrl h

end Sys2Proof.Machine
end

