-- ==== Sys2Proof/Proofs/FrameCommands.lean ====
section
/-!
SUPPORT. ENCODE and SEND by kind and type: their bytes, their checks, their actions; the block waiting for BUS, and the ENCODE
of a data frame among turns of the chip.
-/

namespace Sys2Proof.Machine

/-! ## The frame commands, by kind and type -/

section
variable (kind : FrameKind) (type : FrameType) (buf : BitVec 2) (id : BitVec 32) (data : List Byte)

theorem exec_encodeVariant (s : State) : exec (encodeVariant kind type buf id data) s =
    runCommand (.encode kind type) (encode (encodeVariant kind type buf id data)) (encodePlan kind type buf id data)
      s := by
  cases kind <;> cases type <;> rfl

theorem exec_sendVariant (s : State) : exec (sendVariant kind type buf id data) s =
    runCommand (.send kind type) (encode (sendVariant kind type buf id data)) (sendPlan kind type buf id data) s := by
  cases kind <;> cases type <;> rfl

theorem encode_encodeVariant : encode (encodeVariant kind type buf id data) = frameBytes 1 kind type buf id data := by
  cases kind <;> cases type <;> rfl

theorem encode_sendVariant : encode (sendVariant kind type buf id data) = frameBytes 3 kind type buf id data := by
  cases kind <;> cases type <;> rfl

/-- The status that a frame command reports before its first exchange is that of the error its prologue finds (R120). -/
theorem frameStatus_eq_prologue (p : Params) (len : Nat) :
    frameStatus p.remoteTx kind type buf id len = (prologue p kind type buf id len).map Error.status := by
  have hbuf : (nTxb ≤ buf.toNat) = (2 < buf.toNat) := rfl
  have hid : (kind.idLimit ≤ id.toNat) = if kind = .std then 2 ^ 11 ≤ id.toNat else 2 ^ 29 ≤ id.toNat := by
    cases kind <;> rfl
  simp only [frameStatus, prologue, hbuf, hid, maxPayload]
  cases kind <;> simp only [true_and, false_and, if_true, if_false, reduceCtorEq] <;> split_ifs <;> rfl

variable {kind type buf id data}

theorem prologue_eq_none {p : Params} {len : Nat} (h : frameStatus p.remoteTx kind type buf id len = none) :
    prologue p kind type buf id len = none := by
  rwa [frameStatus_eq_prologue, Option.map_eq_none_iff] at h

theorem length_le_of_frameStatus {r : RemoteTx} {len : Nat} (h : frameStatus r kind type buf id len = none) :
    len ≤ 8 := by
  unfold frameStatus at h
  split at h
  · cases h
  · split at h
    · cases h
    · omega

/-- A data frame in range is one the prologue lets through. -/
theorem frameStatus_data (r : RemoteTx) {len : Nat} (hbuf : buf.toNat < 3) (hlen : len ≤ 8)
    (hid : id.toNat < kind.idLimit) : frameStatus r kind .data buf id len = none := by
  have h1 : ¬ 2 < buf.toNat := by omega
  have h2 : ¬ 8 < len := by omega
  have h3 : ¬ (kind = .std ∧ 2 ^ 11 ≤ id.toNat) := by
    rintro ⟨rfl, h⟩
    exact Nat.not_lt.mpr h hid
  have h4 : ¬ (kind = .ext ∧ 2 ^ 29 ≤ id.toNat) := by
    rintro ⟨rfl, h⟩
    exact Nat.not_lt.mpr h hid
  simp only [frameStatus, h1, h2, h3, h4, if_false, reduceCtorEq, false_and]

theorem lenFits_of_le (h : data.length ≤ 8) : lenFits data = true := decide_eq_true (Nat.le_trans h (by decide))

theorem structuralCheck_encodeVariant (h : data.length ≤ 8) :
    structuralCheck (encode (encodeVariant kind type buf id data)) = none := by
  rw [encode_encodeVariant]
  exact structuralCheck_frameBytes (.inl rfl) _ _ _ _ (lenFits_of_le h)

theorem structuralCheck_sendVariant (h : data.length ≤ 8) :
    structuralCheck (encode (sendVariant kind type buf id data)) = none := by
  rw [encode_sendVariant]
  exact structuralCheck_frameBytes (.inr rfl) _ _ _ _ (lenFits_of_le h)

/-! What ENCODE does when its prologue finds no error: two WRITEs, then the response (R123 to R126). -/

theorem encodePlan_first {v : View} (h : prologue v.params kind type buf id data.length = none) (hk : v.step = 0) :
    encodePlan kind type buf id data v = .issue (writeIdent v.params.chip kind buf id) := by
  simp only [encodePlan, h, hk]

theorem encodePlan_second {v : View} (h : prologue v.params kind type buf id data.length = none) (hk : v.step = 1) :
    encodePlan kind type buf id data v = .issue (writePayload v.params.chip type buf data) := by
  simp only [encodePlan, h, hk]

theorem encodePlan_last {v : View} (h : prologue v.params kind type buf id data.length = none) (hk : v.step = 2) :
    encodePlan kind type buf id data v = .respond [] 0 := by
  simp only [encodePlan, h, hk]

theorem sendPlan_first {v : View} (h : prologue v.params kind type buf id data.length = none) (h0 : v.step = 0) :
    sendPlan kind type buf id data v = .issue (writeIdent v.params.chip kind buf id) := by
  simp only [sendPlan, h, h0]

end

theorem triggerPlan_first {buf : BitVec 2} {v : View} (hbuf : buf.toNat < 3) (h0 : v.step = 0) :
    triggerPlan buf v = .issue (triggerExchange v.params buf) := by
  simp only [triggerPlan, if_neg (Nat.not_le.mpr hbuf : ¬ nTxb ≤ buf.toNat), h0]

theorem decodePlan_first {buf : BitVec 2} {v : View} (hbuf : buf.toNat < 2) (h0 : v.step = 0) :
    decodePlan buf v = .issue (.read (rxbAddress v.params.chip buf v.params.chip.offSidh) 5) := by
  simp only [decodePlan, if_neg (Nat.not_le.mpr hbuf : ¬ nRxb ≤ buf.toNat), h0]

/-- Settles O15: each command's first action is an exchange, so the block waits with it. -/
theorem blockWaitsForTheBus : Obligations.BlockWaitsForTheBus := by
  intro s hs hag hb
  refine ⟨fun kind type buf id data hstatus => ?_, fun buf => ⟨fun hbuf => ?_, fun hbuf => ?_⟩⟩
  · have hlen := length_le_of_frameStatus hstatus
    have hpro := prologue_eq_none hstatus
    rw [exec_encodeVariant, exec_sendVariant]
    exact ⟨runCommand_waits hs hag hb (structuralCheck_encodeVariant hlen) (encodePlan_first hpro rfl),
      runCommand_waits hs hag hb (structuralCheck_sendVariant hlen) (sendPlan_first hpro rfl)⟩
  · exact runCommand_waits hs hag hb (structuralCheck_encode (i := .trigger buf) rfl rfl) (triggerPlan_first hbuf rfl)
  · exact runCommand_waits hs hag hb (structuralCheck_encode (i := .decode buf) rfl rfl) (decodePlan_first hbuf rfl)

/-! ## ENCODE of a data frame among turns of the chip -/

section
variable (kind : FrameKind) (buf : BitVec 2) (id : BitVec 32) (data : List Byte)

/-- What a frame register of a transmit buffer holds after the first `k` WRITEs of an ENCODE of a data frame, from what it
held before. -/
def encodedByte (k n off : Nat) (old : Byte) : Byte :=
  match k with
  | 0 => old
  | 1 => writtenByte buf.toNat 1 (packId .mcp2515 kind id) n off old
  | _ =>
    writtenByte buf.toNat 5 (dlcByte .mcp2515 .data data.length :: data) n off
      (writtenByte buf.toNat 1 (packId .mcp2515 kind id) n off old)

/-- Every frame register of the transmit buffers, from `m`, after the first `k` WRITEs. -/
def FramesEncoded (m : Memory) (k : Nat) (u : State) : Prop :=
  ∀ n off, n < 3 → 1 ≤ off → off ≤ 13 →
    reg u.peer (txBase n + off) = encodedByte kind buf id data k n off (reg m (txBase n + off))

/-- The ENCODE is in progress after `k` of its WRITEs, under the parameters `q` and from the memory `m`. -/
structure EncodeAt (q : Params) (m : Memory) (k : Nat) (u : State) : Prop where
  params : u.params = q
  bus : u.bus = .free
  awake : Awake u
  peerWf : u.peer.wf = true
  seq : u.seq = .busy (.encode kind .data) k
  frames : FramesEncoded kind buf id data m k u

/-- The ENCODE has `left` actions to take: its WRITEs and the response; with none left it has answered. -/
def EncodeLeft (q : Params) (m : Memory) (left : Nat) (u : State) : Prop :=
  match left with
  | 0 => u.seq = .idle ∧ u.resp = { valid := true, bytes := some [0x00] } ∧ FramesEncoded kind buf id data m 2 u
  | j + 1 => j ≤ 2 ∧ EncodeAt kind buf id data q m (2 - j) u

variable {kind buf id data} {q : Params} {m : Memory} {k : Nat} {u : State}

theorem EncodeAt.setAgenda (h : EncodeAt kind buf id data q m k u) (ts : List Turn) :
    EncodeAt kind buf id data q m k { u with agenda := ts } :=
  ⟨h.params, h.bus, h.awake, h.peerWf, h.seq, h.frames⟩

/-- Each WRITE of the ENCODE takes it one step further. -/
theorem EncodeAt.write (h : EncodeAt kind buf id data q m k u) (hq : q.chip = .mcp2515) (hbuf : buf.toNat < 3)
    {p : Plan} {start : Nat} {ds : List Byte} (hp : p u.view = .issue (.write (txbAddress .mcp2515 buf start) ds))
    (hstart : start ≤ 13) (h1 : 1 ≤ ds.length) (hlen : start + ds.length ≤ 14)
    (hnext : ∀ n off old, encodedByte kind buf id data (k + 1) n off old =
      writtenByte buf.toNat start ds n off (encodedByte kind buf id data k n off old)) :
    ∃ t, act p u = .next t ∧ EncodeAt kind buf id data q m (k + 1) t := by
  have hchip : u.params.chip = .mcp2515 := by rw [h.params, hq]
  have haddr := toNat_txbAddress hbuf hstart
  have hsize : (txbAddress .mcp2515 buf start).toNat + ds.length ≤ u.params.chip.size := by
    rw [haddr, hchip]
    exact Nat.le_trans (by simp only [txBase]; omega : _ ≤ 0x5E) (by decide)
  refine ⟨_, act_write hp h.bus h.awake h1 hsize, ?_⟩
  rw [haddr, hchip]
  exact {
    params := h.params
    bus := rfl
    awake := awake_writeRegisters hchip hbuf hlen h.awake
    peerWf := writeBurst_wf h.peerWf _ _ _
    seq := State.advance_seq_busy _ _ h.seq
    frames := fun n off hn ho1 ho => by
      rw [hnext, ← h.frames n off hn ho1 ho]
      exact reg_writeRegisters h.peerWf hbuf hlen hn ho1 ho }

/-- A turn of the chip leaves the ENCODE where it stands (R30 (c)). -/
theorem EncodeAt.chip (h : EncodeAt kind buf id data q m k u) (hq : q.chip = .mcp2515) {changes : List Host.Cell}
    (hc : q.spiActiveInSleep = true ∨ ∀ e ∈ changes, homeOf e.1 = 0x0E → e.2 &&& 0xE0 ≠ 0x20) :
    ∃ t, envTurn (.chip changes) u = .next t ∧ EncodeAt kind buf id data q m k t := by
  have hchip : u.params.chip = .mcp2515 := by rw [h.params, hq]
  refine ⟨_, rfl, ?_⟩
  rw [hchip]
  exact {
    params := h.params
    bus := h.bus
    awake := awake_chipStep hchip h.peerWf (by rwa [h.params]) h.awake
    peerWf := chipStep_wf h.peerWf changes
    seq := h.seq
    frames := fun n off hn h1 ho => (reg_chipStep_txBase h.peerWf changes hn h1 ho).trans (h.frames n off hn h1 ho) }

theorem EncodeLeft.setAgenda (left : Nat) (u : State) (ts : List Turn) (h : EncodeLeft kind buf id data q m left u) :
    EncodeLeft kind buf id data q m left { u with agenda := ts } :=
  match left, h with
  | 0, h => h
  | _ + 1, ⟨hj, hat⟩ => ⟨hj, hat.setAgenda ts⟩

theorem EncodeLeft.chip (hq : q.chip = .mcp2515) {j : Nat} (h : EncodeLeft kind buf id data q m (j + 1) u)
    {changes : List Host.Cell}
    (hc : q.spiActiveInSleep = true ∨ ∀ e ∈ changes, homeOf e.1 = 0x0E → e.2 &&& 0xE0 ≠ 0x20) :
    ∃ t, envTurn (.chip changes) u = .next t ∧ EncodeLeft kind buf id data q m (j + 1) t := by
  obtain ⟨hj, hat⟩ := h
  obtain ⟨t, ht, hat'⟩ := hat.chip hq hc
  exact ⟨t, ht, hj, hat'⟩

theorem length_packId (id : BitVec 32) :
    1 ≤ (packId .mcp2515 kind id).length ∧ (packId .mcp2515 kind id).length ≤ 4 := by
  cases kind <;> simp [packId, packStd, packExt]

/-- Each action of an ENCODE in range brings it nearer its end (R123, R124). -/
theorem EncodeLeft.act (hq : q.chip = .mcp2515) (hbuf : buf.toNat < 3) (hlen : data.length ≤ 8)
    (hpro : prologue q kind .data buf id data.length = none) {j : Nat}
    (h : EncodeLeft kind buf id data q m (j + 1) u) :
    u.seq ≠ .idle ∧ ∃ t, act (encodePlan kind .data buf id data) u = .next t ∧ EncodeLeft kind buf id data q m j t := by
  obtain ⟨hj, hat⟩ := h
  have hpro' : prologue u.view.params kind .data buf id data.length = none := by
    rwa [State.view_params, hat.params]
  have hstep : u.view.step = 2 - j := by rw [State.view_step, hat.seq]; rfl
  have hchip : u.view.params.chip = .mcp2515 := by rw [State.view_params, hat.params, hq]
  refine ⟨by rw [hat.seq]; nofun, ?_⟩
  match j, hj with
  | 2, _ =>
    have hp := encodePlan_first hpro' hstep
    rw [hchip] at hp
    obtain ⟨h1, h4⟩ := length_packId (kind := kind) id
    obtain ⟨t, ht, hat'⟩ := hat.write hq hbuf hp (by decide) h1 (show 1 + _ ≤ 14 by omega)
      fun _ _ _ => rfl
    exact ⟨t, ht, by decide, hat'⟩
  | 1, _ =>
    have hp := encodePlan_second hpro' hstep
    rw [hchip] at hp
    obtain ⟨t, ht, hat'⟩ := hat.write hq hbuf hp (by decide) (Nat.le_add_left ..)
      (Nat.add_le_add_left (Nat.succ_le_succ hlen) 5) fun _ _ _ => rfl
    exact ⟨t, ht, by decide, hat'⟩
  | 0, _ => exact ⟨_, act_respond (encodePlan_last hpro' hstep), rfl, rfl, hat.frames⟩

/-- A frame register of another transmit buffer is not loaded. -/
theorem loadedByte_other {b n off : Nat} (hn : n ≠ b) (h : off ≤ 13) (hlen : data.length ≤ 8) :
    loadedByte kind .data b id data m (txBase n + off) = reg m (txBase n + off) := by
  have hne : ∀ k, k ≤ 5 → txBase n + off ≠ txBase b + k := fun k hk => by simp only [txBase]; omega
  have hout : ¬ (txBase b + 6 ≤ txBase n + off ∧ txBase n + off < txBase b + 6 + data.length) := by
    simp only [txBase]
    omega
  simp only [loadedByte, hne 1 (by decide), hne 2 (by decide), hne 3 (by decide), hne 4 (by decide), hne 5 (by decide),
    hout, and_false, if_false]

/-- A data register that the payload reaches holds its byte, another one what it held. -/
theorem loadedByte_payload (b i : Nat) :
    loadedByte kind .data b id data m (txBase b + (6 + i)) =
      if i < data.length then data.getD i 0 else reg m (txBase b + (6 + i)) := by
  have hne : ∀ k, k < 6 → 6 + i ≠ k := fun k hk => by omega
  have hreach : (txBase b + 6 ≤ txBase b + (6 + i) ∧ txBase b + (6 + i) < txBase b + 6 + data.length) =
      (i < data.length) := propext (by omega)
  have hindex : txBase b + (6 + i) - (txBase b + 6) = i := by omega
  simp only [loadedByte, Nat.add_left_cancel_iff, hne 1 (by decide), hne 2 (by decide), hne 3 (by decide),
    hne 4 (by decide), hne 5 (by decide), hreach, hindex, true_and, and_false, if_false]

theorem writtenByte_payload (b i : Nat) (dlc old : Byte) :
    writtenByte b 5 (dlc :: data) b (6 + i) old = if i < data.length then data.getD i 0 else old := by
  have hne : ∀ k, k < 6 → 6 + i ≠ k := fun k hk => by omega
  have hreach : (5 ≤ 6 + i ∧ 6 + i < 5 + (data.length + 1)) = (i < data.length) := propext (by omega)
  have hindex : 6 + i - 5 = i + 1 := by omega
  simp only [writtenByte, txbWritable_mcp2515, hne 0 (by decide), hne 2 (by decide), hne 5 (by decide),
    List.length_cons, hreach, hindex, List.getD_cons_succ, mergeBits_ones, true_and, if_false]

/-- The WRITE of the identifier leaves the identifier registers as `loadedByte` says (R123, R124). -/
theorem writtenByte_ident (b : Nat) {off : Nat} (h1 : 1 ≤ off) (h4 : off < 5) :
    writtenByte b 1 (packId .mcp2515 kind id) b off (reg m (txBase b + off)) =
      loadedByte kind .data b id data m (txBase b + off) := by
  have ones : ∀ old new : Byte, mergeBits 255#8 old new = new := mergeBits_ones
  cases kind <;> interval_cases off <;>
    simp [writtenByte, loadedByte, txbWritable_mcp2515, packId, packStd, packExt, ones]

/-- After both WRITEs each frame register reads as `loadedByte` says. -/
theorem encodedByte_two {n off : Nat} (h1 : 1 ≤ off) (h : off ≤ 13) (hlen : data.length ≤ 8) :
    encodedByte kind buf id data 2 n off (reg m (txBase n + off)) =
      loadedByte kind .data buf.toNat id data m (txBase n + off) := by
  simp only [encodedByte]
  by_cases hn : n = buf.toNat
  · subst hn
    obtain hlow | hhigh := Nat.lt_or_ge off 5
    · rw [writtenByte_outside (.inl hlow), writtenByte_ident _ h1 hlow]
    · have hident := (length_packId (kind := kind) id).2
      rw [writtenByte_outside (ds := packId _ _ _) (.inr (by omega))]
      obtain rfl | hpay := Nat.eq_or_lt_of_le hhigh
      · simp [writtenByte, loadedByte, txbWritable_mcp2515]
      · obtain ⟨i, rfl⟩ := Nat.exists_eq_add_of_le hpay
        exact (writtenByte_payload ..).trans (loadedByte_payload ..).symm
  · rw [loadedByte_other hn h hlen, writtenByte_other hn, writtenByte_other hn]

end

/-- Settles O28, by the induction over the run with the ENCODE's actions counted down: the chip's turns leave it where it
stands, since they change neither the frame registers nor, by the premise, the mode to Sleep. -/
theorem encodedFrameSurvivesTheChip : Obligations.EncodedFrameSurvivesTheChip := by
  intro s kind buf id data hchip hawake hm hready hbus hbuf hlen hid hag
  have hpro : prologue s.params kind .data buf id data.length = none :=
    prologue_eq_none (frameStatus_data _ hbuf hlen hid)
  have hstart : EncodeLeft kind buf id data s.params s.peer 3
      (s.accept (.encode kind .data) (encode (encodeVariant kind .data buf id data))) :=
    ⟨by decide, rfl, hbus, hawake, hm, rfl, fun _ _ _ _ _ => rfl⟩
  obtain ⟨t, ht, hidle, hresp, hframes⟩ := drive_completes (p := encodePlan kind .data buf id data) (ts := s.agenda)
    EncodeLeft.setAgenda (fun _ h => h.1) (fun _ _ h => h.act hchip hbuf hlen hpro)
    (fun u hu hblock _ _ h => by
      obtain rfl | ⟨changes, rfl, hc⟩ := hag u hu
      · exact absurd rfl hblock
      · exact h.chip hchip hc)
    (by decide) hstart
  refine ⟨t, ?_, hidle, hresp, fun n off hn h1 h => (hframes n off hn h1 h).trans (encodedByte_two h1 h hlen)⟩
  rw [exec_encodeVariant, runCommand_ready hready (structuralCheck_encodeVariant hlen)]
  exact ht

end Sys2Proof.Machine
end

