-- ==== Sys2Proof/Proofs/BlockExchanges.lean ====
section
/-!
SUPPORT. The rules of the commands as scripts: the list of exchanges a rule issues in order, and the action it ends with. So
what the block issues is an exchange of R55, and each of those takes effect on a register map that hangs together and, on
the MCP2515, is one that `blockMayIssue` lists. That no command stops and that the block keeps to R55 follow.
-/

namespace Sys2Proof.Machine

/-! ## A rule as a script -/

/-- The rule that issues the exchanges of a list in order and then ends. The list may depend on the bytes already read. -/
def script (exchanges : Params → Byte → List Byte → List Exchange) (ending : View → Action) : Plan :=
  fun v => ((exchanges v.params v.ctrl v.got)[v.step]?).elim (ending v) .issue

section
variable {exchanges : Params → Byte → List Byte → List Exchange} {ending : View → Action} {v : View}

theorem script_of_lt (h : v.step < (exchanges v.params v.ctrl v.got).length) :
    script exchanges ending v = .issue (exchanges v.params v.ctrl v.got)[v.step] := by
  rw [script, List.getElem?_eq_getElem h]
  rfl

theorem script_of_le (h : (exchanges v.params v.ctrl v.got).length ≤ v.step) :
    script exchanges ending v = ending v := by
  rw [script, List.getElem?_eq_none h]
  rfl

theorem script_issue_mem {x : Exchange} (hend : ∀ w y, ending w ≠ .issue y) (h : script exchanges ending v = .issue x) :
    x ∈ exchanges v.params v.ctrl v.got := by
  by_cases hk : v.step < (exchanges v.params v.ctrl v.got).length
  · rw [script_of_lt hk, Action.issue.injEq] at h
    exact h ▸ List.getElem_mem hk
  · rw [script_of_le (Nat.not_lt.mp hk)] at h
    exact absurd h (hend v x)

end

section
variable (kind : FrameKind) (type : FrameType) (buf : BitVec 2) (id : BitVec 32) (data : List Byte)

/-- The exchanges of an ENCODE or, with the trigger after them, a SEND (R120, R123 to R131). -/
def frameExchanges (send : Bool) (q : Params) : List Exchange :=
  if prologue q kind type buf id data.length = none then
    [writeIdent q.chip kind buf id, writePayload q.chip type buf data] ++ (if send then [triggerExchange q buf] else [])
  else []

/-- The end of an ENCODE or SEND: the error its prologue finds, or the response (R120). -/
def frameEnding (v : View) : Action := (prologue v.params kind type buf id data.length).elim (.respond [] 0) .raise

theorem frameEnding_ne_issue (v : View) (x : Exchange) : frameEnding kind type buf id data v ≠ .issue x := by
  unfold frameEnding
  cases prologue v.params kind type buf id data.length <;> nofun

theorem encodePlan_eq_script : encodePlan kind type buf id data =
    script (fun q _ _ => frameExchanges kind type buf id data false q) (frameEnding kind type buf id data) := by
  funext v
  cases hp : prologue v.params kind type buf id data.length with
  | some e => simp [encodePlan, script, frameExchanges, frameEnding, hp]
  | none =>
    simp only [encodePlan, script, frameExchanges, frameEnding, hp]
    match v.step with
    | 0 => rfl
    | 1 => rfl
    | k + 2 => rfl

theorem sendPlan_eq_script : sendPlan kind type buf id data =
    script (fun q _ _ => frameExchanges kind type buf id data true q) (frameEnding kind type buf id data) := by
  funext v
  cases hp : prologue v.params kind type buf id data.length with
  | some e => simp [sendPlan, script, frameExchanges, frameEnding, hp]
  | none =>
    simp only [sendPlan, script, frameExchanges, frameEnding, hp]
    match v.step with
    | 0 => rfl
    | 1 => rfl
    | 2 => rfl
    | k + 3 => rfl

/-- The exchange of a TRIGGER (R127). -/
def triggerExchanges (q : Params) : List Exchange := if nTxb ≤ buf.toNat then [] else [triggerExchange q buf]

/-- The end of a TRIGGER: the error of its buffer number, or the response (R127). -/
def triggerEnding : View → Action := fun _ => if nTxb ≤ buf.toNat then .raise .bufferNumber else .respond [] 0

theorem triggerEnding_ne_issue (v : View) (x : Exchange) : triggerEnding buf v ≠ .issue x := by
  unfold triggerEnding
  split <;> nofun

theorem triggerPlan_eq_script :
    triggerPlan buf = script (fun q _ _ => triggerExchanges buf q) (triggerEnding buf) := by
  funext v
  by_cases hb : nTxb ≤ buf.toNat
  · simp [triggerPlan, script, triggerExchanges, triggerEnding, hb]
  · simp only [triggerPlan, script, triggerExchanges, triggerEnding, hb, if_false]
    match v.step with
    | 0 => rfl
    | k + 1 => rfl

end

/-- The READ of SIDH to DLC, the first exchange of a DECODE (R150). -/
def readIdent (c : Chip) (buf : BitVec 2) : Exchange := .read (rxbAddress c buf c.offSidh) 5

/-- The READ of RXBnCTRL (R150). -/
def readRxbCtrl (c : Chip) (buf : BitVec 2) : Exchange := .read (rxbAddress c buf c.offCtrl) 1

/-- The READ of the payload (R154). -/
def readPayload (c : Chip) (buf : BitVec 2) (len : Nat) : Exchange := .read (rxbAddress c buf c.offD0) len

/-- The BIT_MODIFY that clears the receive flag in interrupt mode (R156). -/
def clearFlag (c : Chip) (buf : BitVec 2) : Exchange :=
  .bitModify (BitVec.ofNat 8 c.regCanintf) (rxifMask c buf.toNat) 0x00

/-- The exchanges of a DECODE of a buffer that exists, on a frame of `len` bytes in range (R150, R154, R156). -/
def receiveExchanges (c : Chip) (ctrl : Byte) (buf : BitVec 2) (len : Nat) : List Exchange :=
  [readIdent c buf, readRxbCtrl c buf] ++ (if len = 0 then [] else [readPayload c buf len])
    ++ (if intmode ctrl then [clearFlag c buf] else [])

/-- The exchanges of a DECODE, as far as the length it has read says (R150, R152). -/
def decodeExchanges (buf : BitVec 2) (q : Params) (ctrl : Byte) (got : List Byte) : List Exchange :=
  if nRxb ≤ buf.toNat then []
  else if maxPayload < decodedLen got then [readIdent q.chip buf]
  else receiveExchanges q.chip ctrl buf (decodedLen got)

/-- The end of a DECODE: an error of its buffer number or of the length it has read, or the frame (R150). -/
def decodeEnding (buf : BitVec 2) (v : View) : Action :=
  if nRxb ≤ buf.toNat then .raise .bufferNumber
  else if maxPayload < decodedLen v.got then .raise .invalidFrame
  else decodeResponse v

theorem decodeEnding_ne_issue (buf : BitVec 2) (v : View) (x : Exchange) : decodeEnding buf v ≠ .issue x := by
  unfold decodeEnding
  split
  · nofun
  · split <;> nofun

theorem decodePlan_eq_script (buf : BitVec 2) :
    decodePlan buf = script (decodeExchanges buf) (decodeEnding buf) := by
  funext v
  by_cases hb : nRxb ≤ buf.toNat
  · simp [decodePlan, script, decodeExchanges, decodeEnding, hb]
  by_cases hl : maxPayload < decodedLen v.got
  · simp only [decodePlan, script, decodeExchanges, decodeEnding, hb, hl, if_true, if_false]
    match v.step with
    | 0 => rfl
    | k + 1 => rfl
  simp only [decodePlan, script, decodeExchanges, decodeEnding, receiveExchanges, afterPayload, hb, hl, if_false]
  by_cases h0 : decodedLen v.got = 0 <;> by_cases hi : intmode v.ctrl = true <;>
    simp only [h0, hi, if_true, if_false, Bool.false_eq_true]
  all_goals
    match v.step with
    | 0 => rfl
    | 1 => rfl
    | 2 => rfl
    | 3 => rfl
    | k + 4 => rfl

/-! ## The exchanges of R55 -/

/-- The exchanges the block issues, in the terms of its register map (R55). -/
inductive BlockExchange (q : Params) : Exchange → Prop
  | ident (kind : FrameKind) {buf : BitVec 2} (id : BitVec 32) : buf.toNat < 3 →
    BlockExchange q (writeIdent q.chip kind buf id)
  | payload (type : FrameType) {buf : BitVec 2} {data : List Byte} : buf.toNat < 3 → data.length ≤ 8 →
    BlockExchange q (writePayload q.chip type buf data)
  | trigger {buf : BitVec 2} : buf.toNat < 3 → BlockExchange q (triggerExchange q buf)
  | readIdent {buf : BitVec 2} : buf.toNat < 2 → BlockExchange q (readIdent q.chip buf)
  | readRxbCtrl {buf : BitVec 2} : buf.toNat < 2 → BlockExchange q (readRxbCtrl q.chip buf)
  | readPayload {buf : BitVec 2} {len : Nat} : buf.toNat < 2 → 1 ≤ len → len ≤ 8 →
    BlockExchange q (readPayload q.chip buf len)
  | clearFlag {buf : BitVec 2} : buf.toNat < 2 → BlockExchange q (clearFlag q.chip buf)

/-- A rule that issues no other exchange. -/
def PlanKeepsToR55 (p : Plan) : Prop := ∀ v x, p v = .issue x → BlockExchange v.params x

theorem prologue_none_ranges {q : Params} {kind : FrameKind} {type : FrameType} {buf : BitVec 2} {id : BitVec 32}
    {len : Nat} (h : prologue q kind type buf id len = none) : buf.toNat < 3 ∧ len ≤ 8 := by
  unfold prologue at h
  split at h
  · cases h
  next hb =>
    split at h
    · cases h
    next hl => exact ⟨Nat.not_le.mp hb, Nat.not_lt.mp hl⟩

theorem frameExchanges_r55 {kind : FrameKind} {type : FrameType} {buf : BitVec 2} {id : BitVec 32} {data : List Byte}
    {send : Bool} {q : Params} {x : Exchange} (hx : x ∈ frameExchanges kind type buf id data send q) :
    BlockExchange q x := by
  unfold frameExchanges at hx
  split at hx
  next hp =>
    obtain ⟨hb, hl⟩ := prologue_none_ranges hp
    obtain hx | hx := List.mem_append.mp hx
    · obtain rfl | rfl := List.mem_pair.mp hx
      · exact .ident kind id hb
      · exact .payload type hb hl
    · obtain ⟨-, rfl⟩ : send = true ∧ x = triggerExchange q buf := by simpa using hx
      exact .trigger hb
  · cases hx

theorem triggerExchanges_r55 {buf : BitVec 2} {q : Params} {x : Exchange} (hx : x ∈ triggerExchanges buf q) :
    BlockExchange q x := by
  unfold triggerExchanges at hx
  split at hx
  · cases hx
  next hb =>
    obtain rfl := List.mem_singleton.mp hx
    exact .trigger (Nat.not_le.mp hb)

theorem receiveExchanges_r55 {q : Params} {ctrl : Byte} {buf : BitVec 2} {len : Nat} (hbuf : buf.toNat < 2)
    (hlen : len ≤ 8) {x : Exchange} (hx : x ∈ receiveExchanges q.chip ctrl buf len) : BlockExchange q x := by
  obtain hx | hx := List.mem_append.mp hx
  · obtain hx | hx := List.mem_append.mp hx
    · obtain rfl | rfl := List.mem_pair.mp hx
      · exact .readIdent hbuf
      · exact .readRxbCtrl hbuf
    · obtain ⟨h0, rfl⟩ : len ≠ 0 ∧ x = readPayload q.chip buf len := by simpa using hx
      exact .readPayload hbuf (Nat.one_le_iff_ne_zero.mpr h0) hlen
  · obtain ⟨-, rfl⟩ : intmode ctrl = true ∧ x = clearFlag q.chip buf := by simpa using hx
    exact .clearFlag hbuf

theorem decodeExchanges_r55 {buf : BitVec 2} {q : Params} {ctrl : Byte} {got : List Byte} {x : Exchange}
    (hx : x ∈ decodeExchanges buf q ctrl got) : BlockExchange q x := by
  unfold decodeExchanges at hx
  split at hx
  · cases hx
  next hb =>
    have hbuf : buf.toNat < 2 := Nat.not_le.mp hb
    split at hx
    · obtain rfl := List.mem_singleton.mp hx
      exact .readIdent hbuf
    next hl => exact receiveExchanges_r55 hbuf (Nat.not_lt.mp hl) hx

/-! ## Every command keeps to R55 -/

theorem encodePlan_r55 (kind : FrameKind) (type : FrameType) (buf : BitVec 2) (id : BitVec 32) (data : List Byte) :
    PlanKeepsToR55 (encodePlan kind type buf id data) := by
  intro v x h
  rw [encodePlan_eq_script] at h
  exact frameExchanges_r55 (script_issue_mem (frameEnding_ne_issue kind type buf id data) h)

theorem sendPlan_r55 (kind : FrameKind) (type : FrameType) (buf : BitVec 2) (id : BitVec 32) (data : List Byte) :
    PlanKeepsToR55 (sendPlan kind type buf id data) := by
  intro v x h
  rw [sendPlan_eq_script] at h
  exact frameExchanges_r55 (script_issue_mem (frameEnding_ne_issue kind type buf id data) h)

theorem triggerPlan_r55 (buf : BitVec 2) : PlanKeepsToR55 (triggerPlan buf) := by
  intro v x h
  rw [triggerPlan_eq_script] at h
  exact triggerExchanges_r55 (script_issue_mem (triggerEnding_ne_issue buf) h)

theorem decodePlan_r55 (buf : BitVec 2) : PlanKeepsToR55 (decodePlan buf) := by
  intro v x h
  rw [decodePlan_eq_script] at h
  exact decodeExchanges_r55 (script_issue_mem (decodeEnding_ne_issue buf) h)

theorem timingPlan_r55 (osc : Byte) (rate : BitVec 16) : PlanKeepsToR55 (timingPlan osc rate) := by
  intro v x h
  unfold timingPlan at h
  split at h <;> cases h

theorem wrctrlPlan_r55 (value : Byte) : PlanKeepsToR55 (wrctrlPlan value) := nofun

/-- A command is run by a rule that keeps to R55. -/
theorem exec_r55 {i : Instr} (hport : i.port = .command) :
    ∃ op p, PlanKeepsToR55 p ∧ ∀ s, exec i s = runCommand op (encode i) p s := by
  cases i with
  | encodeStdData | encodeExtData | encodeStdRtr | encodeExtRtr =>
    exact ⟨_, _, encodePlan_r55 _ _ _ _ _, fun _ => rfl⟩
  | sendStdData | sendExtData | sendStdRtr | sendExtRtr => exact ⟨_, _, sendPlan_r55 _ _ _ _ _, fun _ => rfl⟩
  | trigger => exact ⟨_, _, triggerPlan_r55 _, fun _ => rfl⟩
  | decode => exact ⟨_, _, decodePlan_r55 _, fun _ => rfl⟩
  | timing => exact ⟨_, _, timingPlan_r55 _ _, fun _ => rfl⟩
  | wrctrl => exact ⟨_, _, wrctrlPlan_r55 _, fun _ => rfl⟩
  | spiRead | spiWrite | spiBitModify | spiReset | spiReadStatus | spiRxStatus | spiReadRxb | spiLoadTxb | spiRts =>
    simp [Instr.port, Instr.exchange?] at hport

/-! ## They take effect: no command stops -/

theorem chipOk_rxb {c : Chip} (hc : chipOk c = true) (n : Nat) : rxbBase c n + offD7 c < c.size := by
  simp only [chipOk, List.all_cons, List.all_nil, Bool.and_eq_true, decide_eq_true_eq] at hc
  obtain ⟨⟨⟨⟨-, -, -, -, h0, h1, -⟩, -⟩, -⟩, -⟩ := hc
  unfold rxbBase
  split <;> assumption

/-- The bursts of R55 stay inside their buffer (R56). -/
theorem chipOk_bursts {c : Chip} (hc : chipOk c = true) :
    c.offSidh + 4 ≤ offD7 c ∧ c.offDlc + 8 ≤ offD7 c := by
  simp only [chipOk, Bool.and_eq_true, decide_eq_true_eq] at hc
  obtain ⟨⟨-, hsidh⟩, hdlc⟩ := hc
  exact ⟨hsidh, hdlc⟩

theorem toNat_ofNat_le (n : Nat) : (BitVec.ofNat 8 n).toNat ≤ n := by
  rw [BitVec.toNat_ofNat]
  exact Nat.mod_le _ _

theorem length_packId_mem (c : Chip) (kind : FrameKind) (id : BitVec 32) :
    (packId c kind id).length = 2 ∨ (packId c kind id).length = 4 := by
  cases kind
  · exact .inl rfl
  · exact .inr rfl

theorem length_payloadWritten_le (type : FrameType) (data : List Byte) :
    (payloadWritten type data).length ≤ data.length := by
  cases type <;> simp [payloadWritten]

/-- On a register map that hangs together each exchange of R55 takes effect (R51, R56). -/
theorem BlockExchange.takesEffect {q : Params} (hc : chipOk q.chip = true) {x : Exchange} (hx : BlockExchange q x)
    (m : Memory) (d : Nat) : ∃ r, activeEffect q x m d = .next r := by
  obtain ⟨hsidh, hdlc⟩ := chipOk_bursts hc
  cases hx with
  | @ident kind buf id hbuf =>
    have hlen := length_packId_mem q.chip kind id
    have hbase := (chipOk_txb hc buf.toNat).1
    have haddr := toNat_ofNat_le (txbBase q.chip buf.toNat + q.chip.offSidh)
    exact ⟨_, activeEffect_write (by omega) (Nat.le_trans (Nat.add_le_add_right haddr _) (by omega))⟩
  | @payload type buf data hbuf hlen =>
    have hbase := (chipOk_txb hc buf.toNat).1
    have haddr := toNat_ofNat_le (txbBase q.chip buf.toNat + q.chip.offDlc)
    have hdata := Nat.le_trans (length_payloadWritten_le type data) hlen
    exact ⟨_, activeEffect_write (Nat.le_add_left ..)
      (Nat.le_trans (Nat.add_le_add haddr (Nat.succ_le_succ hdata)) (by omega))⟩
  | @trigger buf hbuf =>
    obtain ⟨hbase, hctrl⟩ := chipOk_txb hc buf.toNat
    have haddr := toNat_ofNat_le (txbBase q.chip buf.toNat + q.chip.offCtrl)
    unfold triggerExchange
    cases q.triggerForm with
    | bitModify => exact ⟨_, activeEffect_bitModify (Nat.lt_of_le_of_lt haddr (by omega))⟩
    | rts => exact ⟨_, rfl⟩
  | @readIdent buf hbuf =>
    have hbase := chipOk_rxb hc buf.toNat
    have haddr := toNat_ofNat_le (rxbBase q.chip buf.toNat + q.chip.offSidh)
    exact ⟨_, activeEffect_read (by decide) (Nat.le_trans (Nat.add_le_add_right haddr _) (by omega))⟩
  | @readRxbCtrl buf hbuf =>
    have hbase := chipOk_rxb hc buf.toNat
    have hctrl := (chipOk_txb hc 0).2
    have haddr := toNat_ofNat_le (rxbBase q.chip buf.toNat + q.chip.offCtrl)
    exact ⟨_, activeEffect_read (by decide) (Nat.le_trans (Nat.add_le_add_right haddr _) (by omega))⟩
  | @readPayload buf len hbuf h1 h8 =>
    have hbase := chipOk_rxb hc buf.toNat
    have haddr := toNat_ofNat_le (rxbBase q.chip buf.toNat + q.chip.offD0)
    simp only [offD7] at hbase
    exact ⟨_, activeEffect_read h1 (Nat.le_trans (Nat.add_le_add_right haddr _) (by omega))⟩
  | clearFlag hbuf =>
    exact ⟨_, activeEffect_bitModify (Nat.lt_of_le_of_lt (toNat_ofNat_le _) (chipOk_canintf hc))⟩

section
variable {s : State} {p : Plan}

/-- An action of a rule that keeps to R55 stops neither with a fault nor with a refusal. -/
theorem act_answers (hp : PlanKeepsToR55 p) (hc : chipOk s.params.chip = true) : ∃ t, act p s = .next t := by
  unfold act
  cases hv : p s.view with
  | issue x =>
    obtain ⟨r, hr⟩ := (hp s.view x hv).takesEffect hc s.peer s.draws
    obtain ⟨r', hr'⟩ : ∃ r', exchangeEffect s.params x s.peer s.draws = .next r' := exchangeEffect_completes hr
    dsimp only
    unfold blockExchange
    split
    · exact ⟨_, rfl⟩
    · rw [hr']
      exact ⟨_, rfl⟩
  | raise e => exact ⟨_, rfl⟩
  | respond bytes drawn => exact ⟨_, rfl⟩
  | writeCtrl w => exact ⟨_, rfl⟩

/-- A turn of an agent that is no other master stops nothing. -/
theorem envTurn_answers {u : Turn} (hu : ∀ mosi, u ≠ .master mosi) : ∃ t, envTurn u s = .next t := by
  cases u with
  | master mosi => exact absurd rfl (hu mosi)
  | block | chip | hold | offer | take | reset => exact ⟨_, rfl⟩

theorem turn_answers (hp : PlanKeepsToR55 p) (hc : chipOk s.params.chip = true) {u : Turn}
    (hu : ∀ mosi, u ≠ .master mosi) : ∃ t, turn p u s = .next t := by
  by_cases hb : u = .block
  · subst hb
    exact act_answers hp hc
  · rw [turn_eq_envTurn hb]
    exact envTurn_answers hu

theorem runAlone_answers (hp : PlanKeepsToR55 p) (hc : chipOk s.params.chip = true) (n : Nat) :
    ∃ t, runAlone p n s = .next t := by
  induction n generalizing s with
  | zero => exact ⟨s, rfl⟩
  | succ n ih =>
    by_cases hs : s.seq = .idle
    · exact ⟨s, runAlone_idle hs⟩
    · obtain ⟨t, ht⟩ := act_answers hp hc
      rw [runAlone_succ hs ht]
      exact ih (by rwa [act_params ht])

theorem drive_answers (hp : PlanKeepsToR55 p) (hc : chipOk s.params.chip = true) {ts : List Turn}
    (hts : ∀ u ∈ ts, ∀ mosi, u ≠ .master mosi) : ∃ t, drive p ts s = .next t := by
  induction ts generalizing s with
  | nil => exact runAlone_answers (s := { s with agenda := [] }) hp hc maxActions
  | cons u ts ih =>
    rw [drive]
    split
    · exact ⟨_, rfl⟩
    · obtain ⟨t, ht⟩ := turn_answers hp hc (hts u List.mem_cons_self)
      rw [ht]
      exact ih (by rwa [turn_params ht]) fun v hv => hts v (List.mem_cons_of_mem u hv)

theorem runCommand_answers (hp : PlanKeepsToR55 p) (hc : chipOk s.params.chip = true)
    (hag : ∀ u ∈ s.agenda, ∀ mosi, u ≠ .master mosi) (op : Op) (bytes : List Byte) :
    ∃ t, runCommand op bytes p s = .next t := by
  unfold runCommand
  split
  · split
    · exact ⟨_, rfl⟩
    · split
      · exact ⟨_, rfl⟩
      · exact drive_answers (s := s.accept op bytes) hp hc hag
  · split
    · exact drive_answers hp hc hag
    · exact ⟨_, rfl⟩

end

/-- Settles O60: each exchange its rule issues takes effect, so every action and every turn of its run answers. -/
theorem noCommandStopsTheMachine : Obligations.NoCommandStopsTheMachine := by
  intro s i hc hport hag
  obtain ⟨op, p, hp, hrun⟩ := exec_r55 hport
  rw [hrun]
  exact runCommand_answers hp hc hag op _

/-! ## Their bytes: the block keeps to R55 -/

/-- A well-formed exchange is read back from its bytes (R96). -/
theorem decodeExchange_encodeExchange {x : Exchange} (hx : x.wellFormed = true) :
    decodeExchange .mcp2515 (encodeExchange .mcp2515 x) = .ok x := by
  cases x with
  | read a n =>
    have hn : n ≠ 0 := Nat.one_le_iff_ne_zero.mp (of_decide_eq_true hx)
    simp [encodeExchange, decodeExchange, exchangeOf, hn]
  | write a data =>
    have hn : data.length ≠ 0 := Nat.one_le_iff_ne_zero.mp (of_decide_eq_true hx)
    simp only [encodeExchange, decodeExchange, exchangeOf, if_neg hn]
    rfl
  | bitModify a m v => rfl
  | reset => rfl
  | readStatus k =>
    have hk : k ≠ 0 := Nat.one_le_iff_ne_zero.mp (of_decide_eq_true hx)
    simp only [encodeExchange, decodeExchange, exchangeOf, List.length_replicate, if_neg hk]
    rfl
  | rxStatus k =>
    have hk : k ≠ 0 := Nat.one_le_iff_ne_zero.mp (of_decide_eq_true hx)
    simp only [encodeExchange, decodeExchange, exchangeOf, List.length_replicate, if_neg hk]
    rfl
  | readRxb n m k =>
    have hbit : ∀ b : BitVec 1, b = 0 ∨ b = 1 := by decide
    obtain rfl | rfl := hbit n <;> obtain rfl | rfl := hbit m <;>
      (simp only [encodeExchange, decodeExchange, exchangeOf, List.length_replicate]; rfl)
  | loadTxb abc data =>
    have habc : ∀ b : BitVec 3, b.toNat < 6 → b = 0 ∨ b = 1 ∨ b = 2 ∨ b = 3 ∨ b = 4 ∨ b = 5 := by decide
    obtain rfl | rfl | rfl | rfl | rfl | rfl := habc abc (of_decide_eq_true hx) <;> rfl
  | rts sel =>
    revert sel
    decide

theorem txBase_mem {n : Nat} (hn : n < 3) : txBase n ∈ [0x30, 0x40, 0x50] := by
  obtain rfl | rfl | rfl : n = 0 ∨ n = 1 ∨ n = 2 := by omega
  all_goals decide

theorem rxBase_mem {n : Nat} (hn : n < 2) : rxBase n ∈ [0x60, 0x70] := by
  obtain rfl | rfl : n = 0 ∨ n = 1 := by omega
  all_goals decide

theorem toNat_rxbAddress {buf : BitVec 2} (hb : buf.toNat < 2) {off : Nat} (h : off ≤ 13) :
    (rxbAddress .mcp2515 buf off).toNat = rxBase buf.toNat + off := by
  rw [rxbAddress, rxbBase_mcp2515 hb, BitVec.toNat_ofNat, Nat.mod_eq_of_lt (by simp only [rxBase]; omega)]

/-- The WRITEs of the table of R55. -/
theorem blockMayIssue_write {n : Nat} (hn : n < 3) {a : Byte} {data : List Byte}
    (h : (a.toNat = txBase n + 1 ∧ (data.length = 2 ∨ data.length = 4)) ∨
      (a.toNat = txBase n + 5 ∧ 1 ≤ data.length ∧ data.length ≤ 9)) :
    blockMayIssue (encodeExchange .mcp2515 (.write a data)) = true := by
  have hwf : (Exchange.write a data).wellFormed = true := decide_eq_true (by omega)
  rw [blockMayIssue, decodeExchange_encodeExchange hwf]
  refine List.any_eq_true.mpr ⟨_, txBase_mem hn, ?_⟩
  simpa only [Bool.or_eq_true, Bool.and_eq_true, decide_eq_true_eq, and_assoc] using h

/-- The READs of the table of R55. -/
theorem blockMayIssue_read {n : Nat} (hn : n < 2) {a : Byte} {k : Nat}
    (h : (a.toNat = rxBase n + 1 ∧ k = 5) ∨ (a.toNat = rxBase n ∧ k = 1) ∨ (a.toNat = rxBase n + 6 ∧ 1 ≤ k ∧ k ≤ 8)) :
    blockMayIssue (encodeExchange .mcp2515 (.read a k)) = true := by
  have hwf : (Exchange.read a k).wellFormed = true := decide_eq_true (by omega)
  rw [blockMayIssue, decodeExchange_encodeExchange hwf]
  refine List.any_eq_true.mpr ⟨_, rxBase_mem hn, ?_⟩
  simpa only [Bool.or_eq_true, Bool.and_eq_true, decide_eq_true_eq, and_assoc, or_assoc] using h

/-- The triggers of the table of R55, in both forms. -/
theorem blockMayIssue_trigger {q : Params} (hq : q.chip = .mcp2515) {buf : BitVec 2} (hbuf : buf.toNat < 3) :
    blockMayIssue (encodeExchange .mcp2515 (triggerExchange q buf)) = true := by
  unfold triggerExchange
  rw [hq]
  revert buf
  cases q.triggerForm <;> decide

theorem blockMayIssue_clearFlag {buf : BitVec 2} (hbuf : buf.toNat < 2) :
    blockMayIssue (encodeExchange .mcp2515 (clearFlag .mcp2515 buf)) = true := by
  revert buf
  decide

/-- On the MCP2515 the bytes of each exchange of R55 are among those it lists. -/
theorem BlockExchange.mayIssue {q : Params} (hq : q.chip = .mcp2515) {x : Exchange} (hx : BlockExchange q x) :
    blockMayIssue (encodeExchange .mcp2515 x) = true := by
  cases hx with
  | ident kind id hbuf =>
    rw [hq]
    exact blockMayIssue_write hbuf (.inl ⟨toNat_txbAddress hbuf (by decide), length_packId_mem _ kind id⟩)
  | payload type hbuf hlen =>
    rw [hq]
    exact blockMayIssue_write hbuf (.inr ⟨toNat_txbAddress hbuf (by decide), Nat.le_add_left ..,
      Nat.succ_le_succ (Nat.le_trans (length_payloadWritten_le type _) hlen)⟩)
  | trigger hbuf => exact blockMayIssue_trigger hq hbuf
  | readIdent hbuf =>
    rw [hq]
    exact blockMayIssue_read hbuf (.inl ⟨toNat_rxbAddress hbuf (by decide), rfl⟩)
  | readRxbCtrl hbuf =>
    rw [hq]
    exact blockMayIssue_read hbuf (.inr (.inl ⟨toNat_rxbAddress hbuf (by decide), rfl⟩))
  | readPayload hbuf h1 h8 =>
    rw [hq]
    exact blockMayIssue_read hbuf (.inr (.inr ⟨toNat_rxbAddress hbuf (by decide), h1, h8⟩))
  | clearFlag hbuf =>
    rw [hq]
    exact blockMayIssue_clearFlag hbuf

section
variable {s t : State} {p : Plan}

/-- The exchange of another master is none of the block's. -/
theorem BlockTrafficOk.masterExchange (h : BlockTrafficOk s) {x : Exchange} (hx : masterExchange x s = .next t) :
    BlockTrafficOk t := by
  obtain ⟨-, r, -, rfl⟩ := masterExchange_next hx
  intro e he hwho
  obtain he | he := List.mem_append.mp he
  · exact h e he hwho
  · obtain rfl := List.mem_singleton.mp he
    cases hwho

/-- The actions of a rule that keeps to R55 keep the traffic to it. -/
theorem BlockTrafficOk.act (h : BlockTrafficOk s) (hchip : Mcp2515 s) (hp : PlanKeepsToR55 p)
    (ha : act p s = .next t) : BlockTrafficOk t := by
  obtain ⟨x, hx, hex⟩ | ⟨e, -, rfl⟩ | ⟨bytes, drawn, -, rfl⟩ | ⟨v, -, rfl⟩ := act_next ha
  · obtain ⟨-, rfl⟩ | ⟨-, r, -, rfl⟩ := blockExchange_next hex
    · exact h
    · intro e he hwho
      obtain he | he := List.mem_append.mp he
      · exact h e he hwho
      · obtain rfl := List.mem_singleton.mp he
        exact hchip ▸ (hp s.view x hx).mayIssue hchip
  · exact h
  · exact h
  · exact h

theorem BlockTrafficOk.envTurn (h : BlockTrafficOk s) {u : Turn} (hu : envTurn u s = .next t) : BlockTrafficOk t := by
  cases u with
  | master mosi =>
    simp only [Machine.envTurn] at hu
    split at hu
    · exact h.masterExchange hu
    · cases hu
  | block | chip | hold | offer | take | reset =>
    cases hu
    exact h

theorem BlockTrafficOk.turn (h : BlockTrafficOk s) (hchip : Mcp2515 s) (hp : PlanKeepsToR55 p) {u : Turn}
    (hu : turn p u s = .next t) : BlockTrafficOk t := by
  by_cases hb : u = .block
  · subst hb
    exact h.act hchip hp hu
  · rw [turn_eq_envTurn hb] at hu
    exact h.envTurn hu

theorem BlockTrafficOk.drive (h : BlockTrafficOk s) (hchip : Mcp2515 s) (hp : PlanKeepsToR55 p) {ts : List Turn}
    (hd : drive p ts s = .next t) : BlockTrafficOk t :=
  (drive_keeps (P := fun u => Mcp2515 u ∧ BlockTrafficOk u) (fun _ _ hu => hu)
    (fun _ _ _ hu _ ht => ⟨(congrArg Params.chip (turn_params ht)).trans hu.1, hu.2.turn hu.1 hp ht⟩)
    ts s t ⟨hchip, h⟩ hd).2

theorem BlockTrafficOk.exec (h : BlockTrafficOk s) (hchip : Mcp2515 s) {i : Instr} (he : exec i s = .next t) :
    BlockTrafficOk t := by
  obtain ⟨op, -, hop, -⟩ | ⟨x, -, hrun⟩ := exec_command_or_exchange i
  · obtain ⟨op, p, hp, hrun⟩ := exec_r55 (port_of_opOf hop)
    rw [hrun] at he
    obtain rfl | ⟨r, -, -, rfl⟩ | ⟨-, -, hd⟩ | ⟨-, -, hd⟩ := runCommand_next he
    · exact h
    · exact h
    · exact BlockTrafficOk.drive (s := s.accept op _) h hchip hp hd
    · exact h.drive hchip hp hd
  · rw [hrun] at he
    exact h.masterExchange he

end

/-- Settles O57: the block's exchanges are those its rules issue, which are of R55; no other agent's exchange is the block's. -/
theorem blockIssuesOnlyItsOwnExchanges : Obligations.BlockIssuesOnlyItsOwnExchanges := by
  intro s t hchip h hstep
  obtain ⟨-, ⟨i, u, hf, he⟩ | hf⟩ | ⟨u, ts, -, -, he⟩ := step_next hstep
  · obtain ⟨_, _, _, -, -, -, rfl⟩ | ⟨_, rest, -, -, -, rfl⟩ := fetchBlock_run hf
    · exact BlockTrafficOk.exec (s := { s with agenda := s.agenda.tail }) h hchip he
    · exact BlockTrafficOk.exec (s := { s with agenda := s.agenda.tail, port := rest }) h hchip he
  · obtain ⟨-, -, rfl⟩ | ⟨_, _, _, -, -, -, rfl⟩ := fetchBlock_done hf
    · exact h
    · exact h
  · exact BlockTrafficOk.envTurn (s := { s with agenda := ts }) h he

end Sys2Proof.Machine
end

