-- ==== Sys2Proof/Proofs/CommandOrder.lean ====
section
/-!
SUPPORT. The exchanges of a command under every interleaving: the run of a script keeps count of the exchanges it has issued
and of the bytes they returned, and no turn of another agent but block reset disturbs the count.
-/

namespace Sys2Proof.Machine

/-! ## The bytes an exchange returns -/

/-- How many bytes that have a value an exchange returns (R96, R200). -/
def returned : Exchange → Nat
  | .read _ n => n
  | .write _ _ => 0
  | .bitModify _ _ _ => 0
  | .reset => 0
  | .readStatus k => k
  | .rxStatus _ => 1
  | .readRxb _ _ k => k
  | .loadTxb _ _ => 0
  | .rts _ => 0

theorem activeEffect_returned {q : Params} {x : Exchange} {m : Memory} {d : Nat} {r : BusResult}
    (h : activeEffect q x m d = .next r) : (dataBytes r.miso).length = returned x := by
  cases x with
  | read a n =>
    simp only [activeEffect] at h
    split at h
    · cases h
    · split at h <;> cases h
      rw [dataBytes_read, length_readBurst, returned]
  | write a data =>
    simp only [activeEffect] at h
    split at h
    · cases h
    · split at h <;> cases h
      rw [dataBytes_noValue]
      rfl
  | bitModify a mask v =>
    simp only [activeEffect] at h
    split at h <;> cases h
    rfl
  | reset => cases h; rfl
  | readStatus k =>
    simp only [activeEffect] at h
    split at h <;> cases h
    rw [← List.map_replicate, dataBytes_read, List.length_replicate, returned]
  | rxStatus k =>
    simp only [activeEffect] at h
    split at h <;> cases h
    simp [dataBytes, noValue, returned]
  | readRxb n sel k =>
    simp only [activeEffect] at h
    split at h <;> cases h
    rw [dataBytes_read, length_readBurst, returned]
  | loadTxb abc data =>
    simp only [activeEffect] at h
    split at h
    · cases h
    · split at h <;> cases h
      rw [dataBytes_noValue]
      rfl
  | rts t => cases h; rfl

/-- Awake or asleep, an exchange returns the same number of bytes. -/
theorem exchangeEffect_returned {q : Params} {x : Exchange} {m : Memory} {d : Nat} {r : BusResult}
    (h : exchangeEffect q x m d = .next r) : (dataBytes r.miso).length = returned x := by
  obtain ⟨r0, h0, ⟨-, rfl⟩ | ⟨-, rfl⟩⟩ := exchangeEffect_next h
  · exact activeEffect_returned h0
  · exact (length_dataBytes_redraw _ _).trans (activeEffect_returned h0)

/-- How many bytes a list of exchanges returns. -/
def bytesReturned (xs : List Exchange) : Nat := (xs.map returned).sum

theorem bytesReturned_append (xs ys : List Exchange) :
    bytesReturned (xs ++ ys) = bytesReturned xs + bytesReturned ys := by
  rw [bytesReturned, List.map_append, List.sum_append, bytesReturned, bytesReturned]

/-! ## The block's exchanges in the trace -/

theorem blockMosi_append_block (trace : List BusRecord) (mosi : List Byte) (miso : List (Option Byte)) :
    blockMosi (trace ++ [{ who := .block, mosi := mosi, miso := miso }]) = blockMosi trace ++ [mosi] := by
  simp [blockMosi]

theorem blockMosi_append_other (trace : List BusRecord) (mosi : List Byte) (miso : List (Option Byte)) :
    blockMosi (trace ++ [{ who := .other, mosi := mosi, miso := miso }]) = blockMosi trace := by
  simp [blockMosi]

/-- What the turns of the other agents leave of a command, block reset apart. -/
structure SameCommand (s t : State) : Prop where
  params : t.params = s.params
  ctrl : t.ctrl = s.ctrl
  seq : t.seq = s.seq
  got : t.got = s.got
  answer : t.resp.bytes = s.resp.bytes
  mosi : blockMosi t.trace = blockMosi s.trace

theorem envTurn_sameCommand {s t : State} {u : Turn} (hu : u ≠ .reset) (h : envTurn u s = .next t) :
    SameCommand s t := by
  cases u with
  | master mosi =>
    simp only [envTurn] at h
    split at h
    · obtain ⟨-, r, -, rfl⟩ := masterExchange_next h
      exact ⟨rfl, rfl, rfl, rfl, rfl, blockMosi_append_other ..⟩
    · cases h
  | reset => exact absurd rfl hu
  | block | chip | hold | offer | take =>
    cases h
    exact ⟨rfl, rfl, rfl, rfl, rfl, rfl⟩

/-! ## The run of a script -/

/-- The response an action ends a command with (R215, R95). -/
def answerOf : Action → List Byte
  | .issue _ => []
  | .raise e => [e.status]
  | .respond bytes _ => statusOk :: bytes
  | .writeCtrl _ => [statusOk]

/-- An action that issues nothing ends the command with its response. -/
theorem act_ends {p : Plan} {s t : State} (hp : ∀ x, p s.view ≠ .issue x) (h : act p s = .next t) :
    t.seq = .idle ∧ t.resp.bytes = some (answerOf (p s.view)) ∧ t.trace = s.trace := by
  obtain ⟨x, hx, -⟩ | ⟨e, he, rfl⟩ | ⟨bytes, drawn, hr, rfl⟩ | ⟨v, hv, rfl⟩ := act_next h
  · exact absurd hx (hp x)
  · rw [he]; exact ⟨rfl, rfl, rfl⟩
  · rw [hr]; exact ⟨rfl, rfl, rfl⟩
  · rw [hv]; exact ⟨rfl, rfl, rfl⟩

theorem act_issues {p : Plan} {s t : State} {x : Exchange} (hp : p s.view = .issue x) (h : act p s = .next t) :
    blockExchange x s = .next t := by
  simpa only [act, hp] using h

section
variable (s : State) (exchanges : List Byte → List Exchange) (ending : View → Action)

/-- The command that started in `s` has issued the first `k` of its exchanges, and they returned the bytes it has read. -/
structure RunningAt (k : Nat) (u : State) : Prop where
  params : u.params = s.params
  ctrl : u.ctrl = s.ctrl
  seq : ∃ op, u.seq = .busy op k
  le : k ≤ (exchanges u.got).length
  mosi : blockMosi u.trace = blockMosi s.trace ++ ((exchanges u.got).take k).map (encodeExchange s.params.chip)
  got : u.got.length = bytesReturned ((exchanges u.got).take k)

/-- The command that started in `s` has issued all its exchanges and answered; `v` is what its rule saw last. -/
structure EndedAt (v : View) (u : State) : Prop where
  seq : u.seq = .idle
  mosi : blockMosi u.trace = blockMosi s.trace ++ (exchanges v.got).map (encodeExchange s.params.chip)
  got : v.got.length = bytesReturned (exchanges v.got)
  answer : u.resp.bytes = some (answerOf (ending v))

/-- The command that started in `s` keeps to its script. -/
def OnScript (u : State) : Prop := (∃ k, RunningAt s exchanges k u) ∨ ∃ v, EndedAt s exchanges ending v u

/-- The bytes an exchange returns do not change the list of exchanges as far as it has been issued. -/
def ReadsKeep : Prop :=
  ∀ (got bytes : List Byte) (k : Nat), k < (exchanges got).length → got.length = bytesReturned ((exchanges got).take k) →
    (exchanges (got ++ bytes)).take (k + 1) = (exchanges got).take (k + 1)

end

section
variable {s u t : State} {exchanges : Params → Byte → List Byte → List Exchange} {ending : View → Action}

theorem OnScript.same {xs : List Byte → List Exchange} (h : OnScript s xs ending u) (hsame : SameCommand u t) :
    OnScript s xs ending t := by
  obtain ⟨hparams, hctrl, hseq, hgot, hanswer, hmosi⟩ := hsame
  obtain ⟨k, hrun⟩ | ⟨v, hend⟩ := h
  · refine .inl ⟨k, hparams.trans hrun.params, hctrl.trans hrun.ctrl, hseq ▸ hrun.seq, ?_, ?_, ?_⟩
    · rw [hgot]; exact hrun.le
    · rw [hgot, hmosi]; exact hrun.mosi
    · rw [hgot]; exact hrun.got
  · exact .inr ⟨v, hseq.trans hend.seq, hmosi.trans hend.mosi, hend.got, hanswer.trans hend.answer⟩

/-- One exchange of the script done: the count goes up by one (R23). -/
theorem RunningAt.advance {xs : List Byte → List Exchange} (hkeep : ReadsKeep xs) {k : Nat} (h : RunningAt s xs k u)
    (hk : k < (xs u.got).length) {r : BusResult}
    (hr : exchangeEffect u.params (xs u.got)[k] u.peer u.draws = .next r) :
    RunningAt s xs (k + 1) ((u.afterExchange .block (xs u.got)[k] r).advance (dataBytes r.miso)) := by
  obtain ⟨op, hseq⟩ := h.seq
  have htake := hkeep u.got (dataBytes r.miso) k hk h.got
  have hsucc : (xs u.got).take (k + 1) = (xs u.got).take k ++ [(xs u.got)[k]] := List.take_succ_eq_append_getElem hk
  refine ⟨h.params, h.ctrl, ⟨op, State.advance_seq_busy _ _ hseq⟩, ?_, ?_, ?_⟩
  · have hlen := congrArg List.length htake
    rw [List.length_take, List.length_take] at hlen
    simp only [State.advance_got, State.afterExchange_got]
    omega
  · simp only [State.advance_got, State.afterExchange_got, State.advance_trace, State.afterExchange_trace]
    rw [htake, hsucc, blockMosi_append_block, h.mosi, h.params, List.map_append, List.append_assoc]
    rfl
  · simp only [State.advance_got, State.afterExchange_got]
    rw [htake, hsucc, List.length_append, exchangeEffect_returned hr, h.got, bytesReturned_append]
    rfl

/-- An action of a script keeps to it: an exchange more, a wait for BUS, or the end. -/
theorem RunningAt.act (hkeep : ReadsKeep (exchanges s.params s.ctrl)) (hend : ∀ v x, ending v ≠ .issue x) {k : Nat}
    (h : RunningAt s (exchanges s.params s.ctrl) k u) (ha : act (script exchanges ending) u = .next t) :
    OnScript s (exchanges s.params s.ctrl) ending t := by
  obtain ⟨op, hseq⟩ := h.seq
  have hlist : exchanges u.view.params u.view.ctrl u.view.got = exchanges s.params s.ctrl u.got := by
    rw [State.view_params, State.view_ctrl, State.view_got, h.params, h.ctrl]
  have hstep : u.view.step = k := by rw [State.view_step, hseq]; rfl
  obtain hk | hk := Nat.lt_or_ge k (exchanges s.params s.ctrl u.got).length
  · have hissue : script exchanges ending u.view = .issue (exchanges s.params s.ctrl u.got)[k] := by
      simp only [script, hlist, hstep, List.getElem?_eq_getElem hk, Option.elim_some]
    obtain ⟨-, rfl⟩ | ⟨-, r, hr, rfl⟩ := blockExchange_next (act_issues hissue ha)
    · exact .inl ⟨k, h⟩
    · exact .inl ⟨k + 1, h.advance hkeep hk hr⟩
  · have hlast : script exchanges ending u.view = ending u.view := script_of_le (by rw [hlist, hstep]; exact hk)
    obtain ⟨hidle, hanswer, htrace⟩ := act_ends (fun x => hlast ▸ hend u.view x) ha
    have hall : (exchanges s.params s.ctrl u.got).take k = exchanges s.params s.ctrl u.got := List.take_of_length_le hk
    refine .inr ⟨u.view, hidle, ?_, ?_, hlast ▸ hanswer⟩
    · rw [htrace, h.mosi, hall, State.view_got]
    · rw [State.view_got, h.got, hall]

/-- Under every interleaving without a block reset, a command at a ready block keeps to its script (R58, R61). -/
theorem runCommand_onScript (hkeep : ReadsKeep (exchanges s.params s.ctrl)) (hend : ∀ v x, ending v ≠ .issue x)
    (hs : Ready s) (hag : .reset ∉ s.agenda) {op : Op} {bytes : List Byte} (hc : structuralCheck bytes = none)
    (h : runCommand op bytes (script exchanges ending) s = .next t) :
    OnScript s (exchanges s.params s.ctrl) ending t := by
  rw [runCommand_ready hs hc] at h
  refine drive_keeps_turns (P := OnScript s (exchanges s.params s.ctrl) ending) (Q := (· ≠ .reset))
    (fun _ _ hu => hu.same ⟨rfl, rfl, rfl, rfl, rfl, rfl⟩) (fun u t hu hbusy ha => ?_)
    (fun _ _ _ hQ hu he => hu.same (envTurn_sameCommand hQ he)) (fun _ hu e => hag (e ▸ hu)) ?_ h
  · obtain ⟨k, hrun⟩ | ⟨v, hended⟩ := hu
    · exact hrun.act hkeep hend ha
    · exact absurd hended.seq hbusy
  · exact .inl ⟨0, rfl, rfl, ⟨op, rfl⟩, Nat.zero_le _, (List.append_nil _).symm, rfl⟩

end

/-! ## The transmit side -/

/-- From `s` to `t` the block has issued a part of `planned` from its start, and all of it if the command has ended. -/
def InOrder (s t : State) (planned : List (List Byte)) : Prop :=
  ∃ issued, blockMosi t.trace = blockMosi s.trace ++ issued ∧ issued <+: planned ∧ (t.seq = .idle → issued = planned)

theorem RunningAt.not_idle {s t : State} {xs : List Byte → List Exchange} {k : Nat} (h : RunningAt s xs k t) :
    t.seq ≠ .idle := by
  obtain ⟨op, hseq⟩ := h.seq
  rw [hseq]
  nofun

/-- A script that does not depend on what it reads is issued in order. -/
theorem OnScript.inOrder {s t : State} {xs : List Exchange} {ending : View → Action}
    (h : OnScript s (fun _ => xs) ending t) : InOrder s t (xs.map (encodeExchange s.params.chip)) := by
  obtain ⟨k, hrun⟩ | ⟨v, hend⟩ := h
  · exact ⟨_, hrun.mosi, (List.take_prefix k xs).map _, fun hidle => absurd hidle hrun.not_idle⟩
  · exact ⟨_, hend.mosi, List.prefix_refl _, fun _ => rfl⟩

theorem readsKeep_const (xs : List Exchange) : ReadsKeep fun _ => xs := fun _ _ _ _ _ => rfl

section
variable {s t : State} {kind : FrameKind} {type : FrameType} {buf : BitVec 2} {id : BitVec 32} {data : List Byte}

/-- The trigger exchange as the statements write it (R127). -/
theorem triggerExchange_mosi {q : Params} (hq : q.chip = .mcp2515) (hbuf : buf.toNat < 3) :
    encodeExchange .mcp2515 (triggerExchange q buf) = triggerMosi q.triggerForm buf.toNat := by
  unfold triggerExchange
  rw [hq]
  revert buf
  cases q.triggerForm <;> decide

theorem loadExchanges_mosi (hbuf : buf.toNat < 3) :
    [writeIdent .mcp2515 kind buf id, writePayload .mcp2515 type buf data].map (encodeExchange .mcp2515) =
      loadMosi kind type buf.toNat id data := by
  have haddr : ∀ off, txbAddress .mcp2515 buf off = BitVec.ofNat 8 (txBase buf.toNat + off) := fun off => by
    rw [txbAddress, txbBase_mcp2515 hbuf]
  simp only [writeIdent, writePayload, haddr]
  rfl

theorem frameExchanges_mosi {q : Params} (hq : q.chip = .mcp2515) (send : Bool) :
    (frameExchanges kind type buf id data send q).map (encodeExchange .mcp2515) =
      plannedFrame q send kind type buf id data := by
  have hstatus : frameStatus q.remoteTx kind type buf id data.length = none ↔
      prologue q kind type buf id data.length = none := by
    rw [frameStatus_eq_prologue, Option.map_eq_none_iff]
  unfold frameExchanges plannedFrame
  by_cases hp : prologue q kind type buf id data.length = none
  · have hbuf := (prologue_none_ranges hp).1
    rw [if_pos hp, if_pos (hstatus.mpr hp), hq, List.map_append, loadExchanges_mosi hbuf]
    cases send
    · rfl
    · rw [if_pos rfl, if_pos rfl, List.map_singleton, triggerExchange_mosi hq hbuf]
  · rw [if_neg hp, if_neg (hp ∘ hstatus.mp)]
    rfl

theorem encodeVariant_inOrder (hchip : Mcp2515 s) (hs : Ready s) (hag : .reset ∉ s.agenda) (hd : lenFits data = true)
    (h : exec (encodeVariant kind type buf id data) s = .next t) :
    InOrder s t (plannedFrame s.params false kind type buf id data) := by
  rw [exec_encodeVariant, encodePlan_eq_script, encode_encodeVariant] at h
  have hrun := runCommand_onScript (readsKeep_const _) (frameEnding_ne_issue kind type buf id data) hs hag
    (structuralCheck_frameBytes (.inl rfl) _ _ _ _ hd) h
  rw [← frameExchanges_mosi hchip, ← hchip]
  exact hrun.inOrder

theorem sendVariant_inOrder (hchip : Mcp2515 s) (hs : Ready s) (hag : .reset ∉ s.agenda) (hd : lenFits data = true)
    (h : exec (sendVariant kind type buf id data) s = .next t) :
    InOrder s t (plannedFrame s.params true kind type buf id data) := by
  rw [exec_sendVariant, sendPlan_eq_script, encode_sendVariant] at h
  have hrun := runCommand_onScript (readsKeep_const _) (frameEnding_ne_issue kind type buf id data) hs hag
    (structuralCheck_frameBytes (.inr rfl) _ _ _ _ hd) h
  rw [← frameExchanges_mosi hchip, ← hchip]
  exact hrun.inOrder

theorem triggerExchanges_mosi {q : Params} (hq : q.chip = .mcp2515) :
    (triggerExchanges buf q).map (encodeExchange .mcp2515) =
      if buf.toNat ≤ 2 then [triggerMosi q.triggerForm buf.toNat] else [] := by
  unfold triggerExchanges
  by_cases hb : nTxb ≤ buf.toNat
  · rw [if_pos hb, if_neg (Nat.not_le.mpr hb : ¬ buf.toNat ≤ 2)]
    rfl
  · have hbuf : buf.toNat < 3 := Nat.not_le.mp hb
    rw [if_neg hb, if_pos (Nat.le_of_lt_succ hbuf), List.map_singleton, triggerExchange_mosi hq hbuf]

theorem trigger_inOrder (hchip : Mcp2515 s) (hs : Ready s) (hag : .reset ∉ s.agenda)
    (h : exec (.trigger buf) s = .next t) : InOrder s t (plannedMosi s.params (.trigger buf)) := by
  have h : runCommand .trigger (encode (.trigger buf)) (triggerPlan buf) s = .next t := h
  rw [triggerPlan_eq_script] at h
  have hrun := runCommand_onScript (readsKeep_const _) (triggerEnding_ne_issue buf) hs hag
    (structuralCheck_encode (i := .trigger buf) rfl rfl) h
  have hmosi : plannedMosi s.params (.trigger buf) = _ := (triggerExchanges_mosi hchip).symm
  rw [hmosi, ← hchip]
  exact hrun.inOrder

/-- Every transmit-side command issues its exchanges in order. -/
theorem transmit_inOrder (hchip : Mcp2515 s) (hs : Ready s) (hag : .reset ∉ s.agenda) {i : Instr}
    (hi : isTransmit i = true) (hwf : i.wellFormed = true) (h : exec i s = .next t) :
    InOrder s t (plannedMosi s.params i) := by
  cases i with
  | encodeStdData => exact encodeVariant_inOrder (kind := .std) (type := .data) hchip hs hag hwf h
  | encodeExtData => exact encodeVariant_inOrder (kind := .ext) (type := .data) hchip hs hag hwf h
  | encodeStdRtr => exact encodeVariant_inOrder (kind := .std) (type := .remote) hchip hs hag hwf h
  | encodeExtRtr => exact encodeVariant_inOrder (kind := .ext) (type := .remote) hchip hs hag hwf h
  | sendStdData => exact sendVariant_inOrder (kind := .std) (type := .data) hchip hs hag hwf h
  | sendExtData => exact sendVariant_inOrder (kind := .ext) (type := .data) hchip hs hag hwf h
  | sendStdRtr => exact sendVariant_inOrder (kind := .std) (type := .remote) hchip hs hag hwf h
  | sendExtRtr => exact sendVariant_inOrder (kind := .ext) (type := .remote) hchip hs hag hwf h
  | trigger => exact trigger_inOrder hchip hs hag h
  | decode | timing | wrctrl | spiRead | spiWrite | spiBitModify | spiReset | spiReadStatus | spiRxStatus | spiReadRxb
  | spiLoadTxb | spiRts => cases hi

end

/-! ## DECODE -/

section
variable {buf : BitVec 2} {q : Params} {ctrl : Byte}

/-- The first exchange of a DECODE of a buffer that exists is the READ of identifier and DLC, whatever follows (R150). -/
theorem decodeExchanges_cons (hbuf : buf.toNat < 2) (got : List Byte) :
    ∃ rest, decodeExchanges buf q ctrl got = readIdent q.chip buf :: rest := by
  rw [decodeExchanges, if_neg (Nat.not_le.mpr hbuf : ¬ nRxb ≤ buf.toNat)]
  split <;> exact ⟨_, rfl⟩

/-- The length is the fifth byte read, and stays that. -/
theorem decodedLen_append {got : List Byte} (h : 5 ≤ got.length) (bytes : List Byte) :
    decodedLen (got ++ bytes) = decodedLen got := by
  rw [decodedLen, List.getD_append _ _ _ _ h, decodedLen]

theorem decodeExchanges_readsKeep (buf : BitVec 2) (q : Params) (ctrl : Byte) :
    ReadsKeep (decodeExchanges buf q ctrl) := by
  intro got bytes k hk hgot
  by_cases hbuf : buf.toNat < 2
  · obtain ⟨rest, hrest⟩ := decodeExchanges_cons (q := q) (ctrl := ctrl) hbuf got
    cases k with
    | zero =>
      obtain ⟨rest', hrest'⟩ := decodeExchanges_cons (q := q) (ctrl := ctrl) hbuf (got ++ bytes)
      rw [hrest, hrest']
      rfl
    | succ k =>
      rw [hrest] at hgot
      have hfive : 5 ≤ got.length := hgot ▸ Nat.le_add_right 5 (bytesReturned (rest.take k))
      rw [decodeExchanges, decodedLen_append hfive, ← decodeExchanges]
  · rw [decodeExchanges, if_pos (Nat.not_lt.mp hbuf : nRxb ≤ buf.toNat)] at hk
    cases hk

theorem receiveExchanges_mosi (hbuf : buf.toNat < 2) (ctrl : Byte) (len : Nat) :
    (receiveExchanges .mcp2515 ctrl buf len).map (encodeExchange .mcp2515) = decodeMosi ctrl buf.toNat len := by
  have hflag : rxifMask .mcp2515 buf.toNat = if buf.toNat = 0 then 0x01 else 0x02 := by
    revert buf
    decide
  have haddr : ∀ off, rxbAddress .mcp2515 buf off = BitVec.ofNat 8 (rxBase buf.toNat + off) := fun off => by
    rw [rxbAddress, rxbBase_mcp2515 hbuf]
  unfold receiveExchanges decodeMosi
  rw [List.map_append, List.map_append, apply_ite (List.map _), apply_ite (List.map _)]
  simp only [readIdent, readRxbCtrl, readPayload, clearFlag, haddr, hflag]
  rfl

/-- The identifier and DLC, the control register and the payload (R150). -/
theorem bytesReturned_receiveExchanges (c : Chip) (ctrl : Byte) (buf : BitVec 2) (len : Nat) :
    bytesReturned (receiveExchanges c ctrl buf len) = 6 + len := by
  have hpayload : bytesReturned (if len = 0 then [] else [readPayload c buf len]) = len := by
    split
    next h => exact h.symm
    next => exact Nat.add_zero _
  have hflag : bytesReturned (if intmode ctrl then [clearFlag c buf] else []) = 0 := by
    split <;> rfl
  rw [receiveExchanges, bytesReturned_append, bytesReturned_append, hpayload, hflag]
  rfl

/-- What a DECODE issues is, up to the length it has read, a part from its start of what it issues on some frame. -/
theorem decodeExchanges_prefix (hq : q.chip = .mcp2515) (hbuf : buf.toNat < 2) (got : List Byte) :
    ∃ len ≤ 8, (decodeExchanges buf q ctrl got).map (encodeExchange .mcp2515) <+: decodeMosi ctrl buf.toNat len := by
  rw [decodeExchanges, if_neg (Nat.not_le.mpr hbuf : ¬ nRxb ≤ buf.toNat), hq]
  split
  · refine ⟨0, by decide, ?_⟩
    rw [← receiveExchanges_mosi hbuf]
    exact List.prefix_append _ _
  next hlen => exact ⟨_, Nat.not_lt.mp hlen, by rw [receiveExchanges_mosi hbuf]⟩

theorem length_drawBytes (d n : Nat) : (drawBytes d n).length = n := by
  induction n generalizing d with
  | zero => rfl
  | succ n ih => rw [drawBytes, List.length_cons, ih]

/-- The response of a DECODE that has read a frame: OK, and a descriptor with as many payload bytes as the DLC says (R157). -/
theorem answerOf_decodeResponse {v : View} (hgot : v.got.length = 6 + decodedLen v.got) :
    ∃ d, answerOf (decodeResponse v) = 0x00 :: d ∧ d.length = 5 + decodedLen v.got := by
  have hpayload : (decodedPayload v.params.chip v.got v.draws).length = decodedLen v.got := by
    unfold decodedPayload
    split
    · rw [List.length_drop, hgot, Nat.add_sub_cancel_left]
    · exact length_drawBytes _ _
  refine ⟨_, rfl, ?_⟩
  rw [descriptor, List.length_cons, List.length_append, length_idBytes, hpayload]
  omega

end

section
variable {s t : State} {buf : BitVec 2}

theorem decode_onScript (hs : Ready s) (hag : .reset ∉ s.agenda) (h : exec (.decode buf) s = .next t) :
    OnScript s (decodeExchanges buf s.params s.ctrl) (decodeEnding buf) t := by
  have h : runCommand .decode (encode (.decode buf)) (decodePlan buf) s = .next t := h
  rw [decodePlan_eq_script] at h
  exact runCommand_onScript (decodeExchanges_readsKeep buf _ _) (decodeEnding_ne_issue buf) hs hag
    (structuralCheck_encode (i := .decode buf) rfl rfl) h

/-- From `s` to `t` the block has issued, for a DECODE, a part from their start of the exchanges of its rule; what it has
issued when it ends, and what it answers, is by the buffer it names and the length it has read. -/
def DecodeInOrder (s t : State) (buf : BitVec 2) : Prop :=
  ∃ issued len, blockMosi t.trace = blockMosi s.trace ++ issued ∧ len ≤ 8 ∧
    (buf.toNat < 2 → issued <+: decodeMosi s.ctrl buf.toNat len) ∧ (2 ≤ buf.toNat → issued = []) ∧
    (t.seq = .idle →
      (2 ≤ buf.toNat ∧ t.resp.bytes = some [0x14]) ∨
      (buf.toNat < 2 ∧ t.resp.bytes = some [0x02] ∧ issued.length = 1) ∨
      (buf.toNat < 2 ∧ (∃ d, t.resp.bytes = some (0x00 :: d) ∧ d.length = 5 + len) ∧
        issued = decodeMosi s.ctrl buf.toNat len))

theorem RunningAt.decodeInOrder (hchip : Mcp2515 s) {k : Nat}
    (h : RunningAt s (decodeExchanges buf s.params s.ctrl) k t) : DecodeInOrder s t buf := by
  have hmosi := h.mosi
  rw [hchip] at hmosi
  obtain hbuf | hbuf := Nat.lt_or_ge buf.toNat 2
  · obtain ⟨len, hle, hprefix⟩ := decodeExchanges_prefix (ctrl := s.ctrl) hchip hbuf t.got
    exact ⟨_, len, hmosi, hle, fun _ => ((List.take_prefix k _).map _).trans hprefix,
      fun h2 => absurd h2 (Nat.not_le.mpr hbuf), fun hidle => absurd hidle h.not_idle⟩
  · have hnil : decodeExchanges buf s.params s.ctrl t.got = [] := if_pos hbuf
    rw [hnil, List.take_nil] at hmosi
    exact ⟨_, 0, hmosi, by decide, fun h2 => absurd hbuf (Nat.not_le.mpr h2), fun _ => rfl,
      fun hidle => absurd hidle h.not_idle⟩

theorem EndedAt.decodeInOrder (hchip : Mcp2515 s) {v : View}
    (h : EndedAt s (decodeExchanges buf s.params s.ctrl) (decodeEnding buf) v t) : DecodeInOrder s t buf := by
  obtain ⟨-, hmosi, hgot, hanswer⟩ := h
  rw [hchip] at hmosi
  obtain hbuf | hbuf := Nat.lt_or_ge buf.toNat 2
  · have hnot : ¬ nRxb ≤ buf.toNat := Nat.not_le.mpr hbuf
    by_cases hlen : maxPayload < decodedLen v.got
    · have hone : (decodeExchanges buf s.params s.ctrl v.got).length = 1 := by
        rw [decodeExchanges, if_neg hnot, if_pos hlen, List.length_singleton]
      obtain ⟨len, hle, hprefix⟩ := decodeExchanges_prefix (ctrl := s.ctrl) hchip hbuf v.got
      rw [decodeEnding, if_neg hnot, if_pos hlen] at hanswer
      exact ⟨_, len, hmosi, hle, fun _ => hprefix, fun h2 => absurd h2 hnot,
        fun _ => .inr (.inl ⟨hbuf, hanswer, by rw [List.length_map, hone]⟩)⟩
    · have hlist : decodeExchanges buf s.params s.ctrl v.got =
          receiveExchanges .mcp2515 s.ctrl buf (decodedLen v.got) := by
        rw [decodeExchanges, if_neg hnot, if_neg hlen, hchip]
      rw [hlist, bytesReturned_receiveExchanges] at hgot
      obtain ⟨d, hd, hdlen⟩ := answerOf_decodeResponse hgot
      rw [decodeEnding, if_neg hnot, if_neg hlen, hd] at hanswer
      rw [hlist, receiveExchanges_mosi hbuf] at hmosi
      exact ⟨_, _, hmosi, Nat.not_lt.mp hlen, fun _ => List.prefix_refl _, fun h2 => absurd h2 hnot,
        fun _ => .inr (.inr ⟨hbuf, ⟨d, hanswer, hdlen⟩, rfl⟩)⟩
  · have hin : nRxb ≤ buf.toNat := hbuf
    rw [decodeEnding, if_pos hin] at hanswer
    rw [decodeExchanges, if_pos hin] at hmosi
    exact ⟨_, 0, hmosi, by decide, fun h2 => absurd hbuf (Nat.not_le.mpr h2), fun _ => rfl,
      fun _ => .inl ⟨hbuf, hanswer⟩⟩

/-- A DECODE issues its exchanges in order. -/
theorem decode_inOrder (hchip : Mcp2515 s) (hs : Ready s) (hag : .reset ∉ s.agenda)
    (h : exec (.decode buf) s = .next t) : DecodeInOrder s t buf := by
  obtain ⟨k, hrun⟩ | ⟨v, hend⟩ := decode_onScript hs hag h
  · exact hrun.decodeInOrder hchip
  · exact hend.decodeInOrder hchip

end

/-- Settles O27, by the run of each command's script: every action raises the count of exchanges issued and of bytes read
together, and no turn of another agent changes it. -/
theorem commandExchangesInOrderUnderInterleaving : Obligations.CommandExchangesInOrderUnderInterleaving :=
  fun _ _ hchip hs hag =>
    ⟨fun _ hi hwf h => transmit_inOrder hchip hs hag hi hwf h, fun _ h => decode_inOrder hchip hs hag h⟩

end Sys2Proof.Machine
end

