-- ==== Sys2Proof/Proofs/Encoding.lean ====
section
/-!
SUPPORT. Encodings: the structural check on the numbers of R87, that decoding and encoding undo each other at both ports, the
layout of a descriptor, and the words of the opcode table where the next step finds them.
-/

namespace Sys2Proof

/-! ## Fields of a byte as numbers -/

theorem toNat_opcOf (h : Byte) : (opcOf h).toNat = h.toNat / 16 := by
  revert h
  decide

theorem rsvOf_eq_zero (h : Byte) : rsvOf h = 0 ↔ h.toNat / 4 % 4 = 0 := by
  revert h
  decide

theorem bufOf_eq_zero (h : Byte) : bufOf h = 0 ↔ h.toNat % 4 = 0 := by
  revert h
  decide

theorem lenOf_eq_mod (f0 : Byte) : lenOf f0 = f0.toNat % 16 := by
  revert f0
  decide

theorem f0RsvOf_eq_zero (f0 : Byte) : f0RsvOf f0 = 0 ↔ f0.toNat / 16 % 4 = 0 := by
  revert f0
  decide

/-- Bits 7:1 of the value of WRCTRL (R87). -/
theorem upperBits_eq_zero (v : Byte) : v.extractLsb' 1 7 = 0 ↔ v.toNat / 2 = 0 := by
  revert v
  decide

/-! ## The structural check -/

section
variable (h : Byte) (ops : List Byte)

/-- The operation has a meaning, by the number of OPC (R84, R87). -/
def OpcodeHasMeaning : Prop := 1 ≤ h.toNat / 16 ∧ h.toNat / 16 ≤ 6

/-- The command has the length of its format, by the numbers of R83 and R87. -/
def LengthOfFormat : Prop :=
  ((h.toNat / 16 = 1 ∨ h.toNat / 16 = 3) ∧ 6 ≤ 1 + ops.length ∧ 1 + ops.length = 6 + (ops.headD 0).toNat % 16) ∨
  ((h.toNat / 16 = 2 ∨ h.toNat / 16 = 4) ∧ 1 + ops.length = 1) ∨ (h.toNat / 16 = 5 ∧ 1 + ops.length = 4) ∨
  (h.toNat / 16 = 6 ∧ 1 + ops.length = 2)

/-- A reserved bit of the header or of the first operand byte is set, by the numbers of R87. -/
def ReservedBitSet : Prop :=
  h.toNat / 4 % 4 ≠ 0 ∨ ((h.toNat / 16 = 5 ∨ h.toNat / 16 = 6) ∧ h.toNat % 4 ≠ 0) ∨
  ((h.toNat / 16 = 1 ∨ h.toNat / 16 = 3) ∧ (ops.headD 0).toNat / 16 % 4 ≠ 0) ∨
  (h.toNat / 16 = 6 ∧ (ops.headD 0).toNat / 2 ≠ 0)

theorem opcodeDefined_iff : opcodeDefined (opcOf h) = true ↔ OpcodeHasMeaning h := by
  simp only [opcodeDefined, toNat_opcOf, Bool.and_eq_true, decide_eq_true_eq, OpcodeHasMeaning]

theorem lengthOk_iff : lengthOk h ops = true ↔ LengthOfFormat h ops := by
  simp only [lengthOk, LengthOfFormat, toNat_opcOf]
  split
  next => simp only [Bool.and_eq_true, decide_eq_true_eq, lenOf_eq_mod]; omega
  next => rw [decide_eq_true_eq]; omega
  next => simp only [Bool.and_eq_true, decide_eq_true_eq, lenOf_eq_mod]; omega
  next => rw [decide_eq_true_eq]; omega
  next => rw [decide_eq_true_eq]; omega
  next => rw [decide_eq_true_eq]; omega
  next => simp only [imp_false] at *; rw [Bool.false_eq_true, false_iff]; omega

theorem reservedSet_iff : reservedSet h ops = true ↔ ReservedBitSet h ops := by
  simp only [reservedSet, ReservedBitSet, toNat_opcOf, Bool.or_eq_true, decide_eq_true_eq, ne_eq, rsvOf_eq_zero]
  refine or_congr Iff.rfl ?_
  split
  next => rw [decide_eq_true_eq, f0RsvOf_eq_zero]; omega
  next => rw [decide_eq_true_eq, f0RsvOf_eq_zero]; omega
  next => rw [decide_eq_true_eq, bufOf_eq_zero]; omega
  next => rw [Bool.or_eq_true, decide_eq_true_eq, decide_eq_true_eq, bufOf_eq_zero, upperBits_eq_zero]; omega
  next => simp only [imp_false] at *; rw [Bool.false_eq_true, false_iff]; omega

/-- The structural check by the three questions it asks, in its order (R87). -/
theorem structuralCheck_cons :
    structuralCheck (h :: ops) = some .reservedOpcode ∧ ¬ OpcodeHasMeaning h ∨
    structuralCheck (h :: ops) = some .wrongLength ∧ OpcodeHasMeaning h ∧ ¬ LengthOfFormat h ops ∨
    structuralCheck (h :: ops) = some .reservedBit ∧ OpcodeHasMeaning h ∧ LengthOfFormat h ops ∧ ReservedBitSet h ops ∨
    structuralCheck (h :: ops) = none ∧ OpcodeHasMeaning h ∧ LengthOfFormat h ops ∧ ¬ ReservedBitSet h ops := by
  rw [structuralCheck, ← opcodeDefined_iff, ← lengthOk_iff, ← reservedSet_iff]
  cases opcodeDefined (opcOf h)
  · exact .inl ⟨rfl, nofun⟩
  · cases lengthOk h ops
    · exact .inr (.inl ⟨rfl, rfl, nofun⟩)
    · cases reservedSet h ops
      · exact .inr (.inr (.inr ⟨rfl, rfl, rfl, nofun⟩))
      · exact .inr (.inr (.inl ⟨rfl, rfl, rfl, rfl⟩))

end

/-- Settles O9: the four results exclude each other, as do their conditions, so each result has its own. -/
theorem structuralCheckFollowsItsOrder : Obligations.StructuralCheckFollowsItsOrder := by
  intro h ops
  change
    (_ ↔ ¬ OpcodeHasMeaning h) ∧ (_ ↔ OpcodeHasMeaning h ∧ ¬ LengthOfFormat h ops) ∧
    (_ ↔ OpcodeHasMeaning h ∧ LengthOfFormat h ops ∧ ReservedBitSet h ops) ∧
    (_ ↔ OpcodeHasMeaning h ∧ LengthOfFormat h ops ∧ ¬ ReservedBitSet h ops)
  obtain ⟨hr, ho⟩ | ⟨hr, ho, hl⟩ | ⟨hr, ho, hl, hb⟩ | ⟨hr, ho, hl, hb⟩ := structuralCheck_cons h ops <;> simp [*]

/-- What the check lets through has the length of its format and no reserved bit set. -/
theorem structuralCheck_eq_none {h : Byte} {ops : List Byte} (hc : structuralCheck (h :: ops) = none) :
    LengthOfFormat h ops ∧ ¬ ReservedBitSet h ops := by
  obtain ⟨-, -, -, hnone⟩ := structuralCheckFollowsItsOrder h ops
  exact (hnone.mp hc).2

/-! ## Commands: what decodes is the encoding of what it decodes to -/

/-- A header byte without reserved bits is put together from its fields again (R81). -/
theorem headerByte_of_fields {h : Byte} (hrsv : h.toNat / 4 % 4 = 0) : headerByte (opcOf h) (bufOf h) = h := by
  revert h
  decide

/-- F0 without reserved bits is put together from its fields again (R88). -/
theorem f0Byte_of_fields {f0 : Byte} (hrsv : f0.toNat / 16 % 4 = 0) :
    f0Byte (kindOf f0) (typeOf f0) (f0.toNat % 16) = f0 := by
  revert f0
  decide

/-- The bytes of an identifier put together from four bytes (R88). -/
theorem idBytes_idOf (f1 f2 f3 f4 : Byte) : idBytes (idOf f1 f2 f3 f4) = [f1, f2, f3, f4] := by
  rw [idBytes, idOf, BitVec.extractLsb'_append_eq_of_le (by decide), BitVec.extractLsb'_append_eq_of_le (by decide),
    BitVec.extractLsb'_append_eq_left, BitVec.extractLsb'_append_eq_of_le (by decide),
    BitVec.extractLsb'_append_eq_of_le (by decide), BitVec.extractLsb'_append_eq_right,
    BitVec.extractLsb'_append_eq_of_le (by decide), BitVec.extractLsb'_append_eq_right,
    BitVec.extractLsb'_append_eq_right]

theorem rateOf_high (hi lo : Byte) : (rateOf hi lo).extractLsb' 8 8 = hi := BitVec.extractLsb'_append_eq_left

theorem rateOf_low (hi lo : Byte) : (rateOf hi lo).extractLsb' 0 8 = lo := BitVec.extractLsb'_append_eq_right

section
variable {h : Byte} {ops : List Byte} {i : Instr}

/-- The header of a command that the check lets through, its operation known. -/
theorem headerByte_of_check {opc : BitVec 4} (hc : structuralCheck (h :: ops) = none)
    (ho : (opcOf h).toNat = opc.toNat) : headerByte opc (bufOf h) = h := by
  obtain ⟨-, hres⟩ := structuralCheck_eq_none hc
  rw [← BitVec.eq_of_toNat_eq ho]
  exact headerByte_of_fields (not_not.mp fun hn => hres (.inl hn))

/-- Only the frame commands, TRIGGER and DECODE have a buffer in the header of what the check lets through (R87). -/
theorem bufOf_of_check (hc : structuralCheck (h :: ops) = none) (ho : (opcOf h).toNat = 5 ∨ (opcOf h).toNat = 6) :
    bufOf h = 0 := by
  obtain ⟨-, hres⟩ := structuralCheck_eq_none hc
  rw [toNat_opcOf] at ho
  exact (bufOf_eq_zero h).mpr (not_not.mp fun hn => hres (.inr (.inl ⟨ho, hn⟩)))

/-- A frame command that the check lets through is the encoding of its operands, and LEN fits its field (R88). -/
theorem frameBytes_of_check {opc : BitVec 4} {f0 f1 f2 f3 f4 : Byte} {data : List Byte}
    (hc : structuralCheck (h :: f0 :: f1 :: f2 :: f3 :: f4 :: data) = none) (ho : (opcOf h).toNat = opc.toNat)
    (hopc : opc = 1 ∨ opc = 3) :
    frameBytes opc (kindOf f0) (typeOf f0) (bufOf h) (idOf f1 f2 f3 f4) data = h :: f0 :: f1 :: f2 :: f3 :: f4 :: data ∧
    lenFits data = true := by
  obtain ⟨hlen, hres⟩ := structuralCheck_eq_none hc
  have hnum : h.toNat / 16 = 1 ∨ h.toNat / 16 = 3 := by
    rw [← toNat_opcOf, ho]
    exact hopc.imp (congrArg BitVec.toNat) (congrArg BitVec.toNat)
  have hdata : data.length = f0.toNat % 16 := by
    simp only [LengthOfFormat, List.length_cons, List.headD_cons] at hlen
    omega
  have hf0 : f0.toNat / 16 % 4 = 0 := not_not.mp fun hn => hres (.inr (.inr (.inl ⟨hnum, hn⟩)))
  refine ⟨?_, decide_eq_true (by omega)⟩
  rw [frameBytes, headerByte_of_check hc ho, hdata, f0Byte_of_fields hf0, idBytes_idOf]
  rfl

theorem wellFormed_encodeVariant (kind : FrameKind) (type : FrameType) (buf : BitVec 2) (id : BitVec 32)
    (data : List Byte) : (encodeVariant kind type buf id data).wellFormed = lenFits data := by
  cases kind <;> cases type <;> rfl

theorem wellFormed_sendVariant (kind : FrameKind) (type : FrameType) (buf : BitVec 2) (id : BitVec 32)
    (data : List Byte) : (sendVariant kind type buf id data).wellFormed = lenFits data := by
  cases kind <;> cases type <;> rfl

theorem port_encodeVariant (kind : FrameKind) (type : FrameType) (buf : BitVec 2) (id : BitVec 32)
    (data : List Byte) : (encodeVariant kind type buf id data).port = .command := by
  cases kind <;> cases type <;> rfl

theorem port_sendVariant (kind : FrameKind) (type : FrameType) (buf : BitVec 2) (id : BitVec 32)
    (data : List Byte) : (sendVariant kind type buf id data).port = .command := by
  cases kind <;> cases type <;> rfl

/-- The operands read from what the check lets through are those of a well-formed command with these bytes (R90). -/
theorem encode_of_commandOf (hc : structuralCheck (h :: ops) = none) (hi : commandOf h ops = .ok i) :
    encode i = h :: ops ∧ i.wellFormed = true ∧ i.port = .command := by
  unfold commandOf at hi
  split at hi <;> cases hi
  next ho =>
    obtain ⟨hbytes, hfits⟩ := frameBytes_of_check (opc := 1) hc ho (.inl rfl)
    rw [Machine.encode_encodeVariant, wellFormed_encodeVariant]
    exact ⟨hbytes, hfits, port_encodeVariant ..⟩
  next ho => exact ⟨by rw [encode, headerByte_of_check (opc := 2) hc ho], rfl, rfl⟩
  next ho =>
    obtain ⟨hbytes, hfits⟩ := frameBytes_of_check (opc := 3) hc ho (.inr rfl)
    rw [Machine.encode_sendVariant, wellFormed_sendVariant]
    exact ⟨hbytes, hfits, port_sendVariant ..⟩
  next ho => exact ⟨by rw [encode, headerByte_of_check (opc := 4) hc ho], rfl, rfl⟩
  next osc hi lo ho =>
    have hh := headerByte_of_check (opc := 5) hc ho
    rw [bufOf_of_check hc (.inl ho)] at hh
    exact ⟨by rw [encode, hh, rateOf_high, rateOf_low], rfl, rfl⟩
  next v ho =>
    have hh := headerByte_of_check (opc := 6) hc ho
    rw [bufOf_of_check hc (.inr ho)] at hh
    obtain ⟨-, hres⟩ := structuralCheck_eq_none hc
    have hv : v.toNat / 2 = 0 := not_not.mp fun hn => hres (.inr (.inr (.inr ⟨by rw [← toNat_opcOf, ho], hn⟩)))
    exact ⟨by rw [encode, hh], decide_eq_true (by omega), rfl⟩

end

/-- Settles O8: a command that decodes has passed the check, so its fields make up its bytes again. -/
theorem commandBytesHaveOneMeaning : Obligations.CommandBytesHaveOneMeaning := by
  intro bytes i hd
  cases bytes with
  | nil => cases hd
  | cons h ops =>
    cases hc : structuralCheck (h :: ops) with
    | some r => simp only [decodeCommand, hc, reduceCtorEq] at hd
    | none => exact encode_of_commandOf hc ((decodeCommand_of_check hc).symm.trans hd)

/-! ## Instructions of both ports -/

theorem encode_ofExchange (x : Exchange) : encode (Instr.ofExchange x) = encodeExchange .mcp2515 x := by
  cases x <;> rfl

theorem port_ofExchange (x : Exchange) : (Instr.ofExchange x).port = .bus := by
  cases x <;> rfl

theorem wellFormed_ofExchange (x : Exchange) : (Instr.ofExchange x).wellFormed = x.wellFormed := by
  cases x <;> rfl

/-- An instruction is a command of the block, or an exchange of another master. -/
theorem port_command_or_ofExchange (i : Instr) : i.port = .command ∨ ∃ x, i = Instr.ofExchange x := by
  obtain ⟨op, p, hop, -⟩ | ⟨x, hx, -⟩ := Machine.exec_command_or_exchange i
  · exact .inl (Machine.port_of_opOf hop)
  · exact .inr ⟨x, hx⟩

/-- Settles O7: a command passes the check and its fields are read back; an exchange is read back by its opcode. -/
theorem decodeOfEncodeIsTheInstruction : Obligations.DecodeOfEncodeIsTheInstruction := by
  intro i hwf
  obtain hport | ⟨x, rfl⟩ := port_command_or_ofExchange i
  · rw [hport]
    exact decodeCommand_encode hport (structuralCheck_encode hwf hport)
  · rw [wellFormed_ofExchange] at hwf
    rw [port_ofExchange, encode_ofExchange]
    simp only [decode, Machine.decodeExchange_encodeExchange hwf]

/-- Settles O6: eleven words, each read by the decoder. -/
theorem sampleWordsDecode : Obligations.SampleWordsDecode := by
  unfold Obligations.SampleWordsDecode
  decide

end Sys2Proof

namespace Sys2Proof.Machine

/-! ## The descriptor -/

/-- F0 as a number, for a LEN that fits its four bits (R88). -/
theorem f0Byte_eq_ofNat (kind : FrameKind) (type : FrameType) {len : Nat} (h : len ≤ 15) :
    f0Byte kind type len =
      BitVec.ofNat 8 ((if kind = .ext then 0x80 else 0) + (if type = .remote then 0x40 else 0) + len) := by
  have hall : ∀ l < 16, f0Byte kind type l =
      BitVec.ofNat 8 ((if kind = .ext then 0x80 else 0) + (if type = .remote then 0x40 else 0) + l) := by
    cases kind <;> cases type <;> decide
  exact hall len (by omega)

/-- The bytes of an identifier as numbers (R88). -/
theorem idBytes_eq_ofNat (id : BitVec 32) :
    idBytes id = [BitVec.ofNat 8 (id.toNat / 2 ^ 24), BitVec.ofNat 8 (id.toNat / 2 ^ 16),
      BitVec.ofNat 8 (id.toNat / 2 ^ 8), BitVec.ofNat 8 id.toNat] := by
  simp only [idBytes, BitVec.extractLsb', Nat.shiftRight_eq_div_pow, Nat.pow_zero, Nat.div_one]

/-- Settles O20: F0 and the identifier's bytes are the numbers of R88. -/
theorem descriptorLayout : Obligations.DescriptorLayout := by
  intro kind type id data hlen
  rw [descriptor, f0Byte_eq_ofNat kind type hlen, idBytes_eq_ofNat]
  rfl

/-! ## The words of the opcode table -/

/-- Bytes placed where they arrive are what the next step runs, in a state with nothing else changed but the block made
ready for a command and BUS freed (log 18). -/
theorem step_placeBytes {s : State} {p : Port} {bytes : List Byte} {i : Instr} (hchip : Mcp2515 s)
    (hd : decode p bytes = .ok i) :
    ∃ t : State, step (placeBytes p bytes s) = exec i t ∧ t.peer = s.peer ∧ t.params = s.params ∧ t.ctrl = s.ctrl ∧
      t.agenda = s.agenda ∧ t.port = s.port ∧ t.trace = s.trace ∧ t.bus = .free ∧ (i.port = .command → Ready t) := by
  cases p with
  | command =>
    exact ⟨_, (stepRunsTheDecodedCommand (placeBytes .command bytes s) bytes i (.inr ⟨_, rfl⟩) hd).1 s.port ⟨rfl, rfl⟩ rfl,
      rfl, rfl, rfl, rfl, rfl, rfl, rfl, fun _ => ⟨rfl, rfl⟩⟩
  | bus =>
    obtain ⟨x, -, rfl⟩ := decode_bus_ok hd
    exact ⟨_, (stepRunsTheDecodedExchange (placeBytes .bus bytes s) bytes s.agenda rfl).2 _ hchip hd,
      rfl, rfl, rfl, rfl, rfl, rfl, rfl, fun h => absurd ((port_ofExchange x).symm.trans h) nofun⟩

/-- Settles O5: the word's bytes are placed where the decoder read them. -/
theorem placedTableWordRunsAtTheNextStep : Obligations.PlacedTableWordRunsAtTheNextStep := by
  intro s nbits w i hchip hw
  unfold decodeTableWord at hw
  split at hw <;> cases hw
  next hd => exact step_placeBytes hchip hd

end Sys2Proof.Machine
end

