-- ==== Sys2Proof/Proofs/Identifiers.lean ====
section
/-!
SUPPORT. Identifier packing: unpacking reads only bits of SIDL that a WRITE reaches, and gives back what was packed.
-/

namespace Sys2Proof.Machine

/-- Under a mask that covers `k`, the bits of `k` are those of the new value. -/
theorem mergeBits_and_of_subset {mask k : Byte} (h : mask &&& k = k) (old new : Byte) :
    mergeBits mask old new &&& k = new &&& k := by
  rw [← h]
  ext i hi
  simp only [mergeBits, BitVec.getElem_and, BitVec.getElem_or, BitVec.getElem_not]
  cases mask[i] <;> simp

/-- SID2:0 stand in the three highest bits of SIDL. -/
theorem setWidth_shiftRight_sidl (sidl : Byte) :
    sidl.setWidth 32 >>> 5 = (sidl &&& sidlSidMask).setWidth 32 >>> 5 := by
  revert sidl
  decide

/-- Unpacking does not see the unimplemented bits of SIDL (R151, R191). -/
theorem unpackId_mergeBits (sidh old new eid8 eid0 : Byte) :
    unpackId .mcp2515 sidh (mergeBits 0xEB old new) eid8 eid0 = unpackId .mcp2515 sidh new eid8 eid0 := by
  have hsid : mergeBits 0xEB old new &&& sidlSidMask = new &&& sidlSidMask := mergeBits_and_of_subset (by decide) old new
  have hexide : mergeBits 0xEB old new &&& Chip.mcp2515.exideMask = new &&& Chip.mcp2515.exideMask :=
    mergeBits_and_of_subset (by decide) old new
  have heid : mergeBits 0xEB old new &&& sidlEidMask = new &&& sidlEidMask := mergeBits_and_of_subset (by decide) old new
  simp only [unpackId, hexide, heid, setWidth_shiftRight_sidl (mergeBits 0xEB old new), hsid,
    ← setWidth_shiftRight_sidl new]

/-- An identifier has no bit from its width up. -/
theorem getElem_eq_false_of_lt {id : BitVec 32} {n : Nat} (h : id.toNat < 2 ^ n) {i : Nat} (hi : i < 32) (hn : n ≤ i) :
    id[i] = false :=
  Nat.testBit_lt_two_pow (Nat.lt_of_lt_of_le h (Nat.pow_le_pow_right (by decide) hn))

/-- EXIDE is clear in the SIDL that PackStd writes, which tells a standard frame (R121, R151). -/
theorem sidMask_and_exideMask (b : Byte) : b &&& sidlSidMask &&& Chip.mcp2515.exideMask = 0 := by
  revert b
  decide

/-- EXIDE is set in the SIDL that PackExt writes, which tells an extended frame (R122, R151). -/
theorem or_exideMask_and_exideMask (a b : Byte) :
    (a ||| Chip.mcp2515.exideMask ||| b) &&& Chip.mcp2515.exideMask ≠ 0 := by
  intro h
  have hbit := congrArg (·.getLsbD 3) h
  simp [Chip.mcp2515] at hbit

/-- The eleven bits that SIDH and the top of SIDL hold, put together again (R92, R151). -/
theorem sid_of_bytes {sid : BitVec 32} (h : sid.toNat < 2 ^ 11) {sidl : Byte}
    (hsidl : sidl &&& sidlSidMask = (sid <<< 5).setWidth 8 &&& sidlSidMask) :
    ((sid >>> 3).setWidth 8).setWidth 32 <<< 3 ||| sidl.setWidth 32 >>> 5 = sid := by
  rw [setWidth_shiftRight_sidl, hsidl]
  ext i hi
  interval_cases i <;> simp [sidlSidMask, getElem_eq_false_of_lt h]

/-- A standard identifier is read back from the two bytes that PackStd writes (R121, R151). -/
theorem unpackId_packStd {id : BitVec 32} (h : id.toNat < 2 ^ 11) (eid8 eid0 : Byte) :
    unpackId .mcp2515 ((packStd id).getD 0 0) ((packStd id).getD 1 0) eid8 eid0 = (.std, id) := by
  have hsid := sid_of_bytes h (sidl := (id <<< 5).setWidth 8 &&& sidlSidMask)
    (by rw [BitVec.and_assoc, BitVec.and_self])
  simp only [packStd, List.getD_cons_zero, List.getD_cons_succ, unpackId, sidMask_and_exideMask, if_true, hsid]

/-- A number is its bits above the lowest byte and that byte. -/
theorem shiftLeft_or_lowByte (x : BitVec 32) : x >>> 8 <<< 8 ||| (x.setWidth 8).setWidth 32 = x := by
  ext i hi
  by_cases hlow : i < 8
  · simp [hlow, BitVec.getLsbD_eq_getElem hi]
  · have hback : 8 + (i - 8) = i := by omega
    simp [hlow, hback, BitVec.getLsbD_eq_getElem hi]

/-- A number is its bits above the lowest two and those, which SIDL holds as EID17:16 (R93). -/
theorem shiftLeft_or_lowEid (x : BitVec 32) : x >>> 2 <<< 2 ||| (x.setWidth 8 &&& sidlEidMask).setWidth 32 = x := by
  ext i hi
  interval_cases i <;> simp [sidlEidMask]

/-- An identifier put together again from its bits above EID17, EID17:16, EID8 and EID0 (R93, R151). -/
theorem eid_of_bytes (id : BitVec 32) :
    (id >>> 18 <<< 2 ||| ((id >>> 16).setWidth 8 &&& sidlEidMask).setWidth 32) <<< 16 |||
      ((id >>> 8).setWidth 8).setWidth 32 <<< 8 ||| (id.setWidth 8).setWidth 32 = id := by
  rw [BitVec.shiftRight_add id 16 2, shiftLeft_or_lowEid, BitVec.shiftLeft_add _ 8 8, ← BitVec.shiftLeft_or_distrib,
    BitVec.shiftRight_add id 8 8, shiftLeft_or_lowByte, shiftLeft_or_lowByte]

/-- An extended identifier is read back from the four bytes that PackExt writes (R122, R151). -/
theorem unpackId_packExt {id : BitVec 32} (h : id.toNat < 2 ^ 29) :
    unpackId .mcp2515 ((packExt .mcp2515 id).getD 0 0) ((packExt .mcp2515 id).getD 1 0)
      ((packExt .mcp2515 id).getD 2 0) ((packExt .mcp2515 id).getD 3 0) = (.ext, id) := by
  have hlt : (id >>> 18).toNat < 2 ^ 11 := by
    rw [BitVec.toNat_ushiftRight, Nat.shiftRight_eq_div_pow]
    omega
  have hsid := sid_of_bytes hlt (sidl := (id >>> 13).setWidth 8 &&& sidlSidMask ||| Chip.mcp2515.exideMask |||
      (id >>> 16).setWidth 8 &&& sidlEidMask) (by
    ext i hi
    interval_cases i <;> simp [sidlSidMask, sidlEidMask, Chip.mcp2515])
  have heid : ((id >>> 13).setWidth 8 &&& sidlSidMask ||| Chip.mcp2515.exideMask |||
      (id >>> 16).setWidth 8 &&& sidlEidMask) &&& sidlEidMask = (id >>> 16).setWidth 8 &&& sidlEidMask := by
    ext i hi
    interval_cases i <;> simp [sidlSidMask, sidlEidMask, Chip.mcp2515]
  rw [← BitVec.shiftRight_add] at hsid
  simp only [packExt, List.getD_cons_zero, List.getD_cons_succ, unpackId, or_exideMask_and_exideMask, if_false,
    hsid, heid, eid_of_bytes]

/-- Settles O19: unpacking sees what packing wrote and nothing that the write left. -/
theorem unpackOfPackIsTheIdentifier : Obligations.UnpackOfPackIsTheIdentifier := by
  intro id old eid8 eid0
  rw [unpackId_mergeBits, unpackId_mergeBits]
  exact ⟨fun h => unpackId_packStd h eid8 eid0, unpackId_packExt⟩

end Sys2Proof.Machine
end

