-- ==== Sys2Proof/Proofs/Refusals.lean ====
section
/-!
SUPPORT. Commands that are held, refused by the structural check, or ended by an error before their first exchange.
-/

namespace Sys2Proof.Machine

variable {s : State}

/-! ## The block's own turn, with nobody else to act -/

theorem step_alone (hag : s.agenda = []) {o : Host.Outcome State Fault Refusal} (hf : fetchBlock s = .done o) :
    step s = o := by
  simp only [step, fetch, hag, hf]

/-- An idle block with a response waiting finds nothing to do (R86). -/
theorem fetchBlock_waiting (hseq : s.seq = .idle) (hv : s.resp.valid = true) : fetchBlock s = .done (.next s) := by
  cases hp : s.port with
  | nil => simp only [fetchBlock, hseq, hp]
  | cons bytes rest => simp only [fetchBlock, hseq, hp, hv, if_true]

theorem decodeCommand_of_refused {bytes : List Byte} {r : Illegal} (hne : bytes ≠ [])
    (hc : structuralCheck bytes = some r) : decodeCommand bytes = .error (.illegal r) := by
  cases bytes with
  | nil => exact absurd rfl hne
  | cons h ops => simp only [decodeCommand, hc]

/-- A ready block ends a command that the structural check refuses at once (R87). -/
theorem fetchBlock_refused {bytes : List Byte} {rest : List (List Byte)} {r : Illegal} (hs : Ready s)
    (hp : s.port = bytes :: rest) (hd : decodeCommand bytes = .error (.illegal r)) :
    fetchBlock s = .done (.next (State.raise (.illegal r) { s with port := rest })) := by
  simp only [fetchBlock, hs.1, hs.2, hp, hd, Bool.false_eq_true, if_false]

/-- Taking an error leaves the command answered with its status (R215). -/
theorem raise_eq_answered (e : Error) (s : State) : s.raise e = answered [e.status] s := rfl

/-- Settles O10: the block's turn refuses the command, and taking the error is all it does. -/
theorem illegalCommandEndsWithItsStatus : Obligations.IllegalCommandEndsWithItsStatus := by
  intro s bytes rest r hs hag hp hne hc
  rw [step_alone hag (fetchBlock_refused hs hp (decodeCommand_of_refused hne hc)), raise_eq_answered]
  cases r <;> rfl

/-! ## Held commands -/

/-- A command that the block cannot take goes back to its host (R86). -/
theorem runCommand_held {op : Op} {bytes : List Byte} {p : Plan}
    (h : s.seq = .idle ∧ s.resp.valid = true ∨ s.seq ≠ .idle ∧ s.latch ≠ some bytes) :
    runCommand op bytes p s = .next (s.holdCommand bytes) := by
  obtain ⟨hseq, hv⟩ | ⟨hseq, hl⟩ := h
  · simp only [runCommand, hseq, hv, if_true]
  · cases hk : s.seq with
    | idle => exact absurd hk hseq
    | busy op k => simp only [runCommand, hk, hl, if_false]

/-- Settles O13: the waiting block finds nothing to do, and a command put to it is held. -/
theorem commandIsHeldWhileAResponseWaits : Obligations.CommandIsHeldWhileAResponseWaits := by
  refine ⟨fun s hseq hv hag => step_alone hag (fetchBlock_waiting hseq hv), fun s i hport h => ?_⟩
  obtain ⟨op, p, -, hrun⟩ | ⟨x, rfl, -⟩ := exec_command_or_exchange i
  · exact (hrun s).trans (runCommand_held h)
  · exact absurd ((port_ofExchange x).symm.trans hport) nofun

/-! ## Errors before the first exchange -/

/-- A command whose first action is to raise an error ends with its status, and nothing else changes (R215). -/
theorem runCommand_raises {op : Op} {bytes : List Byte} {p : Plan} {e : Error} (hs : Ready s) (hag : s.agenda = [])
    (hc : structuralCheck bytes = none) (hp : p (s.accept op bytes).view = .raise e) :
    runCommand op bytes p s = .next (answered [e.status] s) := by
  rw [runCommand_ready hs hc, hag, drive_alone p (s := s.accept op bytes) hag, maxActions,
    runAlone_succ (by rw [State.accept_seq]; nofun) (act_raise hp), runAlone_idle rfl]
  rfl

section
variable {kind : FrameKind} {type : FrameType} {buf : BitVec 2} {id : BitVec 32} {data : List Byte} {e : Error}

theorem encodePlan_raise {v : View} (h : prologue v.params kind type buf id data.length = some e) :
    encodePlan kind type buf id data v = .raise e := by
  simp only [encodePlan, h]

theorem sendPlan_raise {v : View} (h : prologue v.params kind type buf id data.length = some e) :
    sendPlan kind type buf id data v = .raise e := by
  simp only [sendPlan, h]

end

theorem decodePlan_raise {buf : BitVec 2} (h : 2 ≤ buf.toNat) (v : View) :
    decodePlan buf v = .raise .bufferNumber :=
  if_pos h

/-- Settles O26: the status is that of the error the prologue finds, which is the command's first action. -/
theorem frameErrorsInOrderOfPrecedence : Obligations.FrameErrorsInOrderOfPrecedence := by
  intro s kind type buf id data st hs hag hlen hst
  rw [frameStatus_eq_prologue, Option.map_eq_some_iff] at hst
  obtain ⟨e, hpro, rfl⟩ := hst
  have hfits : lenFits data = true := decide_eq_true hlen
  rw [exec_encodeVariant, exec_sendVariant, encode_encodeVariant, encode_sendVariant]
  exact ⟨runCommand_raises hs hag (structuralCheck_frameBytes (.inl rfl) _ _ _ _ hfits) (encodePlan_raise hpro),
    runCommand_raises hs hag (structuralCheck_frameBytes (.inr rfl) _ _ _ _ hfits) (sendPlan_raise hpro)⟩

/-- Settles O32: DECODE checks BUF before its first exchange. -/
theorem decodeRefusesBufferAboveOne : Obligations.DecodeRefusesBufferAboveOne :=
  fun _ buf hs hag hbuf =>
    runCommand_raises hs hag (structuralCheck_encode (i := .decode buf) rfl rfl) (decodePlan_raise hbuf _)

end Sys2Proof.Machine
end

