-- ==== Sys2Proof/Proofs/CommandAlone.lean ====
section
/-!
SUPPORT. The run of a command with nobody else to act: the exchanges its rule issues take effect one after another, and
the response ends it with their effect and their records and nothing else changed.
-/

namespace Sys2Proof.Machine

/-! ## Exchanges one after another -/

/-- The exchanges of the block take effect in order, draw no free value, take the peer from one memory to another and
leave these records. -/
inductive Performs (q : Params) : List Exchange → Memory → List BusRecord → Memory → Prop
  | nil (m : Memory) : Performs q [] m [] m
  | cons {x : Exchange} {xs : List Exchange} {m m₁ m₂ : Memory} {miso : List (Option Byte)}
    {records : List BusRecord} :
    (∀ d, exchangeEffect q x m d = .next { peer := m₁, miso := miso, draws := d }) →
    Performs q xs m₁ records m₂ →
    Performs q (x :: xs) m ({ who := .block, mosi := encodeExchange q.chip x, miso := miso } :: records) m₂

/-- The bytes that the exchanges of these records returned. -/
def bytesRead (records : List BusRecord) : List Byte := records.flatMap fun r => dataBytes r.miso

theorem bytesRead_append (records records' : List BusRecord) :
    bytesRead (records ++ records') = bytesRead records ++ bytesRead records' := List.flatMap_append

/-- From the view `v` on, the rule issues these exchanges in order when they leave these records. -/
def Follows (p : Plan) (v : View) (xs : List Exchange) (records : List BusRecord) : Prop :=
  ∀ j (h : j < xs.length),
    p { v with step := v.step + j, got := v.got ++ bytesRead (records.take j) } = .issue xs[j]

/-- The block after one exchange of its command that drew no free value. -/
def State.issued (x : Exchange) (m : Memory) (miso : List (Option Byte)) (u : State) : State :=
  (u.afterExchange .block x { peer := m, miso := miso, draws := u.draws }).advance (dataBytes miso)

/-- SEQ after `n` more exchanges of its command. -/
def Seq.plus (n : Nat) : Seq → Seq
  | .idle => .idle
  | .busy op k => .busy op (k + n)

/-- A command in progress after exchanges that left the peer at `m` and these records. -/
def State.performed (m : Memory) (records : List BusRecord) (u : State) : State :=
  { u with
    peer := m
    bus := .free
    seq := u.seq.plus records.length
    got := u.got ++ bytesRead records
    trace := u.trace ++ records }

@[simp] theorem Seq.plus_zero (q : Seq) : q.plus 0 = q := by cases q <;> rfl

theorem Seq.plus_ne_idle {q : Seq} (h : q ≠ .idle) (n : Nat) : q.plus n ≠ .idle := by
  cases q with
  | idle => exact absurd rfl h
  | busy op k => nofun

section
variable {u : State} {m₁ m₂ : Memory} {miso : List (Option Byte)} {records : List BusRecord}

theorem issued_seq (x : Exchange) : (u.issued x m₁ miso).seq = u.seq.plus 1 := by
  cases hseq : u.seq <;> simp [State.issued, State.advance, Seq.plus, hseq]

theorem view_issued (hbusy : u.seq ≠ .idle) (x : Exchange) :
    (u.issued x m₁ miso).view =
      { u.view with step := u.view.step + 1, got := u.view.got ++ dataBytes miso } := by
  have hstep : (u.issued x m₁ miso).seq.step = u.seq.step + 1 := by
    rw [issued_seq]
    cases hseq : u.seq with
    | idle => exact absurd hseq hbusy
    | busy op k => rfl
  rw [State.view, hstep]
  rfl

theorem performed_nil (hb : u.bus = .free) : u.performed u.peer [] = u := by
  simp [State.performed, bytesRead, ← hb]

theorem performed_issued (x : Exchange) :
    (u.issued x m₁ miso).performed m₂ records =
      u.performed m₂ ({ who := .block, mosi := encodeExchange u.params.chip x, miso := miso } :: records) := by
  have hseq : (u.seq.plus 1).plus records.length = u.seq.plus (records.length + 1) := by
    cases u.seq with
    | idle => rfl
    | busy op k => exact congrArg (Seq.busy op) (by omega)
  simp only [State.performed, issued_seq, hseq]
  simp [State.issued, bytesRead]

end

section
variable {q : Params} {xs ys : List Exchange} {m m₁ m₂ : Memory} {records records' : List BusRecord}

theorem Performs.append (h : Performs q xs m records m₁) (h' : Performs q ys m₁ records' m₂) :
    Performs q (xs ++ ys) m (records ++ records') m₂ := by
  induction h with
  | nil => exact h'
  | cons hx _ ih => exact .cons hx (ih h')

theorem Performs.length_eq (h : Performs q xs m records m₁) : records.length = xs.length := by
  induction h with
  | nil => rfl
  | cons _ _ ih => rw [List.length_cons, List.length_cons, ih]

theorem Performs.single {x : Exchange} {miso : List (Option Byte)} (ha : asleep q m = false)
    (hx : ∀ d, activeEffect q x m d = .next { peer := m₁, miso := miso, draws := d }) :
    Performs q [x] m [{ who := .block, mosi := encodeExchange q.chip x, miso := miso }] m₁ :=
  .cons (fun d => (exchangeEffect_awake ha).trans (hx d)) (.nil m₁)

/-- An exchange that returns nothing leaves the record of its MOSI bytes alone. -/
theorem Performs.silent {x : Exchange} {mosi : List Byte} (ha : asleep q m = false)
    (hmosi : encodeExchange q.chip x = mosi)
    (hx : ∀ d, activeEffect q x m d = .next { peer := m₁, miso := noValue mosi.length, draws := d }) :
    Performs q [x] m [writeRecord mosi] m₁ := by
  subst hmosi
  exact .single ha hx

section
variable {p : Plan} {v : View} {x : Exchange} {r : BusRecord}

theorem Follows.first (h : Follows p v (x :: xs) records) : p v = .issue x := by
  simpa [bytesRead] using h 0 (Nat.zero_lt_succ _)

theorem Follows.rest (h : Follows p v (x :: xs) (r :: records)) :
    Follows p { v with step := v.step + 1, got := v.got ++ dataBytes r.miso } xs records := fun j hj => by
  simpa [bytesRead, Nat.add_comm, Nat.add_left_comm] using h (j + 1) (Nat.succ_lt_succ hj)

end

/-- With nobody else to act, a command in progress performs the exchanges that its rule issues. -/
theorem runAlone_performs (h : Performs q xs m records m₁) {p : Plan} {u : State} {n : Nat} (hq : u.params = q)
    (hm : u.peer = m) (hb : u.bus = .free) (hbusy : u.seq ≠ .idle) (hp : Follows p u.view xs records) :
    runAlone p (xs.length + n) u = runAlone p n (u.performed m₁ records) := by
  induction h generalizing u with
  | nil m => rw [← hm, performed_nil hb, List.length_nil, Nat.zero_add]
  | @cons x xs m m₁ m₂ miso records hx hrest ih =>
    have hact : act p u = .next (u.issued x m₁ miso) := act_issue hp.first hb (hq ▸ hm ▸ hx u.draws)
    have hbusy' : (u.issued x m₁ miso).seq ≠ .idle := by rw [issued_seq]; exact Seq.plus_ne_idle hbusy 1
    rw [List.length_cons, Nat.add_right_comm, runAlone_succ hbusy hact,
      ih (u := u.issued x m₁ miso) hq rfl rfl hbusy' (by rw [view_issued hbusy]; exact hp.rest), performed_issued, hq]

/-- A command that nobody disturbs, on a peer where its exchanges take effect, ends with its response: the peer, the
trace and the free values drawn are its effect, and everything else is as before. -/
theorem runCommand_alone {op : Op} {cmd bytes : List Byte} {drawn : Nat} {p : Plan} {s : State} (hs : Ready s)
    (hal : Alone s) (hc : structuralCheck cmd = none) (h : Performs s.params xs s.peer records m₁)
    (hlen : xs.length < maxActions) (hp : Follows p (s.accept op cmd).view xs records)
    (hlast : p { (s.accept op cmd).view with step := xs.length, got := bytesRead records } = .respond bytes drawn) :
    runCommand op cmd p s = .next (answered (0x00 :: bytes)
      { s with peer := m₁, trace := s.trace ++ records, draws := s.draws + drawn }) := by
  obtain ⟨hag, hbus⟩ := hal
  obtain ⟨n, hn⟩ : ∃ n, maxActions = xs.length + (n + 1) := ⟨maxActions - xs.length - 1, by omega⟩
  have hbusy : (s.accept op cmd).seq ≠ .idle := by rw [State.accept_seq]; nofun
  have hview : ((s.accept op cmd).performed m₁ records).view =
      { (s.accept op cmd).view with step := xs.length, got := bytesRead records } := by
    rw [← h.length_eq]
    simp [State.view, State.performed, Seq.plus, Seq.step]
  rw [← hview] at hlast
  have hrun : runAlone p (xs.length + (n + 1)) (s.accept op cmd) = .next _ :=
    (runAlone_performs (u := s.accept op cmd) h rfl rfl hbus hbusy hp).trans
      ((runAlone_succ (Seq.plus_ne_idle hbusy _) (act_respond hlast)).trans (runAlone_idle rfl))
  rw [runCommand_ready hs hc, hag, drive_alone p (s := s.accept op cmd) hag, hn, hrun, ← hag, hbus]
  rfl

end

end Sys2Proof.Machine
end

