-- ==== Sys2Proof/Proofs/Transmission.lean ====
section
/-!
SUPPORT. The transmit side with nobody else to act: what the WRITEs of a frame and the trigger leave at every register,
and the statements on ENCODE, TRIGGER and SEND.
-/

namespace Sys2Proof.Machine

/-! ## A frame loaded into a transmit buffer -/

section
variable (kind : FrameKind) (type : FrameType) (n : Nat) (id : BitVec 32) (data : List Byte) (m : Memory)

/-- The peer after the WRITE of a frame's identifier to transmit buffer `n` (R123, R124). -/
def identifiedPeer : Memory := writeRegisters .mcp2515 m (txBase n + 1) (packId .mcp2515 kind id)

/-- The peer after both WRITEs of a frame to transmit buffer `n` (R123 to R126). -/
def loadedPeer : Memory :=
  writeRegisters .mcp2515 (identifiedPeer kind n id m) (txBase n + 5)
    (dlcByte .mcp2515 type data.length :: payloadWritten type data)

variable {kind type n id data m}

theorem identifiedPeer_wf (hm : m.wf = true) : (identifiedPeer kind n id m).wf = true := writeBurst_wf hm _ _ _

theorem loadedPeer_wf (hm : m.wf = true) : (loadedPeer kind type n id data m).wf = true :=
  writeBurst_wf (identifiedPeer_wf hm) _ _ _

/-- The WRITE of the identifier stays within its buffer (R56). -/
theorem packId_fits : 1 + (packId .mcp2515 kind id).length ≤ 14 := by
  have := (length_packId (kind := kind) id).2
  omega

/-- The WRITE of DLC and payload stays within its buffer (R56). -/
theorem payload_fits (hlen : data.length ≤ 8) :
    5 + (dlcByte .mcp2515 type data.length :: payloadWritten type data).length ≤ 14 := by
  have := length_payloadWritten_le type data
  rw [List.length_cons]
  omega

/-- Only DLC and payload tell a remote-request frame from a data frame (R125). -/
theorem loadedByte_ident {off : Nat} (h : off < 5) :
    loadedByte kind type n id data m (txBase n + off) = loadedByte kind .data n id data m (txBase n + off) := by
  have h5 : off ≠ 5 := by omega
  have h6 : ¬ txBase n + 6 ≤ txBase n + off := by omega
  simp only [loadedByte, Nat.add_left_cancel_iff, h5, h6, false_and, and_false, if_false]

theorem loadedByte_dlc : loadedByte kind type n id data m (txBase n + 5) =
    mergeBits 0x4F (reg m (txBase n + 5)) (dlcByte .mcp2515 type data.length) := by
  simp [loadedByte]

/-- The data registers of a remote-request frame are not written (R125). -/
theorem loadedByte_remote {off : Nat} (h : 6 ≤ off) :
    loadedByte kind .remote n id data m (txBase n + off) = reg m (txBase n + off) := by
  have hne : ∀ k, k ≤ 5 → off ≠ k := fun k _ => by omega
  simp only [loadedByte, Nat.add_left_cancel_iff, hne 1 (by decide), hne 2 (by decide), hne 3 (by decide),
    hne 4 (by decide), hne 5 (by decide), reduceCtorEq, false_and, and_false, if_false]

/-- Both WRITEs leave each frame register of their buffer as `loadedByte` says. -/
theorem writtenByte_load {off : Nat} (h1 : 1 ≤ off) :
    writtenByte n 5 (dlcByte .mcp2515 type data.length :: payloadWritten type data) n off
        (writtenByte n 1 (packId .mcp2515 kind id) n off (reg m (txBase n + off))) =
      loadedByte kind type n id data m (txBase n + off) := by
  obtain hlow | hhigh := Nat.lt_or_ge off 5
  · rw [writtenByte_outside (.inl hlow), writtenByte_ident (data := data) n h1 hlow]
    exact (loadedByte_ident hlow).symm
  · have hident := (length_packId (kind := kind) id).2
    rw [writtenByte_outside (ds := packId _ _ _) (.inr (by omega))]
    obtain rfl | hpay := Nat.eq_or_lt_of_le hhigh
    · rw [loadedByte_dlc]
      simp [writtenByte, txbWritable_mcp2515]
    · cases type with
      | data =>
        obtain ⟨i, rfl⟩ := Nat.exists_eq_add_of_le hpay
        exact (writtenByte_payload ..).trans (loadedByte_payload ..).symm
      | remote => rw [loadedByte_remote hpay, writtenByte_outside (.inr hpay)]

/-- Outside the frame registers of its buffer a loaded frame is not seen. -/
theorem loadedByte_outside {a : Nat} (ha : a < txBase n + 1 ∨ txBase n + 14 ≤ a) (hlen : data.length ≤ 8) :
    loadedByte kind type n id data m a = reg m a := by
  have hne : ∀ k, 1 ≤ k ∧ k ≤ 5 → a ≠ txBase n + k := fun k _ => by omega
  have hout : ¬ (txBase n + 6 ≤ a ∧ a < txBase n + 6 + data.length) := by omega
  simp only [loadedByte, hne 1 (by decide), hne 2 (by decide), hne 3 (by decide), hne 4 (by decide),
    hne 5 (by decide), hout, and_false, if_false]

/-- A register is kept where it is, or below the buffers (R31). -/
theorem home_eq_or_low (a : Nat) : home .mcp2515 a = a ∨ home .mcp2515 a < 0x10 := by
  unfold home
  split
  · exact .inr (by decide)
  · split
    · exact .inr (by decide)
    · exact .inl rfl

/-- After both WRITEs every register reads as `loadedByte` says. -/
theorem reg_loadedPeer (hm : m.wf = true) (hn : n < 3) (hlen : data.length ≤ 8) (a : Nat) :
    reg (loadedPeer kind type n id data m) a = loadedByte kind type n id data m a := by
  by_cases hin : txBase n + 1 ≤ a ∧ a < txBase n + 14
  · obtain ⟨off, rfl⟩ := Nat.exists_eq_add_of_le (Nat.le_of_lt hin.1 : txBase n ≤ a)
    have h1 : 1 ≤ off := by omega
    have h : off ≤ 13 := by omega
    rw [loadedPeer, reg_writeRegisters (identifiedPeer_wf hm) hn (payload_fits hlen) hn h1 h, identifiedPeer,
      reg_writeRegisters hm hn packId_fits hn h1 h, writtenByte_load h1]
  · rw [loadedByte_outside (by omega) hlen]
    refine peerByte_congr ?_
    have hlow := home_eq_or_low a
    have hident := packId_fits (kind := kind) (id := id)
    have hpayload := payload_fits (type := type) hlen
    have hbase : 0x30 ≤ txBase n := Nat.le_add_right ..
    rw [loadedPeer, read_writeRegisters_outside hn hpayload (by omega), identifiedPeer,
      read_writeRegisters_outside hn hident (by omega)]

theorem awake_loadedPeer {q : Params} (hq : q.chip = .mcp2515) (hn : n < 3) (hlen : data.length ≤ 8)
    (ha : asleep q m = false) : asleep q (loadedPeer kind type n id data m) = false :=
  awake_writeRegisters hq hn (payload_fits hlen) (awake_writeRegisters hq hn packId_fits ha)

end

/-! ## A transmission requested -/

section
variable {n : Nat} {m : Memory}

/-- TXREQ is a bit that a WRITE reaches. -/
theorem mergeBits_txreq : ∀ old : Byte, mergeBits (0x08 &&& 0x7B) old 0x08 &&& 0x7B = old &&& 0x7B ||| 0x08 := by
  decide

/-- After the trigger every register reads as `triggeredByte` says. -/
theorem reg_requestTransmit (hm : m.wf = true) (hn : n < 3) (a : Nat) :
    reg (requestTransmit .mcp2515 m n) a = triggeredByte n (reg m) a := by
  have hbase : txbBase .mcp2515 n + Chip.mcp2515.offCtrl = txBase n := txbBase_mcp2515 hn
  have hhome := home_txBase (off := 0) hn (by decide)
  have hmask := writableMask_txBase (off := 0) (configurationMode .mcp2515 m) hn (by decide)
  rw [Nat.add_zero] at hhome hmask
  rw [requestTransmit, hbase, triggeredByte]
  split
  next heq =>
    have hread := read_peerStore_same (c := .mcp2515) hm (configurationMode .mcp2515 m) (txBase n) 0x08 0x08
    rw [hhome, hmask] at hread
    rw [heq, reg_txbCtrl _ hn, reg_txbCtrl _ hn]
    exact (congrArg (· &&& 0x7B) hread).trans (mergeBits_txreq _)
  next hne =>
    refine peerByte_peerStore_other _ _ _ ?_
    have hlow := home_eq_or_low a
    have hbase : 0x30 ≤ txBase n := Nat.le_add_right ..
    omega

/-- A BIT_MODIFY of TXREQ is a request to transmit: TXBnCTRL honours masks (R127, R192). -/
theorem bitModifyPeer_txreq (hn : n < 3) :
    bitModifyPeer .mcp2515 m (txBase n) Chip.mcp2515.txreqMask Chip.mcp2515.txreqMask =
      requestTransmit .mcp2515 m n := by
  have hbase : txbBase .mcp2515 n + Chip.mcp2515.offCtrl = txBase n := txbBase_mcp2515 hn
  have hmask : effectiveMask .mcp2515 (home .mcp2515 (txBase n)) Chip.mcp2515.txreqMask = Chip.mcp2515.txreqMask := by
    rw [← Nat.add_zero (txBase n), home_txBase hn (by decide), effectiveMask, honoursMask,
      txbOffset_txBase hn (by decide)]
    rfl
  rw [bitModifyPeer, hmask, requestTransmit, hbase]

/-- An RTS that selects one buffer is a request to transmit (R127, R198). -/
theorem requestSelected_single (hn : n < 3) :
    requestSelected .mcp2515 m (BitVec.ofNat 3 (2 ^ n)) = requestTransmit .mcp2515 m n := by
  obtain rfl | rfl | rfl : n = 0 ∨ n = 1 ∨ n = 2 := by omega
  all_goals rfl

end

/-! ## The exchanges -/

section
variable {q : Params} {m : Memory} {kind : FrameKind} {type : FrameType} {buf : BitVec 2} {id : BitVec 32}
  {data : List Byte}

/-- A WRITE of the block within a transmit buffer takes effect and returns nothing (R191). -/
theorem performs_write (hq : q.chip = .mcp2515) (ha : asleep q m = false) (hbuf : buf.toNat < 3) {start : Nat}
    {ds : List Byte} (hstart : start ≤ 13) (h1 : 1 ≤ ds.length) (hlen : start + ds.length ≤ 14) :
    Performs q [.write (txbAddress .mcp2515 buf start) ds] m
      [writeRecord (encodeExchange .mcp2515 (.write (txbAddress .mcp2515 buf start) ds))]
      (writeRegisters .mcp2515 m (txBase buf.toNat + start) ds) := by
  have haddr := toNat_txbAddress hbuf hstart
  have hsize : (txbAddress .mcp2515 buf start).toNat + ds.length ≤ q.chip.size := by
    rw [haddr, hq]
    exact Nat.le_trans (by simp only [txBase]; omega : _ ≤ 0x5E) (by decide)
  have hcount : (encodeExchange .mcp2515 (.write (txbAddress .mcp2515 buf start) ds)).length = 2 + ds.length := by
    rw [encodeExchange, List.length_cons, List.length_cons]
    omega
  refine .silent ha (by rw [hq]) fun d => ?_
  rw [hcount, activeEffect_write h1 hsize, haddr, hq]

/-- The two WRITEs of a frame (R123 to R126). -/
theorem performs_load (hq : q.chip = .mcp2515) (ha : asleep q m = false) (hbuf : buf.toNat < 3)
    (hlen : data.length ≤ 8) :
    Performs q [writeIdent .mcp2515 kind buf id, writePayload .mcp2515 type buf data] m
      ((loadMosi kind type buf.toNat id data).map writeRecord) (loadedPeer kind type buf.toNat id data m) := by
  rw [← loadExchanges_mosi hbuf]
  exact .append
    (performs_write hq ha hbuf (by decide) (length_packId id).1 packId_fits)
    (performs_write hq (awake_writeRegisters hq hbuf packId_fits ha) hbuf (by decide) (Nat.le_add_left ..)
      (payload_fits hlen))

/-- The trigger exchange, in both forms (R127). -/
theorem performs_trigger (hq : q.chip = .mcp2515) (ha : asleep q m = false) (hbuf : buf.toNat < 3) :
    Performs q [triggerExchange q buf] m [writeRecord (triggerMosi q.triggerForm buf.toNat)]
      (requestTransmit .mcp2515 m buf.toNat) := by
  refine .silent ha (by rw [hq]; exact triggerExchange_mosi hq hbuf) fun d => ?_
  unfold triggerExchange
  cases q.triggerForm with
  | bitModify =>
    have haddr : (txbAddress .mcp2515 buf Chip.mcp2515.offCtrl).toNat = txBase buf.toNat :=
      toNat_txbAddress hbuf (by decide)
    have hsize : (txbAddress q.chip buf q.chip.offCtrl).toNat < q.chip.size := by
      rw [hq, haddr]
      exact Nat.lt_of_le_of_lt (by simp only [txBase]; omega : _ ≤ 0x50) (by decide)
    dsimp only
    rw [activeEffect_bitModify hsize, hq, haddr, bitModifyPeer_txreq hbuf]
    rfl
  | rts =>
    dsimp only
    rw [activeEffect, hq, requestSelected_single hbuf]
    rfl

end

/-! ## The commands -/

/-- A rule that is a fixed list of exchanges follows that list. -/
theorem follows_script {f : Params → List Exchange} {ending : View → Action} {v : View} {xs : List Exchange}
    (hf : f v.params = xs) (hstep : v.step = 0) (records : List BusRecord) :
    Follows (script (fun q _ _ => f q) ending) v xs records := by
  subst hf
  intro j hj
  simp only [hstep, Nat.zero_add]
  exact script_of_lt hj

section
variable {s : State} {kind : FrameKind} {type : FrameType} {buf : BitVec 2} {id : BitVec 32} {data : List Byte}

/-- A command whose rule is a fixed list of exchanges that return nothing, and that responds without data. -/
theorem runCommand_script {op : Op} {cmd : List Byte} {f : Params → List Exchange} {ending : View → Action}
    {xs : List Exchange} {records : List BusRecord} {m : Memory} (hs : Ready s) (hal : Alone s)
    (hc : structuralCheck cmd = none) (hf : f s.params = xs) (hlen : xs.length < maxActions)
    (h : Performs s.params xs s.peer records m) (hend : ∀ v, v.params = s.params → ending v = .respond [] 0) :
    runCommand op cmd (script (fun q _ _ => f q) ending) s =
      .next (answered [0x00] { s with peer := m, trace := s.trace ++ records }) := by
  refine runCommand_alone (drawn := 0) hs hal hc h hlen (follows_script hf rfl records) ?_
  rw [script_of_le (by rw [← hf]; exact Nat.le_refl _), hend _ rfl]

/-- A frame command whose operands are in range, and whose remote-request frames are encoded, raises no error (R120). -/
theorem prologue_in_range {q : Params} (hbuf : buf.toNat < 3) (hlen : data.length ≤ 8) (hid : id.toNat < kind.idLimit)
    (htype : type = .remote → q.remoteTx = .encode) : prologue q kind type buf id data.length = none := by
  have hremote : ¬ (type = .remote ∧ q.remoteTx = .refuse) := by
    rintro ⟨h, h'⟩
    rw [htype h] at h'
    cases h'
  rw [prologue, if_neg (Nat.not_le.mpr hbuf : ¬ nTxb ≤ buf.toNat), if_neg (Nat.not_lt.mpr hlen : ¬ maxPayload < _),
    if_neg (Nat.not_le.mpr hid), if_neg hremote]

theorem frameEnding_respond {v : View} (h : prologue v.params kind type buf id data.length = none) :
    frameEnding kind type buf id data v = .respond [] 0 := by
  rw [frameEnding, h]
  rfl

theorem frameExchanges_eq {q : Params} (hq : q.chip = .mcp2515)
    (h : prologue q kind type buf id data.length = none) (send : Bool) :
    frameExchanges kind type buf id data send q =
      [writeIdent .mcp2515 kind buf id, writePayload .mcp2515 type buf data] ++
        (if send then [triggerExchange q buf] else []) := by
  rw [frameExchanges, if_pos h, hq]

section
variable (hchip : Mcp2515 s) (ha : Awake s) (hm : s.peer.wf = true) (hs : Ready s) (hal : Alone s)
  (hpro : prologue s.params kind type buf id data.length = none)
include hchip ha hm hs hal hpro

/-- An ENCODE that nobody disturbs loads its frame and changes nothing else (R123 to R126). -/
theorem encodeVariant_loads : ∃ t, exec (encodeVariant kind type buf id data) s = .next t ∧
    t = answered [0x00]
      { s with peer := t.peer, trace := s.trace ++ (loadMosi kind type buf.toNat id data).map writeRecord } ∧
    ∀ a, a < 128 → reg t.peer a = loadedByte kind type buf.toNat id data s.peer a := by
  obtain ⟨hbuf, hlen⟩ := prologue_none_ranges hpro
  rw [exec_encodeVariant, encodePlan_eq_script]
  exact ⟨_, runCommand_script hs hal (structuralCheck_encodeVariant hlen) (frameExchanges_eq hchip hpro false)
      (by decide : 2 < 5) (performs_load hchip ha hbuf hlen) fun v hv => frameEnding_respond (hv ▸ hpro),
    rfl, fun a _ => reg_loadedPeer hm hbuf hlen a⟩

/-- A SEND that nobody disturbs loads its frame, requests its transmission and changes nothing else (R128 to R131). -/
theorem sendVariant_loads : ∃ t, exec (sendVariant kind type buf id data) s = .next t ∧
    t = answered [0x00]
      { s with
        peer := t.peer
        trace := s.trace ++
          (loadMosi kind type buf.toNat id data ++ [triggerMosi s.params.triggerForm buf.toNat]).map writeRecord } ∧
    ∀ a, a < 128 → reg t.peer a =
      triggeredByte buf.toNat (loadedByte kind type buf.toNat id data s.peer) a := by
  obtain ⟨hbuf, hlen⟩ := prologue_none_ranges hpro
  have hawake : asleep s.params (loadedPeer kind type buf.toNat id data s.peer) = false :=
    awake_loadedPeer hchip hbuf hlen ha
  rw [exec_sendVariant, sendPlan_eq_script, List.map_append]
  refine ⟨_, runCommand_script hs hal (structuralCheck_sendVariant hlen) (frameExchanges_eq hchip hpro true)
      (by decide : 3 < 5) ((performs_load hchip ha hbuf hlen).append (performs_trigger hchip hawake hbuf))
      fun v hv => frameEnding_respond (hv ▸ hpro), rfl, fun a _ => ?_⟩
  rw [triggeredByte, ← reg_loadedPeer hm hbuf hlen]
  exact reg_requestTransmit (loadedPeer_wf hm) hbuf a

end

end

/-- Settles O21: with operands in range ENCODE raises no error, so it performs its two WRITEs and responds. -/
theorem encodeDataFrameLoadsTheBuffer : Obligations.EncodeDataFrameLoadsTheBuffer :=
  fun _ _ _ _ hchip ha hm hs hal hbuf hlen =>
    ⟨fun hid => encodeVariant_loads (kind := .std) (type := .data) hchip ha hm hs hal
      (prologue_in_range hbuf hlen hid nofun),
    fun hid => encodeVariant_loads (kind := .ext) (type := .data) hchip ha hm hs hal
      (prologue_in_range hbuf hlen hid nofun)⟩

/-- Settles O22: as for a data frame, since REMOTE_TX = Encode keeps the prologue from refusing the frame. -/
theorem encodeRemoteFrameLoadsTheBuffer : Obligations.EncodeRemoteFrameLoadsTheBuffer :=
  fun _ _ _ _ hchip ha hm hs hal hbuf hlen hremote =>
    ⟨fun hid => encodeVariant_loads (kind := .std) (type := .remote) hchip ha hm hs hal
      (prologue_in_range hbuf hlen hid fun _ => hremote),
    fun hid => encodeVariant_loads (kind := .ext) (type := .remote) hchip ha hm hs hal
      (prologue_in_range hbuf hlen hid fun _ => hremote)⟩

/-- Settles O24: SEND performs the WRITEs of ENCODE and then the trigger exchange. -/
theorem sendDataFrameLoadsAndTriggers : Obligations.SendDataFrameLoadsAndTriggers :=
  fun _ _ _ _ hchip ha hm hs hal hbuf hlen =>
    ⟨fun hid => sendVariant_loads (kind := .std) (type := .data) hchip ha hm hs hal
      (prologue_in_range hbuf hlen hid nofun),
    fun hid => sendVariant_loads (kind := .ext) (type := .data) hchip ha hm hs hal
      (prologue_in_range hbuf hlen hid nofun)⟩

/-- Settles O25: as for a data frame, with REMOTE_TX = Encode. -/
theorem sendRemoteFrameLoadsAndTriggers : Obligations.SendRemoteFrameLoadsAndTriggers :=
  fun _ _ _ _ hchip ha hm hs hal hbuf hlen hremote =>
    ⟨fun hid => sendVariant_loads (kind := .std) (type := .remote) hchip ha hm hs hal
      (prologue_in_range hbuf hlen hid fun _ => hremote),
    fun hid => sendVariant_loads (kind := .ext) (type := .remote) hchip ha hm hs hal
      (prologue_in_range hbuf hlen hid fun _ => hremote)⟩

theorem exec_trigger (buf : BitVec 2) (s : State) :
    exec (.trigger buf) s = runCommand .trigger (encode (.trigger buf)) (triggerPlan buf) s := rfl

/-- A TRIGGER of a buffer that does not exist is refused before any exchange (R127). -/
theorem triggerPlan_raise (v : View) : triggerPlan 3 v = .raise .bufferNumber := rfl

/-- Settles O23: TRIGGER performs one exchange, which in either form requests the transmission; BUF 3 is refused. -/
theorem triggerRequestsTransmission : Obligations.TriggerRequestsTransmission := by
  intro s buf hchip ha hm hs hal
  refine ⟨fun hbuf => ?_, ?_⟩
  · have hrange : ¬ nTxb ≤ buf.toNat := Nat.not_le.mpr hbuf
    rw [exec_trigger, triggerPlan_eq_script]
    exact ⟨_, runCommand_script hs hal (structuralCheck_encode (i := .trigger buf) rfl rfl) (if_neg hrange)
      (by decide : 1 < 5) (performs_trigger hchip ha hbuf) fun _ _ => if_neg hrange, rfl,
      fun a _ => reg_requestTransmit hm hbuf a⟩
  · rintro rfl
    exact runCommand_raises hs hal.1 (structuralCheck_encode (i := .trigger 3) rfl rfl) (triggerPlan_raise _)

end Sys2Proof.Machine
end

