-- ==== Sys2Proof/Proofs/RoundTrip.lean ====
section
/-!
SUPPORT. DECODE with nobody else to act, what a loaded frame unpacks to, and the statement on the round trip.
-/

namespace Sys2Proof.Machine

/-! ## The exchanges of a DECODE -/

section
variable {q : Params} {m : Memory} {buf : BitVec 2}

/-- A READ of the block within a receive buffer takes effect and changes nothing (R190). -/
theorem performs_read (hq : q.chip = .mcp2515) (ha : asleep q m = false) (hbuf : buf.toNat < 2) {off len : Nat}
    (h1 : 1 ≤ len) (hlen : off + len ≤ 14) :
    Performs q [.read (rxbAddress .mcp2515 buf off) len] m
      [readRecord .block (rxBase buf.toNat + off) (readBurst .mcp2515 m (rxBase buf.toNat + off) len)] m := by
  have haddr := toNat_rxbAddress hbuf (by omega : off ≤ 13)
  have hmosi : encodeExchange q.chip (.read (rxbAddress .mcp2515 buf off) len) =
      0x03 :: BitVec.ofNat 8 (rxBase buf.toNat + off) :: List.replicate len 0x00 := by
    rw [hq, rxbAddress, rxbBase_mcp2515 hbuf]
    rfl
  have hsize : (rxbAddress .mcp2515 buf off).toNat + len ≤ q.chip.size := by
    rw [haddr, hq]
    exact Nat.le_trans (by simp only [rxBase]; omega : _ ≤ 0x7E) (by decide)
  have hread := Performs.single ha fun d => activeEffect_read (q := q) (m := m) (d := d) h1 hsize
  rw [hmosi, haddr, hq] at hread
  rw [readRecord, length_readBurst]
  exact hread

/-- The BIT_MODIFY that clears the receive flag: CANINTF honours masks (R156, R192). -/
theorem performs_clearFlag (hq : q.chip = .mcp2515) (ha : asleep q m = false) :
    Performs q [clearFlag .mcp2515 buf] m [writeRecord [0x05, 0x2C, rxifMask .mcp2515 buf.toNat, 0x00]]
      (clearRxFlag .mcp2515 m buf.toNat) := by
  refine .silent ha (by rw [hq]; rfl) fun d => ?_
  rw [clearFlag, activeEffect_bitModify (by rw [hq]; decide), hq]
  rfl

/-- The peer after a DECODE that succeeds: in interrupt mode the receive flag is cleared (R156). -/
def decodedPeer (ctrl : Byte) (n : Nat) (m : Memory) : Memory :=
  if intmode ctrl then clearRxFlag .mcp2515 m n else m

/-- The exchanges of a DECODE of a frame of at most eight bytes (R150). -/
theorem performs_receive (hq : q.chip = .mcp2515) (ha : asleep q m = false) (hbuf : buf.toNat < 2)
    (hlen : rxLen m buf.toNat ≤ 8) (ctrl : Byte) :
    Performs q (receiveExchanges .mcp2515 ctrl buf (rxLen m buf.toNat)) m (decodeRecords m ctrl buf.toNat)
      (decodedPeer ctrl buf.toNat m) := by
  have hpayload : Performs q (if rxLen m buf.toNat = 0 then [] else [readPayload .mcp2515 buf (rxLen m buf.toNat)]) m
      (if rxLen m buf.toNat = 0 then [] else
        [readRecord .block (rxBase buf.toNat + 6) (readBurst .mcp2515 m (rxBase buf.toNat + 6) (rxLen m buf.toNat))])
      m := by
    split
    next => exact .nil m
    next h0 => exact performs_read hq ha hbuf (Nat.one_le_iff_ne_zero.mpr h0) (by omega : 6 + _ ≤ 14)
  have hflag : Performs q (if intmode ctrl then [clearFlag .mcp2515 buf] else []) m
      (if intmode ctrl then [writeRecord [0x05, 0x2C, rxifMask .mcp2515 buf.toNat, 0x00]] else [])
      (decodedPeer ctrl buf.toNat m) := by
    unfold decodedPeer
    split
    · exact performs_clearFlag hq ha
    · exact .nil m
  have hident : Performs q [readIdent .mcp2515 buf] m _ m :=
    performs_read hq ha hbuf (off := 1) (by decide) (by decide)
  have hctrl : Performs q [readRxbCtrl .mcp2515 buf] m _ m :=
    performs_read hq ha hbuf (off := 0) (by decide) (by decide)
  exact ((hident.append hctrl).append hpayload).append hflag

end

/-! ## What a DECODE has read -/

section
variable (m : Memory) (n : Nat)

theorem dataBytes_readRecord (a : Nat) (bytes : List Byte) : dataBytes (readRecord .block a bytes).miso = bytes :=
  dataBytes_read 2 bytes

/-- All a DECODE of a frame reads: identifier and DLC, RXBnCTRL, the payload (R150, R154). -/
theorem bytesRead_decodeRecords (ctrl : Byte) : bytesRead (decodeRecords m ctrl n) =
    readBurst .mcp2515 m (rxBase n + 1) 5 ++ reg m (rxBase n) ::
      readBurst .mcp2515 m (rxBase n + 6) (rxLen m n) := by
  have hpayload : bytesRead (if rxLen m n = 0 then [] else
      [readRecord .block (rxBase n + 6) (readBurst .mcp2515 m (rxBase n + 6) (rxLen m n))]) =
      readBurst .mcp2515 m (rxBase n + 6) (rxLen m n) := by
    split
    next h0 => rw [h0]; rfl
    next => rw [bytesRead, List.flatMap_singleton, dataBytes_readRecord]
  have hflag : bytesRead (if intmode ctrl then [writeRecord [0x05, 0x2C, rxifMask .mcp2515 n, 0x00]] else []) = [] := by
    split <;> rfl
  rw [decodeRecords, bytesRead_append, bytesRead_append, hpayload, hflag, List.append_nil]
  rfl

end

section
variable {q : Params} {m : Memory} {ctrl : Byte} {buf : BitVec 2}

/-- The length and what follows are known once identifier and DLC are read (R152). -/
theorem decodedLen_ident (m : Memory) (n : Nat) (bytes : List Byte) :
    decodedLen (readBurst .mcp2515 m (rxBase n + 1) 5 ++ bytes) = rxLen m n := rfl

theorem decodeExchanges_ident (hq : q.chip = .mcp2515) (hbuf : buf.toNat < 2) (hlen : rxLen m buf.toNat ≤ 8)
    (bytes : List Byte) :
    decodeExchanges buf q ctrl (readBurst .mcp2515 m (rxBase buf.toNat + 1) 5 ++ bytes) =
      receiveExchanges .mcp2515 ctrl buf (rxLen m buf.toNat) := by
  rw [decodeExchanges, if_neg (Nat.not_le.mpr hbuf : ¬ nRxb ≤ buf.toNat), decodedLen_ident,
    if_neg (Nat.not_lt.mpr hlen : ¬ maxPayload < _), hq]

/-- The rule of DECODE, on a frame of at most eight bytes, issues the exchanges that the frame's length asks for. -/
theorem follows_decode {v : View} (hq : v.params.chip = .mcp2515) (hbuf : buf.toNat < 2)
    (hlen : rxLen m buf.toNat ≤ 8) (hstep : v.step = 0) (hgot : v.got = []) :
    Follows (script (decodeExchanges buf) (decodeEnding buf)) v
      (receiveExchanges .mcp2515 v.ctrl buf (rxLen m buf.toNat)) (decodeRecords m v.ctrl buf.toNat) := by
  obtain ⟨records, hrecords⟩ : ∃ records, decodeRecords m v.ctrl buf.toNat =
    readRecord .block (rxBase buf.toNat + 1) (readBurst .mcp2515 m (rxBase buf.toNat + 1) 5) :: records := ⟨_, rfl⟩
  intro j hj
  simp only [hstep, hgot, Nat.zero_add, List.nil_append, hrecords]
  cases j with
  | zero =>
    obtain ⟨rest, hrest⟩ := decodeExchanges_cons (q := v.params) (ctrl := v.ctrl) hbuf []
    rw [script]
    simp only [List.take_zero, bytesRead, List.flatMap_nil, hrest, hq]
    rfl
  | succ j =>
    have hread : bytesRead ((readRecord .block (rxBase buf.toNat + 1)
        (readBurst .mcp2515 m (rxBase buf.toNat + 1) 5) :: records).take (j + 1)) =
        readBurst .mcp2515 m (rxBase buf.toNat + 1) 5 ++ bytesRead (records.take j) := rfl
    have hlist := decodeExchanges_ident (ctrl := v.ctrl) hq hbuf hlen (bytesRead (records.take j))
    rw [hread, script]
    simp only [hlist, List.getElem?_eq_getElem hj, Option.elim_some]

end

/-! ## A DECODE alone -/

/-- The payload a DECODE returns: the buffer's for a data frame, free values for a remote-request frame (R154, R155). -/
def receivedPayload (m : Memory) (n draws : Nat) : List Byte :=
  match rxType m n with
  | .data => readBurst .mcp2515 m (rxBase n + 6) (rxLen m n)
  | .remote => drawBytes draws (rxLen m n)

/-- How many free values are in it. -/
def receivedDraws (m : Memory) (n : Nat) : Nat :=
  match rxType m n with
  | .data => 0
  | .remote => rxLen m n

section
variable {m : Memory} {n : Nat}

/-- RXRTR as DECODE finds it is that of the buffer (R153). -/
theorem decodedType_read (hn : n < 2) (payload : List Byte) :
    decodedType .mcp2515 (readBurst .mcp2515 m (rxBase n + 1) 5 ++ reg m (rxBase n) :: payload) = rxType m n := by
  have hctrl : rxbBase .mcp2515 n + Chip.mcp2515.offCtrl = rxBase n := rxbBase_mcp2515 hn
  have hread : (readBurst .mcp2515 m (rxBase n + 1) 5 ++ reg m (rxBase n) :: payload).getD 5 0 = reg m (rxBase n) := rfl
  rw [decodedType, hread, rxType, rxRemote, hctrl]
  simp

/-- The response of a DECODE that has read the buffer (R157). -/
theorem decodeResponse_read {v : View} (hq : v.params.chip = .mcp2515) (hn : n < 2)
    (hgot : v.got = readBurst .mcp2515 m (rxBase n + 1) 5 ++ reg m (rxBase n) ::
      readBurst .mcp2515 m (rxBase n + 6) (rxLen m n)) :
    decodeResponse v = .respond
      (descriptor (rxId m n).1 (rxType m n) (rxId m n).2 (receivedPayload m n v.draws)) (receivedDraws m n) := by
  have hid : decodedId .mcp2515 v.got = rxId m n := by rw [hgot]; rfl
  have htype : decodedType .mcp2515 v.got = rxType m n := by rw [hgot, decodedType_read hn]
  have hlen : decodedLen v.got = rxLen m n := by rw [hgot, decodedLen_ident]
  have hdrop : v.got.drop 6 = readBurst .mcp2515 m (rxBase n + 6) (rxLen m n) := by rw [hgot]; rfl
  cases ht : rxType m n <;>
    simp only [decodeResponse, decodedPayload, hq, hid, htype, hlen, hdrop, receivedPayload, receivedDraws, ht]

end

theorem exec_decode (buf : BitVec 2) (s : State) :
    exec (.decode buf) s = runCommand .decode (encode (.decode buf)) (decodePlan buf) s := rfl

/-- A DECODE that nobody disturbs, of a frame of at most eight bytes, returns the frame that stands in the buffer. -/
theorem decode_alone {s : State} {buf : BitVec 2} (hchip : Mcp2515 s) (ha : Awake s) (hs : Ready s) (hal : Alone s)
    (hbuf : buf.toNat < 2) (hlen : rxLen s.peer buf.toNat ≤ 8) :
    exec (.decode buf) s = .next (answered
      (0x00 :: descriptor (rxId s.peer buf.toNat).1 (rxType s.peer buf.toNat) (rxId s.peer buf.toNat).2
        (receivedPayload s.peer buf.toNat s.draws))
      { s with
        peer := decodedPeer s.ctrl buf.toNat s.peer
        trace := s.trace ++ decodeRecords s.peer s.ctrl buf.toNat
        draws := s.draws + receivedDraws s.peer buf.toNat }) := by
  have hcount : (receiveExchanges .mcp2515 s.ctrl buf (rxLen s.peer buf.toNat)).length < maxActions := by
    unfold receiveExchanges maxActions
    split <;> split <;> simp
  have hread := bytesRead_decodeRecords s.peer buf.toNat s.ctrl
  rw [exec_decode, decodePlan_eq_script]
  refine runCommand_alone hs hal (structuralCheck_encode (i := .decode buf) rfl rfl)
    (performs_receive hchip ha hbuf hlen s.ctrl) hcount (follows_decode hchip hbuf hlen rfl rfl) ?_
  have hlist := decodeExchanges_ident (q := s.params) (ctrl := s.ctrl) hchip hbuf hlen
    (reg s.peer (rxBase buf.toNat) :: readBurst .mcp2515 s.peer (rxBase buf.toNat + 6) (rxLen s.peer buf.toNat))
  have hrange : ¬ maxPayload < decodedLen (bytesRead (decodeRecords s.peer s.ctrl buf.toNat)) := by
    rw [hread, decodedLen_ident]
    exact Nat.not_lt.mpr hlen
  rw [script_of_le (by simp only [hread]; exact (congrArg List.length hlist).le), decodeEnding,
    if_neg (Nat.not_le.mpr hbuf : ¬ nRxb ≤ buf.toNat), if_neg hrange]
  exact decodeResponse_read hchip hbuf hread

/-! ## A loaded frame, received -/

section
variable {kind : FrameKind} {n : Nat} {id : BitVec 32} {data : List Byte} {m : Memory}

/-- A descriptor of a payload that LEN can count denotes the frame it was made from (R89). -/
theorem frameOf_descriptor (kind : FrameKind) (type : FrameType) (id : BitVec 32) (h : data.length ≤ 15) :
    frameOf (descriptor kind type id data) = some { kind := kind, type := type, id := id.toNat, data := data } := by
  have hlen : data.length = lenOf (f0Byte kind type data.length) := by
    rw [lenOf_f0Byte]
    omega
  simp [descriptor, idBytes, frameOf, ← hlen, idOf_idBytes]

/-- The length that a loaded DLC holds (R94). -/
theorem dlcLen_loaded (h : data.length ≤ 8) :
    (loadedByte kind .data n id data m (txBase n + 5) &&& 0x0F).toNat = data.length := by
  rw [loadedByte_dlc, mergeBits_and_of_subset (by decide), dlcByte]
  revert h
  generalize data.length = len
  intro h
  interval_cases len <;> rfl

/-- The identifier that a loaded frame's registers hold (R92, R93). -/
theorem unpackId_loaded (hid : id.toNat < kind.idLimit) :
    unpackId .mcp2515 (loadedByte kind .data n id data m (txBase n + 1))
      (loadedByte kind .data n id data m (txBase n + 2)) (loadedByte kind .data n id data m (txBase n + 3))
      (loadedByte kind .data n id data m (txBase n + 4)) =
      (kind, id) := by
  cases kind with
  | std =>
    have hpack := (unpackOfPackIsTheIdentifier id (reg m (txBase n + 2)) (reg m (txBase n + 3))
      (reg m (txBase n + 4))).1 hid
    simpa [loadedByte, packId] using hpack
  | ext =>
    have hpack := (unpackOfPackIsTheIdentifier id (reg m (txBase n + 2)) 0 0).2 hid
    simpa [loadedByte, packId] using hpack

/-- Receive buffer `r` of the memory `m'` holds the frame that was loaded into transmit buffer `n` from `m`. -/
def HoldsLoaded (kind : FrameKind) (id : BitVec 32) (data : List Byte) (n : Nat) (m : Memory) (r : Nat) (m' : Memory) :
    Prop :=
  ∀ off, 1 ≤ off → off ≤ 5 + data.length →
    reg m' (rxBase r + off) = loadedByte kind .data n id data m (txBase n + off)

variable {r : Nat} {m' : Memory}

theorem HoldsLoaded.rxLen_eq (h : HoldsLoaded kind id data n m r m') (hlen : data.length ≤ 8) :
    rxLen m' r = data.length := by
  rw [rxLen, h 5 (by decide) (Nat.le_add_right ..), dlcLen_loaded hlen]

theorem HoldsLoaded.rxId_eq (h : HoldsLoaded kind id data n m r m') (hid : id.toNat < kind.idLimit) :
    rxId m' r = (kind, id) := by
  rw [rxId, h 1 (by decide) (by omega), h 2 (by decide) (by omega), h 3 (by decide) (by omega),
    h 4 (by decide) (by omega), unpackId_loaded hid]

theorem HoldsLoaded.readBurst_eq (h : HoldsLoaded kind id data n m r m') :
    readBurst .mcp2515 m' (rxBase r + 6) data.length = data := by
  refine List.ext_getElem (length_readBurst ..) fun i _ hi => ?_
  have hreg := h (6 + i) (by omega) (by omega)
  rw [loadedByte_payload, if_pos hi, List.getD_eq_getElem _ _ hi] at hreg
  rw [getElem_readBurst, Nat.add_assoc]
  exact hreg

end

/-- Settles O35: ENCODE leaves the frame's registers as `loadedByte` says, so the receive buffer holds a loaded frame,
from which DECODE reads back length, identifier and payload. -/
theorem roundTripThroughTheBuffers : Obligations.RoundTripThroughTheBuffers := by
  rintro ⟨kind, type, id, data⟩ s t u n r hwf rfl hn hr hchip ha hm hs hal ht hchip' ha' - hs' hal' hcopy hremote
  obtain ⟨hlen, hid⟩ : data.length ≤ 8 ∧ id < kind.idLimit := by
    rw [Frame.wellFormed, Bool.and_eq_true, decide_eq_true_eq, decide_eq_true_eq] at hwf
    exact hwf
  have hnat : (BitVec.ofNat 32 id).toNat = id := by
    rw [BitVec.toNat_ofNat, Nat.mod_eq_of_lt (Nat.lt_of_lt_of_le hid (by cases kind <;> decide))]
  have hid' : (BitVec.ofNat 32 id).toNat < kind.idLimit := hnat.symm ▸ hid
  obtain ⟨t', ht', -, hregs⟩ :=
    encodeVariant_loads hchip ha hm hs hal (prologue_in_range (type := .data) hn hlen hid' nofun)
  obtain rfl : t = t' := Host.Outcome.next.inj (ht.symm.trans ht')
  have hloaded : HoldsLoaded kind (BitVec.ofNat 32 id) data n.toNat s.peer r.toNat u.peer := fun off h1 h =>
    (hcopy off h1 h).trans (hregs _ (by simp only [txBase]; omega))
  have htype : rxType u.peer r.toNat = .data := by rw [rxType, hremote]; rfl
  have hpayload : receivedPayload u.peer r.toNat u.draws = data := by
    rw [receivedPayload, htype, hloaded.rxLen_eq hlen]
    exact hloaded.readBurst_eq
  refine ⟨_, _, decode_alone hchip' ha' hs' hal' hr (by rwa [hloaded.rxLen_eq hlen]), rfl, ?_⟩
  rw [hloaded.rxId_eq hid', htype, hpayload, frameOf_descriptor _ _ _ (by omega), hnat]

end Sys2Proof.Machine
end

