-- ==== Sys2Proof/Proofs/IdentifierFormulas.lean ====
section
/-!
SUPPORT. PackStd and PackExt on the numbers of their formulas.
-/

namespace Sys2Proof.Machine

/-- The low byte of a shifted identifier, as a number. -/
theorem setWidth_shiftRight (id : BitVec 32) (k : Nat) :
    (id >>> k).setWidth 8 = BitVec.ofNat 8 (id.toNat >>> k) := by
  rw [← BitVec.toNat_ushiftRight, BitVec.ofNat_toNat]

/-- Settles O16: PackStd byte by byte; nothing is shifted out of a word, and 0xE0 leaves SIDL bits 4 to 0 clear. -/
theorem packStdFollowsItsFormula : Obligations.PackStdFollowsItsFormula := by
  intro id hid
  have hshift : (id <<< 5).toNat = id.toNat <<< 5 := by
    rw [BitVec.toNat_shiftLeft, Nat.shiftLeft_eq]
    omega
  have hsidl : BitVec.ofNat 8 ((id.toNat <<< 5) &&& 0xE0) = (id <<< 5).setWidth 8 &&& sidlSidMask := by
    rw [BitVec.ofNat_and, ← hshift, BitVec.ofNat_toNat]
    rfl
  refine ⟨?_, ?_, ?_⟩
  · rw [packStd, setWidth_shiftRight, hsidl]
  · rw [Nat.shiftRight_eq_div_pow]
    omega
  · have hclear : sidlSidMask &&& 0x1F = 0 := by decide
    rw [hsidl, BitVec.and_assoc, hclear]
    exact BitVec.and_zero

/-- Settles O17: PackExt byte by byte, each mask of the formula a mask on the low byte. -/
theorem packExtFollowsItsFormula : Obligations.PackExtFollowsItsFormula := by
  intro id hid
  refine ⟨?_, ?_⟩
  · have hlow : ∀ x : Nat, BitVec.ofNat 8 (x &&& 0xFF) = BitVec.ofNat 8 x := fun x => by
      rw [BitVec.ofNat_and]
      exact and_ones _
    have hsidl : ∀ x y : Nat, BitVec.ofNat 8 ((x &&& 0xE0) ||| 0x08 ||| (y &&& 0x03)) =
        BitVec.ofNat 8 x &&& sidlSidMask ||| Chip.mcp2515.exideMask ||| BitVec.ofNat 8 y &&& sidlEidMask :=
      fun x y => by
        rw [BitVec.ofNat_or, BitVec.ofNat_or, BitVec.ofNat_and, BitVec.ofNat_and]
        rfl
    rw [packExt, hlow, hlow, hsidl]
    simp only [setWidth_shiftRight, BitVec.ofNat_toNat]
  · rw [Nat.shiftRight_eq_div_pow]
    omega

end Sys2Proof.Machine
end

