-- ==== Sys2Proof/Proofs/ReceivedFrame.lean ====
section
/-!
SUPPORT. The frame in a receive buffer: which bits are its, that no exchange but RESET changes them, and what a DECODE reads
of it.
-/

namespace Sys2Proof.Machine

/-! ## The bits of a received frame -/

/-- The bits of the register at offset `off` of a receive buffer that belong to the frame: of RXBnCTRL RXRTR alone. -/
def frameBits (off : Nat) : Byte := if off = 0 then 0x08 else 0xFF

/-- Receive buffer `n` holds the same frame in two memories. -/
def SameFrame (n : Nat) (m m' : Memory) : Prop :=
  ∀ off, off ≤ 13 → reg m' (rxBase n + off) &&& frameBits off = reg m (rxBase n + off) &&& frameBits off

theorem SameFrame.refl (n : Nat) (m : Memory) : SameFrame n m m := fun _ _ => rfl

theorem SameFrame.trans {n : Nat} {m m₁ m₂ : Memory} (h : SameFrame n m m₁) (h' : SameFrame n m₁ m₂) :
    SameFrame n m m₂ := fun off hoff => (h' off hoff).trans (h off hoff)

section
variable {n off : Nat} (hn : n < 2)
include hn

/-- The bits of the frame read as they are kept: BUKT1 is none of them. -/
theorem reg_and_frameBits (m : Memory) (h : off ≤ 13) :
    reg m (rxBase n + off) &&& frameBits off = m.read (rxBase n + off) &&& frameBits off := by
  by_cases h0 : rxBase n + off = 0x60
  · obtain ⟨rfl, rfl⟩ : n = 0 ∧ off = 0 := by simp only [rxBase] at h0; omega
    exact copyBukt_rxrtr .mcp2515 _
  · rw [reg_rxBase m hn h h0]

/-- No exchange but RESET reaches a bit of a received frame (R158, log 5). -/
theorem writableMask_and_frameBits (config : Bool) (h : off ≤ 13) :
    writableMask .mcp2515 config (rxBase n + off) &&& frameBits off = 0 := by
  rw [← rxbBase_mcp2515 hn]
  by_cases h0 : off = 0
  · subst h0
    simp only [writableMask, txbOffset_rxb hn, rxbOffset_rxb hn h]
    exact rxbWritable_rxrtr .mcp2515 _
  · rw [writableMask_rxb hn h h0]
    exact BitVec.zero_and

theorem sameFrame_peerStore {m : Memory} (hm : m.wf = true) (config : Bool) (a : Nat) (mask v : Byte) :
    SameFrame n m (peerStore .mcp2515 config m a mask v) := by
  intro off h
  rw [reg_and_frameBits hn _ h, reg_and_frameBits hn _ h]
  by_cases ha : rxBase n + off = home .mcp2515 a
  · rw [ha, read_peerStore_same hm]
    refine mergeBits_and_of_disjoint ?_ _ _
    rw [BitVec.and_assoc, ← ha, writableMask_and_frameBits hn config h]
    exact BitVec.and_zero
  · rw [read_peerStore_other config mask v ha]

theorem sameFrame_writeBurst {m : Memory} (hm : m.wf = true) (config : Bool) (a : Nat) (ds : List Byte) :
    SameFrame n m (writeBurst .mcp2515 config m a ds) := by
  induction ds generalizing m a with
  | nil => exact .refl n m
  | cons d ds ih =>
    exact (sameFrame_peerStore hn hm config a 0xFF d).trans (ih (peerStore_wf hm config a 0xFF d) (a + 1))

theorem sameFrame_requestSelected {m : Memory} (hm : m.wf = true) (t : BitVec 3) :
    SameFrame n m (requestSelected .mcp2515 m t) := by
  have hstep : ∀ (b : Bool) (k : Nat) (u : Memory), u.wf = true ∧ SameFrame n m u →
      (if b then requestTransmit .mcp2515 u k else u).wf = true ∧
        SameFrame n m (if b then requestTransmit .mcp2515 u k else u) := by
    rintro (_ | _) k u ⟨hu, hsame⟩
    · exact ⟨hu, hsame⟩
    · exact ⟨requestTransmit_wf hu k, hsame.trans (sameFrame_peerStore hn hu _ _ _ _)⟩
  exact (hstep (t.getLsbD 2) 2 _ (hstep (t.getLsbD 1) 1 _ (hstep (t.getLsbD 0) 0 m ⟨hm, .refl n m⟩))).2

/-- On an active interface no exchange but RESET changes a received frame (R158, log 5). -/
theorem activeEffect_sameFrame {q : Params} (hq : q.chip = .mcp2515) {x : Exchange} (hx : x ≠ .reset) {m : Memory}
    (hm : m.wf = true) {d : Nat} {r : BusResult} (h : activeEffect q x m d = .next r) : SameFrame n m r.peer := by
  cases x with
  | read a k =>
    simp only [activeEffect] at h
    split at h
    · cases h
    · split at h <;> cases h
      exact .refl n m
  | write a data =>
    simp only [activeEffect, hq] at h
    split at h
    · cases h
    · split at h <;> cases h
      exact sameFrame_writeBurst hn hm _ _ _
  | bitModify a mask v =>
    simp only [activeEffect, hq] at h
    split at h <;> cases h
    exact sameFrame_peerStore hn hm _ _ _ _
  | reset => exact absurd rfl hx
  | readStatus k =>
    simp only [activeEffect] at h
    split at h <;> cases h
    exact .refl n m
  | rxStatus k =>
    simp only [activeEffect] at h
    split at h <;> cases h
    exact .refl n m
  | readRxb b sel k =>
    simp only [activeEffect, hq] at h
    split at h <;> cases h
    exact sameFrame_peerStore hn hm _ _ _ _
  | loadTxb abc data =>
    simp only [activeEffect, hq] at h
    split at h
    · cases h
    · split at h <;> cases h
      exact sameFrame_writeBurst hn hm _ _ _
  | rts t =>
    simp only [activeEffect, hq] at h
    cases h
    exact sameFrame_requestSelected hn hm t

/-- A turn of the chip that leaves the buffer as it reads leaves its frame (R30). -/
theorem sameFrame_of_sameRxBuffer {m m' : Memory} (h : sameRxBuffer .mcp2515 n m m') : SameFrame n m m' := by
  intro off hoff
  have hreg := h (rxBase n + off)
  rw [rxbBase_mcp2515 hn] at hreg
  rw [reg, hreg (Nat.le_add_right ..) (Nat.add_le_add_left hoff _)]

/-! ## What the same frame reads as -/

omit hn in
theorem SameFrame.reg_eq {m m' : Memory} (h : SameFrame n m m') (h1 : 1 ≤ off) (hoff : off ≤ 13) :
    reg m' (rxBase n + off) = reg m (rxBase n + off) := by
  have hbits := h off hoff
  rwa [frameBits, if_neg (Nat.ne_of_gt h1), and_ones, and_ones] at hbits

omit hn in
theorem SameFrame.readBurst_eq {m m' : Memory} (h : SameFrame n m m') {len : Nat} (h1 : 1 ≤ off)
    (hlen : off + len ≤ 14) : readBurst .mcp2515 m' (rxBase n + off) len = readBurst .mcp2515 m (rxBase n + off) len := by
  refine List.ext_getElem (by rw [length_readBurst, length_readBurst]) fun i hi _ => ?_
  rw [length_readBurst] at hi
  rw [getElem_readBurst, getElem_readBurst, Nat.add_assoc]
  exact h.reg_eq (by omega) (by omega)

omit hn in
theorem SameFrame.rxLen_eq {m m' : Memory} (h : SameFrame n m m') : rxLen m' n = rxLen m n := by
  rw [rxLen, h.reg_eq (by decide) (by decide), rxLen]

omit hn in
theorem SameFrame.rxId_eq {m m' : Memory} (h : SameFrame n m m') : rxId m' n = rxId m n := by
  rw [rxId, h.reg_eq (by decide) (by decide), h.reg_eq (by decide) (by decide), h.reg_eq (by decide) (by decide),
    h.reg_eq (by decide) (by decide), rxId]

theorem SameFrame.rxType_eq {m m' : Memory} (h : SameFrame n m m') : rxType m' n = rxType m n := by
  have hctrl : rxbBase .mcp2515 n + Chip.mcp2515.offCtrl = rxBase n := rxbBase_mcp2515 hn
  have hbit : reg m' (rxBase n) &&& Chip.mcp2515.rxrtrMask = reg m (rxBase n) &&& Chip.mcp2515.rxrtrMask :=
    h 0 (Nat.zero_le _)
  rw [rxType, rxType, rxRemote, rxRemote, hctrl, hbit]

end

end Sys2Proof.Machine
end

