-- ==== Sys2Proof/Proofs/FrameUnderHold.lean ====
section
/-!
SUPPORT. DECODE under HOLD_WHILE_FLAG: the premise of R158 along a run, how far a DECODE has read its one frame, and the
statement about it.
-/

namespace Sys2Proof.Machine

/-! ## The premise of R158 along a run -/

/-- The induction over the run of a command that keeps the premise of R158: what its actions and the turns keep while the
chip is awake, the run keeps. Once the turns are used up, its own actions leave the chip awake. -/
theorem drive_keepsFrame {p : Plan} {n : Nat} {P : State → Prop} (hagenda : ∀ s ts, P s → P { s with agenda := ts })
    (hact : ∀ s t, Awake s → P s → s.seq ≠ .idle → act p s = .next t → P t ∧ Awake t)
    (hturn : ∀ u s t, Awake s → P s → s.seq ≠ .idle → KeepsFrameIn n s u → envTurn u s = .next t → P t)
    {ts : List Turn} {s t : State} (hk : KeepsFrame p n ts s) (hs : P s) (h : drive p ts s = .next t) : P t := by
  induction ts generalizing s with
  | nil =>
    obtain hidle | ha := hk
    · rw [drive, runAlone_idle (s := { s with agenda := [] }) hidle] at h
      cases h
      exact hagenda s [] hs
    · exact (runAlone_keeps (P := fun u => P u ∧ Awake u)
        (fun u v hu hbusy hv => hact u v hu.2 hu.1 hbusy hv) _ _ _ ⟨hagenda s [] hs, ha⟩ h).1
  | cons u ts ih =>
    rw [drive] at h
    split at h
    next => cases h; exact hagenda s _ hs
    next hbusy =>
      obtain ⟨ha, hkeeps, hrest⟩ := hk.resolve_left hbusy
      split at h
      next s' hs' =>
        refine ih (hrest s' hs') ?_ h
        by_cases hu : u = .block
        · subst hu
          exact (hact s s' ha hs hbusy hs').1
        · exact hturn u s s' ha hs hbusy hkeeps (turn_eq_envTurn hu ▸ hs')
      next => cases h
      next => cases h

section
variable {n : Nat} {s t : State}

/-- While RXnIF is set, a turn that keeps the premise of R158 changes neither the flag nor the frame. -/
theorem envTurn_sameFrame (hn : n < 2) (hchip : Mcp2515 s) (hm : s.peer.wf = true) (ha : Awake s)
    (hflag : rxFlag .mcp2515 s.peer n = true) {u : Turn} (hk : KeepsFrameIn n s u) (h : envTurn u s = .next t) :
    rxFlag .mcp2515 t.peer n = true ∧ SameFrame n s.peer t.peer := by
  rw [← hchip] at hflag
  cases u with
  | chip changes =>
    have hsame := hk hflag
    cases h
    rw [hchip] at hflag hsame ⊢
    exact ⟨rxFlag_chipStep hm changes n hflag, sameFrame_of_sameRxBuffer hn hsame⟩
  | master mosi =>
    simp only [envTurn] at h
    split at h
    next x hx =>
      obtain ⟨-, r, hr, rfl⟩ := masterExchange_next h
      obtain ⟨hreset, hflag'⟩ := hk x r hx hr hflag
      rw [exchangeEffect_awake ha] at hr
      exact ⟨hchip ▸ hflag', activeEffect_sameFrame hn hchip hreset hm hr⟩
    next => cases h
  | block | hold | offer | take | reset =>
    cases h
    exact ⟨hchip ▸ hflag, .refl n _⟩

theorem envTurn_wf (hm : s.peer.wf = true) {u : Turn} (h : envTurn u s = .next t) : t.peer.wf = true := by
  cases u with
  | chip changes => cases h; exact chipStep_wf hm changes
  | master mosi =>
    simp only [envTurn] at h
    split at h
    · obtain ⟨-, r, hr, rfl⟩ := masterExchange_next h
      exact exchangeEffect_wf hr hm
    · cases h
  | block | hold | offer | take | reset => cases h; exact hm

/-- No turn of another agent brings a response (R25). -/
theorem envTurn_resp {u : Turn} (h : envTurn u s = .next t) : t.resp = s.resp ∨ t.resp.valid = false := by
  cases u with
  | master mosi =>
    simp only [envTurn] at h
    split at h
    · obtain ⟨-, r, -, rfl⟩ := masterExchange_next h
      exact .inl rfl
    · cases h
  | take | reset => cases h; exact .inr rfl
  | block | chip | hold | offer => cases h; exact .inl rfl

end

/-! ## How far a DECODE has read -/

section
variable (m : Memory) (n : Nat)

/-- What a DECODE of receive buffer `n` has read after `k` exchanges, when each of them saw the frame of `m`. The bits of
RXBnCTRL beside the frame are those of the memory that its READ found. -/
def FrameRead (k : Nat) (got : List Byte) : Prop :=
  match k with
  | 0 => got = []
  | 1 => got = readBurst .mcp2515 m (rxBase n + 1) 5
  | 2 => ∃ m', SameFrame n m m' ∧ got = readBurst .mcp2515 m' (rxBase n + 1) 5 ++ [reg m' (rxBase n)]
  | _ => ∃ m', SameFrame n m m' ∧ got = readBurst .mcp2515 m' (rxBase n + 1) 5 ++ reg m' (rxBase n) ::
      readBurst .mcp2515 m' (rxBase n + 6) (rxLen m' n)

/-- The DECODE still has bytes to read. -/
def MoreToRead (k : Nat) : Prop := k < 2 ∨ k = 2 ∧ rxLen m n ≠ 0

/-- A DECODE is in progress after `k` exchanges that saw the frame of `m`, which stands as long as there is more to
read. -/
structure DecodingAt (k : Nat) (u : State) : Prop where
  chip : Mcp2515 u
  peerWf : u.peer.wf = true
  seq : ∃ op, u.seq = .busy op k
  silent : u.resp.valid = false
  read : FrameRead m n k u.got
  stands : MoreToRead m n k → rxFlag .mcp2515 u.peer n = true ∧ SameFrame n m u.peer

/-- A response that is the descriptor of the frame in receive buffer `n` of `m`. -/
def AnswersFrame (r : Resp) : Prop :=
  ∃ payload, payload.length = rxLen m n ∧
    (rxType m n = .data → payload = readBurst .mcp2515 m (rxBase n + 6) (rxLen m n)) ∧
    r = { valid := true, bytes := some (0x00 :: descriptor (rxId m n).1 (rxType m n) (rxId m n).2 payload) }

/-- The DECODE is in progress, or over; a response that stands then is the frame's. -/
def DecodesFrame (u : State) : Prop :=
  (∃ k, DecodingAt m n k u) ∨ (u.seq = .idle ∧ (u.resp.valid = true → AnswersFrame m n u.resp))

end

section
variable {m : Memory} {n k : Nat} {u t : State}

theorem DecodesFrame.setAgenda (h : DecodesFrame m n u) (ts : List Turn) : DecodesFrame m n { u with agenda := ts } :=
  h.imp (fun ⟨k, hat⟩ => ⟨k, hat.chip, hat.peerWf, hat.seq, hat.silent, hat.read, hat.stands⟩) id

/-- A turn that keeps the premise of R158 leaves a DECODE where it stands, or resets the block. -/
theorem DecodingAt.envTurn (h : DecodingAt m n k u) (hn : n < 2) (ha : Awake u) {v : Turn} (hk : KeepsFrameIn n u v)
    (ht : envTurn v u = .next t) : DecodesFrame m n t := by
  by_cases hv : v = .reset
  · subst hv
    cases ht
    exact .inr ⟨rfl, nofun⟩
  · have hsame := envTurn_sameCommand hv ht
    refine .inl ⟨k, (congrArg Params.chip hsame.params).trans h.chip, envTurn_wf h.peerWf ht, hsame.seq ▸ h.seq, ?_,
      hsame.got ▸ h.read, fun hmore => ?_⟩
    · obtain hresp | hresp := envTurn_resp ht
      · rw [hresp, h.silent]
      · exact hresp
    · obtain ⟨hflag, hframe⟩ := h.stands hmore
      obtain ⟨hflag', hframe'⟩ := envTurn_sameFrame hn h.chip h.peerWf ha hflag hk ht
      exact ⟨hflag', hframe.trans hframe'⟩

theorem FrameRead.decodedLen_eq {got : List Byte} (h : FrameRead m n k got) (hk : 1 ≤ k) : decodedLen got = rxLen m n := by
  match k, hk with
  | 1, _ => exact h ▸ rfl
  | 2, _ => obtain ⟨m', hsame, rfl⟩ := h; exact hsame.rxLen_eq
  | k + 3, _ => obtain ⟨m', hsame, rfl⟩ := h; exact hsame.rxLen_eq

/-- With nothing more to read, all has been read, whatever exchanges follow. -/
theorem FrameRead.complete {got : List Byte} (h : FrameRead m n k got) (hmore : ¬ MoreToRead m n k) (j : Nat) :
    FrameRead m n (j + 3) got := by
  match k with
  | 0 => exact absurd (.inl (by decide)) hmore
  | 1 => exact absurd (.inl (by decide)) hmore
  | 2 =>
    have h0 : rxLen m n = 0 := by_contra fun h0 => hmore (.inr ⟨rfl, h0⟩)
    obtain ⟨m', hsame, hgot⟩ := h
    refine ⟨m', hsame, ?_⟩
    rw [hgot, hsame.rxLen_eq, h0]
    rfl
  | k + 3 => exact h

/-- The response of a DECODE that has read all of its frame. -/
theorem FrameRead.answers {v : View} {j : Nat} (h : FrameRead m n (j + 3) v.got) (hn : n < 2) (hlen : rxLen m n ≤ 8)
    (hq : v.params.chip = .mcp2515) : AnswersFrame m n { valid := true, bytes := some (answerOf (decodeResponse v)) } := by
  obtain ⟨m', hsame, hgot⟩ := h
  refine ⟨receivedPayload m' n v.draws, ?_, fun htype => ?_, ?_⟩
  · rw [← hsame.rxLen_eq, receivedPayload]
    split
    · exact length_readBurst ..
    · exact length_drawBytes ..
  · rw [receivedPayload, hsame.rxType_eq hn, htype, hsame.rxLen_eq]
    exact hsame.readBurst_eq (by decide) (by omega)
  · rw [decodeResponse_read hq hn hgot, hsame.rxId_eq, hsame.rxType_eq hn]
    rfl

end

/-! ## The actions of a DECODE -/

section
variable {buf : BitVec 2} {v : View} (hbuf : buf.toNat < 2) (hlen : decodedLen v.got ≤ 8)
include hbuf hlen

theorem decodePlan_second (hk : v.step = 1) : decodePlan buf v = .issue (readRxbCtrl v.params.chip buf) := by
  simp only [decodePlan, if_neg (Nat.not_le.mpr hbuf : ¬ nRxb ≤ buf.toNat),
    if_neg (Nat.not_lt.mpr hlen : ¬ maxPayload < _), hk, readRxbCtrl]

theorem decodePlan_third (hk : v.step = 2) (h0 : decodedLen v.got ≠ 0) :
    decodePlan buf v = .issue (readPayload v.params.chip buf (decodedLen v.got)) := by
  simp only [decodePlan, if_neg (Nat.not_le.mpr hbuf : ¬ nRxb ≤ buf.toNat),
    if_neg (Nat.not_lt.mpr hlen : ¬ maxPayload < _), hk, if_neg h0, readPayload]

/-- With all of its frame read, a DECODE clears the flag or responds (R156, R157). -/
theorem decodePlan_last (hk : v.step = 2 ∧ decodedLen v.got = 0 ∨ 3 ≤ v.step) :
    decodePlan buf v = .issue (clearFlag v.params.chip buf) ∨ decodePlan buf v = decodeResponse v := by
  have hafter : afterPayload buf v = .issue (clearFlag v.params.chip buf) ∨ afterPayload buf v = decodeResponse v := by
    simp only [afterPayload]
    split
    · exact .inl rfl
    · exact .inr rfl
  have hrange : ¬ nRxb ≤ buf.toNat := Nat.not_le.mpr hbuf
  have hlen' : ¬ maxPayload < decodedLen v.got := Nat.not_lt.mpr hlen
  obtain ⟨hk, h0⟩ | hk := hk
  · simpa only [decodePlan, if_neg hrange, if_neg hlen', hk, if_pos h0] using hafter
  · obtain ⟨j, hj⟩ := Nat.exists_eq_add_of_le' hk
    simp only [decodePlan, if_neg hrange, if_neg hlen', hj]
    cases j with
    | zero =>
      by_cases h0 : decodedLen v.got = 0
      · exact .inr (if_pos h0)
      · simpa only [if_neg h0] using hafter
    | succ j => exact .inr rfl

end

section
variable {m : Memory} {k : Nat} {u t : State} {buf : BitVec 2}

/-- A READ of the block within a receive buffer, awake: it waits for BUS, or has read what stands there (R190). -/
theorem act_read {p : Plan} {off len : Nat} (hchip : Mcp2515 u) (ha : Awake u) (hbuf : buf.toNat < 2) (h1 : 1 ≤ len)
    (hfit : off + len ≤ 14) (hp : p u.view = .issue (.read (rxbAddress .mcp2515 buf off) len))
    (h : act p u = .next t) :
    t = u ∨ ∃ miso, dataBytes miso = readBurst .mcp2515 u.peer (rxBase buf.toNat + off) len ∧
      t = u.issued (.read (rxbAddress .mcp2515 buf off) len) u.peer miso := by
  have haddr := toNat_rxbAddress hbuf (by omega : off ≤ 13)
  have hsize : (rxbAddress .mcp2515 buf off).toNat + len ≤ u.params.chip.size := by
    rw [haddr, hchip]
    exact Nat.le_trans (by simp only [rxBase]; omega : _ ≤ 0x7E) (by decide)
  obtain ⟨-, rfl⟩ | ⟨-, r, hr, rfl⟩ := blockExchange_next (act_issues hp h)
  · exact .inl rfl
  · rw [exchangeEffect_awake ha, activeEffect_read h1 hsize, haddr, hchip] at hr
    cases hr
    exact .inr ⟨_, dataBytes_read 2 _, rfl⟩

/-- The BIT_MODIFY that clears the flag, awake: it reads nothing and does not put the chip to Sleep (R156). -/
theorem act_clearFlag {p : Plan} (hchip : Mcp2515 u) (ha : Awake u)
    (hp : p u.view = .issue (clearFlag u.params.chip buf)) (h : act p u = .next t) :
    t = u ∨ ∃ m' miso, dataBytes miso = [] ∧ t = u.issued (clearFlag u.params.chip buf) m' miso ∧
      (u.peer.wf = true → m'.wf = true) ∧ Awake t := by
  obtain ⟨-, rfl⟩ | ⟨-, r, hr, rfl⟩ := blockExchange_next (act_issues hp h)
  · exact .inl rfl
  · rw [exchangeEffect_awake ha, hchip, clearFlag, activeEffect_bitModify (by rw [hchip]; decide)] at hr
    cases hr
    refine .inr ⟨_, _, dataBytes_noValue 4, rfl, fun hm => peerStore_wf hm _ _ _ _, ?_⟩
    have hawake := (asleep_eq_false hchip).mp ha
    refine (asleep_eq_false hchip).mpr (hawake.imp_right fun hopmod => ?_)
    rwa [State.advance_peer, State.afterExchange_peer, bitModifyPeer,
      read_peerStore_other _ _ _ (by rw [hchip]; decide)]

/-- A READ that sees what stands in the buffer takes the DECODE one exchange further. -/
theorem DecodingAt.reads {off len : Nat} (h : DecodingAt m buf.toNat k u) (ha : Awake u) (hbuf : buf.toNat < 2)
    (h1 : 1 ≤ len) (hfit : off + len ≤ 14) (hmore : MoreToRead m buf.toNat k)
    (hp : decodePlan buf u.view = .issue (.read (rxbAddress .mcp2515 buf off) len))
    (hread : SameFrame buf.toNat m u.peer →
      FrameRead m buf.toNat (k + 1) (u.got ++ readBurst .mcp2515 u.peer (rxBase buf.toNat + off) len))
    (hact : act (decodePlan buf) u = .next t) : DecodesFrame m buf.toNat t ∧ Awake t := by
  obtain rfl | ⟨miso, hmiso, rfl⟩ := act_read h.chip ha hbuf h1 hfit hp hact
  · exact ⟨.inl ⟨k, h⟩, ha⟩
  · obtain ⟨op, hseq⟩ := h.seq
    have hstands := h.stands hmore
    refine ⟨.inl ⟨k + 1, h.chip, h.peerWf, ⟨op, State.advance_seq_busy _ _ hseq⟩, h.silent, ?_, fun _ => hstands⟩, ha⟩
    have hgot := hread hstands.2
    rw [← hmiso] at hgot
    exact hgot

/-- With all of the frame read, a DECODE clears the flag or answers with the frame. -/
theorem DecodingAt.ends (h : DecodingAt m buf.toNat k u) (ha : Awake u) (hbuf : buf.toNat < 2)
    (hlen : rxLen m buf.toNat ≤ 8) (hmore : ¬ MoreToRead m buf.toNat k)
    (hact : act (decodePlan buf) u = .next t) : DecodesFrame m buf.toNat t ∧ Awake t := by
  obtain ⟨op, hseq⟩ := h.seq
  have h2 : 2 ≤ k := Nat.not_lt.mp fun hk => hmore (.inl hk)
  have hstep : u.view.step = k := by rw [State.view_step, hseq]; rfl
  have hgot : decodedLen u.view.got = rxLen m buf.toNat := h.read.decodedLen_eq (by omega)
  have hlast : u.view.step = 2 ∧ decodedLen u.view.got = 0 ∨ 3 ≤ u.view.step := by
    rw [hstep, hgot]
    by_cases hk : k = 2
    · exact .inl ⟨hk, by_contra fun h0 => hmore (.inr ⟨hk, h0⟩)⟩
    · exact .inr (by omega)
  obtain hp | hp := decodePlan_last hbuf (hgot.trans_le hlen) hlast
  · obtain rfl | ⟨m', miso, hmiso, rfl, hwf, hawake⟩ := act_clearFlag h.chip ha hp hact
    · exact ⟨.inl ⟨k, h⟩, ha⟩
    · obtain ⟨j, rfl⟩ := Nat.exists_eq_add_of_le' h2
      refine ⟨.inl ⟨j + 3, h.chip, hwf h.peerWf, ⟨op, State.advance_seq_busy _ _ hseq⟩, h.silent, ?_, ?_⟩, hawake⟩
      · have hdone := h.read.complete hmore j
        rw [← List.append_nil u.got, ← hmiso] at hdone
        exact hdone
      · rintro (hk | ⟨hk, -⟩) <;> omega
  · have hanswers := (h.read.complete hmore 0).answers (v := u.view) hbuf hlen h.chip
    rw [decodeResponse] at hp hanswers
    cases (act_respond hp).symm.trans hact
    exact ⟨.inr ⟨rfl, fun _ => hanswers⟩, ha⟩

/-- Each action of a DECODE of a frame that stands takes it further or ends it with the frame. -/
theorem DecodingAt.act (h : DecodingAt m buf.toNat k u) (ha : Awake u) (hbuf : buf.toNat < 2)
    (hlen : rxLen m buf.toNat ≤ 8) (hact : act (decodePlan buf) u = .next t) :
    DecodesFrame m buf.toNat t ∧ Awake t := by
  obtain ⟨op, hseq⟩ := h.seq
  have hstep : u.view.step = k := by rw [State.view_step, hseq]; rfl
  have hchip : u.view.params.chip = .mcp2515 := h.chip
  by_cases hmore : MoreToRead m buf.toNat k
  · have hwhere : k < 2 ∨ k = 2 ∧ rxLen m buf.toNat ≠ 0 := hmore
    obtain hk | ⟨rfl, h0⟩ := hwhere
    · interval_cases k
      · have hp := decodePlan_first hbuf hstep
        rw [hchip] at hp
        refine h.reads ha hbuf (off := 1) (by decide) (by decide) hmore hp (fun hsame => ?_) hact
        have hgot : u.got = [] := h.read
        rw [hgot]
        exact hsame.readBurst_eq (by decide) (by decide)
      · have hgot : decodedLen u.view.got = rxLen m buf.toNat := h.read.decodedLen_eq (by decide)
        have hp := decodePlan_second hbuf (hgot.trans_le hlen) hstep
        rw [hchip] at hp
        refine h.reads ha hbuf (off := 0) (by decide) (by decide) hmore hp (fun hsame => ⟨u.peer, hsame, ?_⟩) hact
        have hread : u.got = readBurst .mcp2515 m (rxBase buf.toNat + 1) 5 := h.read
        rw [hread, hsame.readBurst_eq (off := 1) (by decide) (by decide)]
        rfl
    · have hgot : decodedLen u.view.got = rxLen m buf.toNat := h.read.decodedLen_eq (by decide)
      have hp := decodePlan_third hbuf (hgot.trans_le hlen) hstep (hgot ▸ h0)
      rw [hchip, hgot] at hp
      refine h.reads ha hbuf (off := 6) (Nat.one_le_iff_ne_zero.mpr h0) (by omega) hmore hp (fun hsame => ?_) hact
      obtain ⟨m', hsame', hread⟩ := h.read
      refine ⟨m', hsame', ?_⟩
      rw [hread, hsame'.rxLen_eq, hsame'.readBurst_eq (off := 6) (by decide) (by omega),
        hsame.readBurst_eq (by decide) (by omega), List.append_assoc]
      rfl
  · exact h.ends ha hbuf hlen hmore hact

end

/-- Settles O34, by the induction over the run that keeps the premise of R158: as long as there is more to read the frame
stands, so every READ sees the one frame. -/
theorem decodeSeesOneFrameUnderHold : Obligations.DecodeSeesOneFrameUnderHold := by
  intro s t buf hchip hm hs hbuf hflag hlen hkeeps h hvalid
  rw [exec_decode, runCommand_ready hs (structuralCheck_encode (i := .decode buf) rfl rfl)] at h
  have hstart : DecodesFrame s.peer buf.toNat (s.accept .decode (encode (.decode buf))) :=
    .inl ⟨0, hchip, hm, ⟨_, rfl⟩, hs.2, rfl, fun _ => ⟨hflag, .refl _ _⟩⟩
  obtain ⟨k, hat⟩ | ⟨-, hanswers⟩ := drive_keepsFrame (P := DecodesFrame s.peer buf.toNat)
    (fun _ ts hu => hu.setAgenda ts)
    (fun u v ha hu hbusy hact => by
      obtain ⟨k, hat⟩ | ⟨hidle, -⟩ := hu
      · exact hat.act ha hbuf hlen hact
      · exact absurd hidle hbusy)
    (fun _ u v ha hu hbusy hk ht => by
      obtain ⟨k, hat⟩ | ⟨hidle, -⟩ := hu
      · exact hat.envTurn hbuf ha hk ht
      · exact absurd hidle hbusy)
    hkeeps hstart h
  · exact absurd hvalid (by rw [hat.silent]; decide)
  · exact hanswers hvalid

end Sys2Proof.Machine
end

