-- ==== Sys2Proof/Proofs/Unpacking.lean ====
section
/-!
SUPPORT. UnpackId on the numbers of its formula, and its bounds on every register map.
-/

namespace Sys2Proof.Machine

variable (sidh sidl eid8 eid0 : Byte)

/-- The number that SIDH and the top of SIDL hold (R151). -/
def sidNumber : Nat := sidh.toNat <<< 3 ||| sidl.toNat >>> 5

/-- The number that the four identifier registers of an extended frame hold (R151). -/
def eidNumber : Nat :=
  ((sidNumber sidh sidl) <<< 2 ||| sidl.toNat &&& 0x03) <<< 16 ||| eid8.toNat <<< 8 ||| eid0.toNat

theorem sidNumber_lt : sidNumber sidh sidl < 2 ^ 11 :=
  Nat.or_lt_two_pow (Nat.shiftLeft_lt sidh.isLt)
    (Nat.lt_of_le_of_lt (Nat.shiftRight_le ..) (Nat.lt_trans sidl.isLt (by decide)))

theorem eidNumber_lt : eidNumber sidh sidl eid8 eid0 < 2 ^ 29 := by
  have hsid : sidNumber sidh sidl <<< 2 < 2 ^ 13 := Nat.shiftLeft_lt (sidNumber_lt sidh sidl)
  have heid : sidl.toNat &&& 0x03 < 2 ^ 13 := Nat.lt_of_le_of_lt Nat.and_le_right (by decide)
  exact Nat.or_lt_two_pow
    (Nat.or_lt_two_pow (Nat.shiftLeft_lt (Nat.or_lt_two_pow hsid heid))
      (Nat.lt_trans (Nat.shiftLeft_lt eid8.isLt) (by decide)))
    (Nat.lt_trans eid0.isLt (by decide))

/-- A shift that loses no bit is the shift of the number. -/
theorem toNat_shiftLeft_of_lt {x : BitVec 32} {k : Nat} (h : x.toNat <<< k < 2 ^ 32) :
    (x <<< k).toNat = x.toNat <<< k := by
  rw [BitVec.toNat_shiftLeft, Nat.mod_eq_of_lt h]

theorem toNat_setWidth_byte (b : Byte) : (b.setWidth 32).toNat = b.toNat :=
  BitVec.toNat_setWidth_of_le (by decide)

theorem toNat_sid : (sidh.setWidth 32 <<< 3 ||| sidl.setWidth 32 >>> 5).toNat = sidNumber sidh sidl := by
  have hsidh : (sidh.setWidth 32).toNat <<< 3 < 2 ^ 32 := by
    rw [toNat_setWidth_byte]
    exact Nat.lt_trans (Nat.shiftLeft_lt sidh.isLt) (by decide)
  rw [BitVec.toNat_or, toNat_shiftLeft_of_lt hsidh, BitVec.toNat_ushiftRight, toNat_setWidth_byte, toNat_setWidth_byte,
    sidNumber]

theorem toNat_eid :
    ((((sidh.setWidth 32 <<< 3 ||| sidl.setWidth 32 >>> 5) <<< 2 ||| (sidl &&& sidlEidMask).setWidth 32) <<< 16) |||
      eid8.setWidth 32 <<< 8 ||| eid0.setWidth 32).toNat = eidNumber sidh sidl eid8 eid0 := by
  have hsid : (sidh.setWidth 32 <<< 3 ||| sidl.setWidth 32 >>> 5).toNat <<< 2 < 2 ^ 13 := by
    rw [toNat_sid]
    exact Nat.shiftLeft_lt (sidNumber_lt sidh sidl)
  have hlow : ((sidl &&& sidlEidMask).setWidth 32).toNat = sidl.toNat &&& 0x03 := by
    rw [toNat_setWidth_byte, BitVec.toNat_and]
    rfl
  have hhigh : ((sidh.setWidth 32 <<< 3 ||| sidl.setWidth 32 >>> 5) <<< 2 |||
      (sidl &&& sidlEidMask).setWidth 32).toNat = sidNumber sidh sidl <<< 2 ||| sidl.toNat &&& 0x03 := by
    rw [BitVec.toNat_or, toNat_shiftLeft_of_lt (Nat.lt_trans hsid (by decide)), toNat_sid, hlow]
  have heid8 : (eid8.setWidth 32).toNat <<< 8 < 2 ^ 32 := by
    rw [toNat_setWidth_byte]
    exact Nat.lt_trans (Nat.shiftLeft_lt eid8.isLt) (by decide)
  have hshift : (sidNumber sidh sidl <<< 2 ||| sidl.toNat &&& 0x03) <<< 16 < 2 ^ 32 :=
    Nat.lt_of_le_of_lt (Nat.le_trans Nat.left_le_or Nat.left_le_or)
      (Nat.lt_trans (eidNumber_lt sidh sidl eid8 eid0) (by decide))
  rw [BitVec.toNat_or, BitVec.toNat_or, toNat_shiftLeft_of_lt (hhigh ▸ hshift), hhigh, toNat_shiftLeft_of_lt heid8,
    toNat_setWidth_byte, toNat_setWidth_byte, eidNumber]

/-- What UnpackId returns, on every register map: the number of the kind that EXIDE tells (R151). -/
theorem unpackId_eq (c : Chip) : unpackId c sidh sidl eid8 eid0 =
    if sidl &&& c.exideMask = 0 then (.std, BitVec.ofNat 32 (sidNumber sidh sidl))
    else (.ext, BitVec.ofNat 32 (eidNumber sidh sidl eid8 eid0)) := by
  rw [← toNat_sid, ← toNat_eid, BitVec.ofNat_toNat, BitVec.ofNat_toNat, BitVec.setWidth_eq, BitVec.setWidth_eq]
  rfl

/-- The identifier that UnpackId returns fits the width of its kind (R151). -/
theorem unpackId_lt_idLimit (c : Chip) :
    (unpackId c sidh sidl eid8 eid0).2.toNat < (unpackId c sidh sidl eid8 eid0).1.idLimit := by
  rw [unpackId_eq]
  split
  · exact Nat.lt_of_le_of_lt (BitVec.toNat_ofNat _ _ ▸ Nat.mod_le ..) (sidNumber_lt sidh sidl)
  · exact Nat.lt_of_le_of_lt (BitVec.toNat_ofNat _ _ ▸ Nat.mod_le ..) (eidNumber_lt sidh sidl eid8 eid0)

/-- Settles O18: UnpackId returns one of the two numbers of its formula, by EXIDE. -/
theorem unpackIdFollowsItsFormula : Obligations.UnpackIdFollowsItsFormula := by
  intro sidh sidl eid8 eid0 sid
  refine ⟨fun h => ⟨?_, sidNumber_lt sidh sidl⟩, fun h => ⟨?_, eidNumber_lt sidh sidl eid8 eid0⟩⟩
  · rw [unpackId_eq]
    exact if_pos h
  · rw [unpackId_eq]
    exact if_neg h

end Sys2Proof.Machine
end

