-- ==== Sys2Proof/Proofs/DecodeResults.lean ====
section
/-!
SUPPORT. What a DECODE leaves with nobody else to act, in both modes and on a DLC out of range, and that a frame it returns
is well formed under every interleaving.
-/

namespace Sys2Proof.Machine

/-! ## The receive flag -/

/-- Merging zeros clears the bits of the mask. -/
theorem mergeBits_zero_value (mask old : Byte) : mergeBits mask old 0x00 = old &&& ~~~mask :=
  (congrArg _ BitVec.zero_and).trans BitVec.or_zero

/-- After its clearing every register but CANINTF reads as before, and CANINTF without the flag (R156). -/
theorem reg_clearRxFlag {m : Memory} (hm : m.wf = true) (n a : Nat) :
    reg (clearRxFlag .mcp2515 m n) a = if a = 0x2C then reg m a &&& ~~~(rxifMask .mcp2515 n) else reg m a := by
  have hwhole : writableMask .mcp2515 (configurationMode .mcp2515 m) (home .mcp2515 0x2C) = 0xFF :=
    writableMask_whole _ 0x2C (by decide) (by decide)
  split
  next ha =>
    subst ha
    have hread := read_peerStore_same (c := .mcp2515) hm (configurationMode .mcp2515 m) 0x2C (rxifMask .mcp2515 n) 0x00
    rw [hwhole, and_ones, mergeBits_zero_value] at hread
    exact hread
  next ha =>
    refine peerByte_peerStore_other _ _ _ ?_
    have hflag : home .mcp2515 Chip.mcp2515.regCanintf = 0x2C := home_canintf
    have hlow := home_eq_or_low a
    omega

/-- After a DECODE that succeeds every register reads as `decodedByte` says. -/
theorem reg_decodedPeer {m : Memory} (hm : m.wf = true) (ctrl : Byte) (n a : Nat) :
    reg (decodedPeer ctrl n m) a = decodedByte m ctrl n a := by
  cases hmode : intmode ctrl
  · simp only [decodedPeer, decodedByte, hmode, Bool.false_eq_true, false_and, if_false]
  · simp only [decodedPeer, decodedByte, hmode, true_and, if_true]
    exact reg_clearRxFlag hm n a

/-! ## A DECODE alone -/

/-- Settles O29: nobody disturbs the DECODE, so its payload is what stands in the buffer, and no free value is drawn. -/
theorem decodeReturnsTheDataFrame : Obligations.DecodeReturnsTheDataFrame := by
  intro s buf hchip ha hm hs hal hbuf hlen htype
  have h := decode_alone hchip ha hs hal hbuf hlen
  simp only [receivedPayload, receivedDraws, htype] at h
  exact ⟨_, h, rfl, fun a _ => reg_decodedPeer hm s.ctrl buf.toNat a⟩

/-- Settles O30: as for a data frame, with as many free values drawn for the payload as the length says. -/
theorem decodeReturnsTheRemoteFrame : Obligations.DecodeReturnsTheRemoteFrame := by
  intro s buf hchip ha hm hs hal hbuf hlen htype
  have h := decode_alone hchip ha hs hal hbuf hlen
  simp only [receivedPayload, receivedDraws, htype] at h
  exact ⟨_, _, length_drawBytes .., h, rfl, fun a _ => reg_decodedPeer hm s.ctrl buf.toNat a⟩

section
variable {op : Op} {cmd : List Byte} {p : Plan} {s : State} {xs : List Exchange} {records : List BusRecord} {m : Memory}

/-- A command that nobody disturbs, whose exchanges take effect and whose rule then raises an error, ends with its status;
what its exchanges did stays done (R215). -/
theorem runCommand_performs_raises {e : Error} (hs : Ready s) (hal : Alone s) (hc : structuralCheck cmd = none)
    (h : Performs s.params xs s.peer records m) (hlen : xs.length < maxActions)
    (hp : Follows p (s.accept op cmd).view xs records)
    (hlast : p { (s.accept op cmd).view with step := xs.length, got := bytesRead records } = .raise e) :
    runCommand op cmd p s = .next (answered [e.status] { s with peer := m, trace := s.trace ++ records }) := by
  obtain ⟨hag, hbus⟩ := hal
  obtain ⟨n, hn⟩ := Nat.exists_eq_add_of_lt hlen
  have hbusy : (s.accept op cmd).seq ≠ .idle := by rw [State.accept_seq]; nofun
  have hview : ((s.accept op cmd).performed m records).view =
      { (s.accept op cmd).view with step := xs.length, got := bytesRead records } := by
    rw [← h.length_eq]
    simp [State.view, State.performed, Seq.plus, Seq.step]
  have hrun : runAlone p (xs.length + (n + 1)) (s.accept op cmd) = .next _ :=
    (runAlone_performs (u := s.accept op cmd) h rfl rfl hbus hbusy hp).trans
      ((runAlone_succ (Seq.plus_ne_idle hbusy _) (act_raise (hview ▸ hlast))).trans (runAlone_idle rfl))
  rw [runCommand_ready hs hc, hag, drive_alone p (s := s.accept op cmd) hag, hn, Nat.add_assoc, hrun, ← hag, hbus]
  rfl

end

/-- A DECODE that has read a length out of range raises an error (R152). -/
theorem decodePlan_invalidFrame {buf : BitVec 2} {v : View} (hbuf : buf.toNat < 2) (hstep : v.step = 1)
    (hlen : 8 < decodedLen v.got) : decodePlan buf v = .raise .invalidFrame := by
  simp only [decodePlan, if_neg (Nat.not_le.mpr hbuf : ¬ nRxb ≤ buf.toNat), hstep]
  exact if_pos hlen

/-- Settles O31: the READ of identifier and DLC takes effect, and on its length the rule raises an error. -/
theorem decodeRefusesDlcAboveEight : Obligations.DecodeRefusesDlcAboveEight := by
  intro s buf hchip ha hs hal hbuf hlen
  rw [exec_decode]
  have hident : Performs s.params [readIdent .mcp2515 buf] s.peer _ s.peer :=
    performs_read hchip ha hbuf (off := 1) (by decide) (by decide)
  refine runCommand_performs_raises (e := .invalidFrame) hs hal (structuralCheck_encode (i := .decode buf) rfl rfl)
    hident (by decide : 1 < 5) (fun j hj => ?_) (decodePlan_invalidFrame hbuf rfl hlen)
  obtain rfl : j = 0 := Nat.lt_one_iff.mp hj
  have hfirst := decodePlan_first (v := (s.accept .decode (encode (.decode buf))).view) hbuf rfl
  rw [State.view_params, State.accept_params, hchip] at hfirst
  exact hfirst

/-! ## Every frame returned is well formed -/

/-- A response, if it is one of success, carries the descriptor of a well-formed frame (R159). -/
def CarriesFrame (bytes : Option (List Byte)) : Prop :=
  ∀ d, bytes = some (0x00 :: d) → ∃ f, frameOf d = some f ∧ f.wellFormed = true

section
variable {buf : BitVec 2} {v : View}

/-- With all its bytes read, the payload of a DECODE is as long as the DLC says (R154, R155). -/
theorem length_decodedPayload (c : Chip) {got : List Byte} (hgot : got.length = 6 + decodedLen got) (draws : Nat) :
    (decodedPayload c got draws).length = decodedLen got := by
  unfold decodedPayload
  split
  · rw [List.length_drop, hgot, Nat.add_sub_cancel_left]
  · exact length_drawBytes _ _

/-- The frame of a DECODE that has read a length in range is well formed, whatever the bytes are (R10, R151, R152). -/
theorem decodeResponse_carriesFrame (hgot : v.got.length = 6 + decodedLen v.got) (hlen : decodedLen v.got ≤ 8) :
    CarriesFrame (some (answerOf (decodeResponse v))) := by
  have hpayload := length_decodedPayload v.params.chip hgot v.draws
  intro d hd
  obtain rfl : descriptor _ _ _ _ = d := (List.cons.inj (Option.some.inj hd)).2
  refine ⟨_, frameOf_descriptor _ _ _ (by omega), ?_⟩
  rw [Frame.wellFormed, Bool.and_eq_true, decide_eq_true_eq, decide_eq_true_eq]
  exact ⟨hpayload.trans_le hlen, unpackId_lt_idLimit _ _ _ _ _⟩

/-- A DECODE that has read what its exchanges return ends with an error or a well-formed frame. -/
theorem decodeEnding_carriesFrame {q : Params} {ctrl : Byte}
    (hgot : v.got.length = bytesReturned (decodeExchanges buf q ctrl v.got)) :
    CarriesFrame (some (answerOf (decodeEnding buf v))) := by
  unfold decodeExchanges at hgot
  unfold decodeEnding
  split
  next => exact nofun
  next hbuf =>
    rw [if_neg hbuf] at hgot
    split
    next => exact nofun
    next hlen =>
      rw [if_neg hlen, bytesReturned_receiveExchanges] at hgot
      exact decodeResponse_carriesFrame hgot (Nat.not_lt.mp hlen)

end

section
variable {s u t : State} {buf : BitVec 2}

/-- The DECODE that started in `s` keeps to its script while it is in progress, and a response that stands carries a
well-formed frame if it is one of success. -/
structure ReturnsFrames (s : State) (buf : BitVec 2) (u : State) : Prop where
  running : u.seq ≠ .idle → ∃ k, RunningAt s (decodeExchanges buf s.params s.ctrl) k u
  response : u.resp.valid = true → CarriesFrame u.resp.bytes

theorem ReturnsFrames.setAgenda (h : ReturnsFrames s buf u) (ts : List Turn) :
    ReturnsFrames s buf { u with agenda := ts } where
  running hbusy :=
    let ⟨k, hrun⟩ := h.running hbusy
    ⟨k, hrun.params, hrun.ctrl, hrun.seq, hrun.le, hrun.mosi, hrun.got⟩
  response := h.response

/-- An action that does not end its command brings no response. -/
theorem act_resp {p : Plan} (h : act p u = .next t) (hbusy : t.seq ≠ .idle) : t.resp = u.resp := by
  obtain ⟨x, -, hx⟩ | ⟨e, -, rfl⟩ | ⟨bytes, drawn, -, rfl⟩ | ⟨v, -, rfl⟩ := act_next h
  · obtain ⟨-, rfl⟩ | ⟨-, r, -, rfl⟩ := blockExchange_next hx <;> rfl
  · exact absurd rfl hbusy
  · exact absurd rfl hbusy
  · exact absurd rfl hbusy

theorem ReturnsFrames.act (h : ReturnsFrames s buf u) (hbusy : u.seq ≠ .idle) (ha : act (decodePlan buf) u = .next t) :
    ReturnsFrames s buf t := by
  obtain ⟨k, hrun⟩ := h.running hbusy
  rw [decodePlan_eq_script] at ha
  obtain ⟨j, hrun'⟩ | ⟨v, hend⟩ := hrun.act (decodeExchanges_readsKeep buf _ _) (decodeEnding_ne_issue buf) ha
  · refine ⟨fun _ => ⟨j, hrun'⟩, ?_⟩
    rw [act_resp ha hrun'.not_idle]
    exact h.response
  · refine ⟨fun hbusy' => absurd hend.seq hbusy', fun _ => ?_⟩
    rw [hend.answer]
    exact decodeEnding_carriesFrame hend.got

theorem ReturnsFrames.turn (h : ReturnsFrames s buf u) (hbusy : u.seq ≠ .idle) {w : Turn}
    (ht : turn (decodePlan buf) w u = .next t) : ReturnsFrames s buf t := by
  by_cases hblock : w = .block
  · subst hblock
    exact h.act hbusy ht
  rw [turn_eq_envTurn hblock] at ht
  by_cases hreset : w = .reset
  · subst hreset
    cases ht
    exact ⟨fun hbusy' => absurd rfl hbusy', nofun⟩
  · have hsame := envTurn_sameCommand hreset ht
    refine ⟨fun hbusy' => ?_, fun hvalid => ?_⟩
    · obtain ⟨k, hrun⟩ := h.running hbusy
      obtain ⟨j, hrun'⟩ | ⟨v, hend⟩ := OnScript.same (ending := decodeEnding buf) (.inl ⟨k, hrun⟩) hsame
      · exact ⟨j, hrun'⟩
      · exact absurd hend.seq hbusy'
    · obtain hresp | hresp := envTurn_resp ht
      · rw [hresp] at hvalid ⊢
        exact h.response hvalid
      · rw [hresp] at hvalid
        cases hvalid

end

/-- Settles O33: under every interleaving the DECODE keeps to its script until it ends or is reset, so what it returns has
the length it has read, and UnpackId keeps to its bounds. -/
theorem decodedFrameIsWellFormed : Obligations.DecodedFrameIsWellFormed := by
  intro s t buf d hs h hresp
  rw [exec_decode, runCommand_ready hs (structuralCheck_encode (i := .decode buf) rfl rfl)] at h
  have hstart : ReturnsFrames s buf (s.accept .decode (encode (.decode buf))) :=
    ⟨fun _ => ⟨0, rfl, rfl, ⟨_, rfl⟩, Nat.zero_le _, (List.append_nil _).symm, rfl⟩,
      fun hvalid => absurd hvalid (by rw [State.accept_resp, hs.2]; decide)⟩
  have hend : ReturnsFrames s buf t := drive_keeps (fun _ ts hu => hu.setAgenda ts)
    (fun _ _ _ hu hbusy ht => hu.turn hbusy ht) _ _ _ hstart h
  exact hend.response (by rw [hresp]) d (by rw [hresp])

end Sys2Proof.Machine
end

