-- ==== Sys2Proof/Proofs/BitTiming.lean ====
section
/-!
SUPPORT. Commands that answer with their first action and issue no exchange: what their run leaves, alone and among other
agents' turns; that TIMING is one, and the statements about it.
-/

namespace Sys2Proof.Machine

/-! ## Commands that answer with their first action -/

section
variable {s t : State} {q : Params} {p : Plan} {bytes : List Byte}

/-- Under the parameters `q`, the first action of the rule answers with `bytes`, whatever else the state
holds. -/
def AnswersAtOnce (q : Params) (p : Plan) (bytes : List Byte) : Prop :=
  ∀ u : State, u.params = q → act p u = .next (answered bytes u)

theorem runAlone_answersAtOnce (hp : AnswersAtOnce s.params p bytes) (hbusy : s.seq ≠ .idle) (n : Nat) :
    runAlone p (n + 1) s = .next (answered bytes s) := by
  rw [runAlone_succ hbusy (hp s rfl), runAlone_idle rfl]

/-- The turns that are left when a command has ended stay for later. -/
theorem drive_idle (hidle : s.seq = .idle) (ts : List Turn) : drive p ts s = .next { s with agenda := ts } := by
  cases ts with
  | nil => exact runAlone_idle hidle
  | cons u ts => exact if_pos hidle

/-- Whatever the other agents do before the block's turn, short of a block reset, they leave the response as it is. -/
theorem drive_answersAtOnce_resp (hp : AnswersAtOnce q p bytes) {ts : List Turn} (hts : .reset ∉ ts)
    (hq : s.params = q) (hbusy : s.seq ≠ .idle) (h : drive p ts s = .next t) :
    t.resp = { valid := true, bytes := some bytes } := by
  subst hq
  induction ts generalizing s with
  | nil =>
    have hrun := runAlone_answersAtOnce (s := { s with agenda := [] }) hp hbusy 4
    cases hrun.symm.trans h
    rfl
  | cons u ts ih =>
    obtain ⟨hu, hts⟩ := not_or.mp (mt List.mem_cons.mpr hts)
    rw [drive, if_neg hbusy] at h
    by_cases hblock : u = .block
    · subst hblock
      rw [turn, hp s rfl] at h
      cases (drive_idle rfl ts).symm.trans h
      rfl
    · rw [turn_eq_envTurn hblock] at h
      split at h
      next s' hs' =>
        have hsame := envTurn_sameCommand (Ne.symm hu) hs'
        exact ih hts (hsame.seq ▸ hbusy) h (hsame.params ▸ hp)
      next => cases h
      next => cases h

end

/-! ## TIMING -/

/-- The response to TIMING: 00 and the bytes of the table's entry, or 11 alone (R170, R173). -/
def timingResponse (q : Params) (osc : Byte) (rate : BitVec 16) : List Byte :=
  match timingTable q osc rate with
  | some e => [0x00, e.cnf1, e.cnf2, e.cnf3]
  | none => [0x11]

section
variable {s t : State} {q : Params} {osc : Byte} {rate : BitVec 16}

theorem timingResponse_of_some {e : TimingTriple} (h : timingTable q osc rate = some e) :
    timingResponse q osc rate = [0x00, e.cnf1, e.cnf2, e.cnf3] := by
  simp only [timingResponse, h]

theorem timingResponse_of_none (h : timingTable q osc rate = none) : timingResponse q osc rate = [0x11] := by
  simp only [timingResponse, h]

/-- TIMING looks up the table of the parameters and answers, with no exchange (R170). -/
theorem timingPlan_answersAtOnce (q : Params) (osc : Byte) (rate : BitVec 16) :
    AnswersAtOnce q (timingPlan osc rate) (timingResponse q osc rate) := by
  intro u hq
  subst hq
  cases htable : timingTable u.params osc rate with
  | none =>
    have hplan : timingPlan osc rate u.view = .raise .unsupportedBitrate := by
      simp only [timingPlan, State.view_params, htable]
    rw [act_raise hplan, timingResponse_of_none htable]
    rfl
  | some e =>
    have hplan : timingPlan osc rate u.view = .respond [e.cnf1, e.cnf2, e.cnf3] 0 := by
      simp only [timingPlan, State.view_params, htable]
    rw [act_respond hplan, timingResponse_of_some htable]
    rfl

/-- A ready block accepts every TIMING: its check finds no fault (R87). -/
theorem exec_timing_ready (hs : Ready s) : exec (.timing osc rate) s =
    drive (timingPlan osc rate) s.agenda (s.accept .timing (encode (.timing osc rate))) :=
  runCommand_ready hs (structuralCheck_encode (i := .timing osc rate) rfl rfl)

theorem exec_timing_alone (hs : Ready s) (hag : s.agenda = []) :
    exec (.timing osc rate) s = .next (answered (timingResponse s.params osc rate) s) := by
  rw [exec_timing_ready hs, hag, drive_alone _ (s := s.accept _ _) hag, maxActions,
    runAlone_answersAtOnce (timingPlan_answersAtOnce _ osc rate) (by rw [State.accept_seq]; nofun)]
  rfl

/-- The response of TIMING under every interleaving without a block reset. -/
theorem exec_timing_resp (hs : Ready s) (hag : .reset ∉ s.agenda) (h : exec (.timing osc rate) s = .next t) :
    t.resp = { valid := true, bytes := some (timingResponse s.params osc rate) } := by
  rw [exec_timing_ready hs] at h
  exact drive_answersAtOnce_resp (timingPlan_answersAtOnce s.params osc rate) hag (State.accept_params ..)
    (by rw [State.accept_seq]; nofun) h

end

/-- Settles O36: alone, TIMING answers with the bytes of the table's entry, or with the status of its absence. -/
theorem timingLooksUpTheTable : Obligations.TimingLooksUpTheTable := by
  intro s osc rate hs hag
  refine ⟨fun e he => ?_, fun hnone => ?_⟩
  · rw [exec_timing_alone hs hag, timingResponse_of_some he]
  · rw [exec_timing_alone hs hag, timingResponse_of_none hnone]

/-- Settles O38: the response of TIMING is a function of the parameters and its operands, which both states share. -/
theorem timingIsAPureFunction : Obligations.TimingIsAPureFunction := by
  intro s s' osc rate hq hs hs'
  refine ⟨fun hag hag' => ⟨timingResponse s.params osc rate, exec_timing_alone hs hag, ?_⟩, fun hag hag' t t' h h' => ?_⟩
  · rw [hq]
    exact exec_timing_alone hs' hag'
  · have hresp := exec_timing_resp hs hag h
    have hresp' := exec_timing_resp hs' hag' h'
    rw [hresp, hresp', hq]
    exact ⟨rfl, rfl⟩

end Sys2Proof.Machine
end

