-- ==== Sys2Proof/Proofs/Control.lean ====
section
/-!
SUPPORT. WRCTRL, and the commands of reserved opcode: what the structural check says of them, and how the block answers.
-/

namespace Sys2Proof

/-- An operation without a meaning is refused whatever follows the header (R87, R182). -/
theorem structuralCheck_reservedOpcode {h : Byte} (ops : List Byte) (hopc : h.toNat / 16 = 0 ∨ 7 ≤ h.toNat / 16) :
    structuralCheck (h :: ops) = some .reservedOpcode := by
  obtain ⟨hreserved, -⟩ := structuralCheckFollowsItsOrder h ops
  refine hreserved.mpr fun ⟨h1, h6⟩ => ?_
  omega

/-- Bits 7:1 of the value of WRCTRL are reserved (R87, R181). -/
theorem structuralCheck_wrctrl_reservedBit {v : Byte} (hv : 2 ≤ v.toNat) :
    structuralCheck (encode (.wrctrl v)) = some .reservedBit := by
  have hhigh : v.toNat / 2 ≠ 0 := by omega
  obtain ⟨-, -, hreserved, -⟩ := structuralCheckFollowsItsOrder (headerByte 6 0) [v]
  exact hreserved.mpr ⟨by decide, .inr (.inr (.inr ⟨by decide, rfl⟩)), .inr (.inr (.inr ⟨by decide, hhigh⟩))⟩

end Sys2Proof

namespace Sys2Proof.Machine

/-! ## Commands that the check refuses at the port -/

/-- Settles O11: the check refuses the opcode before it looks at anything else. -/
theorem reservedOpcodeRaises15 : Obligations.ReservedOpcodeRaises15 := by
  intro s h ops rest hs hag hp hopc
  exact illegalCommandEndsWithItsStatus s _ rest .reservedOpcode hs hag hp (List.cons_ne_nil h ops)
    (structuralCheck_reservedOpcode ops hopc)

/-- Settles O12: a value with a reserved bit, a header with one, and a command without its value. -/
theorem refusedWrctrlLeavesCtrl : Obligations.RefusedWrctrlLeavesCtrl := by
  intro s rest hs hag
  have hrefused := fun bytes r => illegalCommandEndsWithItsStatus s bytes rest r hs hag
  exact ⟨fun hp => hrefused _ .reservedBit hp nofun (structuralCheck_wrctrl_reservedBit (v := 0x02) (by decide)),
    fun hp => hrefused _ .reservedBit hp nofun (structuralCheck_wrctrl_reservedBit (v := 0x80) (by decide)),
    fun hp => hrefused _ .reservedBit hp nofun (by decide),
    fun hp => hrefused _ .wrongLength hp nofun (by decide)⟩

/-! ## WRCTRL -/

section
variable {s : State} {v : Byte}

theorem exec_wrctrl : exec (.wrctrl v) s = runCommand .wrctrl (encode (.wrctrl v)) (wrctrlPlan v) s := rfl

/-- A ready block answers a command that the structural check refuses with its status (R87, R215). -/
theorem runCommand_refused {op : Op} {bytes : List Byte} {p : Plan} {r : Illegal} (hs : Ready s)
    (hc : structuralCheck bytes = some r) :
    runCommand op bytes p s = .next (answered [(Error.illegal r).status] s) := by
  simp only [runCommand, hs.1, hs.2, hc, Bool.false_eq_true, if_false]
  rfl

/-- With nobody else to act, a command that its first action ends is done with that action. -/
theorem runCommand_endsAtOnce {op : Op} {bytes : List Byte} {p : Plan} {t : State} (hs : Ready s) (hag : s.agenda = [])
    (hc : structuralCheck bytes = none) (ha : act p (s.accept op bytes) = .next t) (ht : t.seq = .idle) :
    runCommand op bytes p s = .next t := by
  rw [runCommand_ready hs hc, hag, drive_alone p (s := s.accept op bytes) hag, maxActions,
    runAlone_succ (by rw [State.accept_seq]; nofun) ha, runAlone_idle ht]

theorem act_wrctrlPlan : act (wrctrlPlan v) s = .next (answered [0x00] { s with ctrl := ctrlWritten v }) := rfl

/-- The hardwired bits of CTRL take nothing from a value that the check lets through (R22). -/
theorem ctrlWritten_of_lt (hv : v.toNat < 2) : ctrlWritten v = v := by
  revert v
  decide

end

/-- Settles O39: a value below 2 passes the check and is written by WRCTRL's one action; any other is refused. -/
theorem wrctrlWritesCtrl : Obligations.WrctrlWritesCtrl := by
  intro s v hs hag
  refine ⟨fun hv => ?_, fun hv => ?_⟩
  · have hc : structuralCheck (encode (.wrctrl v)) = none := structuralCheck_encode (decide_eq_true hv) rfl
    rw [exec_wrctrl, runCommand_endsAtOnce hs hag hc act_wrctrlPlan rfl, ctrlWritten_of_lt hv]
    rfl
  · exact runCommand_refused hs (structuralCheck_wrctrl_reservedBit hv)

end Sys2Proof.Machine
end

