-- ==== Sys2Proof/Proofs/RegisterPort.lean ====
section
/-!
SUPPORT. The register port: how an exchange of another master on an awake MCP2515 ends, what each exchange leaves at every
register and returns, and the statements on the nine exchanges.
-/

namespace Sys2Proof.Machine

/-! ## An exchange of another master -/

section
variable {s : State} {x : Exchange} (hb : s.bus ≠ .held .block) (ha : Awake s)
include hb ha

/-- On an awake chip the exchange of another master has its ordinary effect, one record on the bus, and BUS is released. -/
theorem masterExchange_completes (hchip : Mcp2515 s) {m : Memory} {miso : List (Option Byte)} {d : Nat}
    (h : activeEffect s.params x s.peer s.draws = .next { peer := m, miso := miso, draws := d }) :
    masterExchange x s = .next
      { s with
        peer := m
        draws := d
        bus := .free
        trace := s.trace ++ [{ who := .other, mosi := encodeExchange .mcp2515 x, miso := miso }] } := by
  unfold masterExchange
  split
  next hheld => exact absurd hheld hb
  next => rw [exchangeEffect_awake ha, h, ← (hchip : s.params.chip = .mcp2515)]; rfl

theorem masterExchange_faults {f : Fault} (h : activeEffect s.params x s.peer s.draws = .fault f) :
    masterExchange x s = .fault f := by
  unfold masterExchange
  split
  next hheld => exact absurd hheld hb
  next => rw [exchangeEffect_awake ha, h]

theorem masterExchange_refuses {r : Refusal} (h : activeEffect s.params x s.peer s.draws = .refused r) :
    masterExchange x s = .refused r := by
  unfold masterExchange
  split
  next hheld => exact absurd hheld hb
  next => rw [exchangeEffect_awake ha, h]

end

theorem size_mcp2515 {q : Params} (hq : q.chip = .mcp2515) : q.chip.size = 128 := by rw [hq]; rfl

/-! ## READ -/

/-- A burst read returns the registers of ascending addresses (R53). -/
theorem readBurst_eq_map (c : Chip) (m : Memory) (a n : Nat) :
    readBurst c m a n = (List.range n).map fun k => peerByte c m (a + k) := by
  refine List.ext_getElem (by rw [length_readBurst, List.length_map, List.length_range]) fun i hi _ => ?_
  rw [getElem_readBurst, List.getElem_map, List.getElem_range]

/-- Settles O40: a READ leaves the peer, its bytes are the burst from its address; the ends of the address space and of
the burst are the two tests of its effect. -/
theorem readReturnsRegistersInOrder : Obligations.ReadReturnsRegistersInOrder := by
  intro s a n hchip ha hb
  have hsize := size_mcp2515 hchip
  refine ⟨fun h1 hn => ?_, fun h1 hn => masterExchange_faults hb ha ?_, fun h0 => masterExchange_refuses hb ha ?_⟩
  · have h := masterExchange_completes (x := .read a n) hb ha hchip (activeEffect_read h1 (by omega))
    have hrecord : readRecord .other a.toNat (readBurst .mcp2515 s.peer a.toNat n) =
        { who := .other
          mosi := encodeExchange .mcp2515 (.read a n)
          miso := noValue 2 ++ (readBurst .mcp2515 s.peer a.toNat n).map some } := by
      rw [readRecord, length_readBurst, BitVec.ofNat_toNat, BitVec.setWidth_eq]
      rfl
    rw [← readBurst_eq_map, hrecord]
    exact hchip ▸ h
  · rw [activeEffect, if_neg (by omega), if_pos (by omega)]
  · rw [activeEffect, if_pos h0]

/-! ## WRITE and LOAD_TXB -/

section
variable {m : Memory} {a : Nat} {ds : List Byte}

/-- The last byte of a WRITE for a register is merged under its writable bits (R191). -/
theorem read_writeRegisters_last (hm : m.wf = true) : ∀ k, k < ds.length →
    (∀ j, k < j → j < ds.length → homeOf (a + j) ≠ homeOf (a + k)) →
    (writeRegisters .mcp2515 m a ds).read (homeOf (a + k)) =
      mergeBits (writableMask .mcp2515 (configurationMode .mcp2515 m) (homeOf (a + k)))
        (m.read (homeOf (a + k))) (ds.getD k 0) := by
  intro k hk hlast
  rw [List.getD_eq_getElem _ _ hk]
  exact read_writeBurst_at hm _ hk hlast

/-- A register that a WRITE does not reach reads as before. -/
theorem reg_writeRegisters_unreached : ∀ b, b < 128 → (∀ k, k < ds.length → homeOf b ≠ homeOf (a + k)) →
    reg (writeRegisters .mcp2515 m a ds) b = reg m b :=
  fun _ _ h => peerByte_congr (read_writeBurst_other _ h)

end

/-- Settles O41: the effect of a WRITE is one burst, and every test of its stops is on its length. -/
theorem writeStoresBytesInOrder : Obligations.WriteStoresBytesInOrder := by
  intro s a data hchip ha hm hb
  have hsize := size_mcp2515 hchip
  refine ⟨fun h1 hn => ?_, fun h1 hn => masterExchange_faults hb ha ?_, fun h0 => masterExchange_refuses hb ha ?_⟩
  · have h := masterExchange_completes (x := .write a data) hb ha hchip (activeEffect_write h1 (by omega))
    rw [hchip] at h
    exact ⟨_, h, rfl, read_writeRegisters_last hm, reg_writeRegisters_unreached⟩
  · rw [activeEffect, if_neg (by omega), if_pos (by omega)]
  · rw [activeEffect, if_pos (by rw [h0]; rfl)]

section
variable {abc : BitVec 3}

theorem loadTxbStart_mcp2515 : abc.toNat < 6 →
    loadTxbStart .mcp2515 abc = [0x31, 0x36, 0x41, 0x46, 0x51, 0x56].getD abc.toNat 0 := by
  revert abc
  decide

theorem loadTxbByte_mcp2515 : loadTxbByte .mcp2515 abc = BitVec.ofNat 8 (0x40 + abc.toNat) := by
  revert abc
  decide

end

/-- Settles O49: where abc names a start, LOAD_TXB is the WRITE burst from there. -/
theorem loadTxbWritesTheBuffer : Obligations.LoadTxbWritesTheBuffer := by
  intro s abc data hchip ha hm hb start
  have hsize := size_mcp2515 hchip
  have hstart : abc.toNat < 6 → loadTxbStart s.params.chip abc = start := fun h => by
    rw [hchip, loadTxbStart_mcp2515 h]
  refine ⟨fun habc hn => ?_, fun habc hn => masterExchange_faults hb ha ?_, fun habc => masterExchange_refuses hb ha ?_⟩
  · have heffect : activeEffect s.params (.loadTxb abc data) s.peer s.draws = .next
        { peer := writeRegisters .mcp2515 s.peer start data, miso := noValue (1 + data.length), draws := s.draws } := by
      rw [activeEffect, if_neg (by omega), hstart habc, if_neg (by omega), hchip]
    have h := masterExchange_completes hb ha hchip heffect
    rw [encodeExchange, loadTxbByte_mcp2515] at h
    exact ⟨_, h, rfl, read_writeRegisters_last hm, reg_writeRegisters_unreached⟩
  · rw [activeEffect, if_neg (by omega), hstart habc, if_pos (by omega)]
  · rw [activeEffect, if_pos habc]

/-! ## BIT_MODIFY -/

/-- A BIT_MODIFY acts with its mask or as a full write (R192, log 7). -/
theorem effectiveMask_eq_or (c : Chip) (h : Nat) (mask : Byte) :
    effectiveMask c h mask = mask ∨ effectiveMask c h mask = 0xFF := by
  unfold effectiveMask
  split
  · exact .inl rfl
  · split
    next hzero => exact .inl hzero.1.symm
    · exact .inr rfl

/-- The registers on which R192 has a BIT_MODIFY honour its mask: CANINTF and TXBnCTRL. -/
abbrev MaskedRegister (a : Nat) : Prop := a = 0x2C ∨ a = 0x30 ∨ a = 0x40 ∨ a = 0x50

/-- The implemented bits of those registers (R29). -/
abbrev maskedRegisterBits (a : Nat) : Byte := if a = 0x2C then 0xFF else 0x7B

section
variable {a : Nat} (h : MaskedRegister a)
include h

/-- On these registers the mask sent is the mask in effect (R192). -/
theorem effectiveMask_of_masked (mask : Byte) : effectiveMask .mcp2515 (homeOf a) mask = mask := by
  obtain rfl | rfl | rfl | rfl := h <;> rfl

theorem writableMask_of_masked (config : Bool) : writableMask .mcp2515 config (homeOf a) = maskedRegisterBits a := by
  obtain rfl | rfl | rfl | rfl := h <;> rfl

theorem reg_of_masked (m : Memory) : reg m a = m.read (homeOf a) &&& maskedRegisterBits a := by
  obtain rfl | rfl | rfl | rfl := h
  · exact (and_ones _).symm
  all_goals rfl

/-- No mirror reaches them (R31). -/
theorem homeOf_ne_of_masked {b : Nat} (hne : b ≠ a) : homeOf b ≠ homeOf a := by
  have hhome : homeOf a = a := by obtain rfl | rfl | rfl | rfl := h <;> rfl
  have hlow : homeOf b = b ∨ homeOf b < 0x10 := home_eq_or_low b
  rw [hhome]
  omega

end

/-- Of the implemented bits a merge under a mask takes the masked ones from the new byte. -/
theorem mergeBits_and_implemented (mask k old new : Byte) :
    mergeBits (mask &&& k) old new &&& k = ((old &&& k) &&& ~~~mask) ||| (new &&& mask &&& k) := by
  apply BitVec.eq_of_getLsbD_eq
  intro i hi
  simp only [getLsbD_mergeBits, BitVec.getLsbD_and, BitVec.getLsbD_or, BitVec.getLsbD_not, hi]
  cases mask.getLsbD i <;> cases k.getLsbD i <;> simp

/-- Settles O43: on these registers the mask is honoured, and no other address is kept at their place. -/
theorem bitModifyMergesUnderItsMask : Obligations.BitModifyMergesUnderItsMask := by
  intro s a mask v hchip ha hm hb haddr
  have hsize := size_mcp2515 hchip
  have h := masterExchange_completes (x := .bitModify a mask v) hb ha hchip (activeEffect_bitModify (by omega))
  rw [hchip] at h
  refine ⟨_, h, rfl, ?_, fun b _ hne => peerByte_peerStore_other _ _ _ (homeOf_ne_of_masked haddr hne)⟩
  rw [reg_of_masked haddr, reg_of_masked haddr, bitModifyPeer, effectiveMask_of_masked haddr,
    read_peerStore_same hm, writableMask_of_masked haddr, mergeBits_and_implemented]

/-- Settles O44: one register is stored under the mask in effect, which is the one sent or 0xFF. -/
theorem bitModifyOfAnyRegister : Obligations.BitModifyOfAnyRegister := by
  intro s a mask v hchip ha hm hb
  have hsize := size_mcp2515 hchip
  refine ⟨fun hn => ?_, fun hn => masterExchange_faults hb ha ?_⟩
  · have h := masterExchange_completes (x := .bitModify a mask v) hb ha hchip (activeEffect_bitModify (by omega))
    rw [hchip] at h
    exact ⟨_, _, effectiveMask_eq_or .mcp2515 (homeOf a.toNat) mask, h, rfl, read_peerStore_same hm _ _ _ _,
      fun _ _ hne => peerByte_peerStore_other _ _ _ hne⟩
  · rw [activeEffect, if_pos (by omega)]

/-! ## RESET -/

theorem opmod_configuration : ∀ canstat : Byte, canstat &&& 0xE0 = 0x80 ↔ canstat.extractLsb' 5 3 = 0b100 := by
  decide

/-- The mode is Configuration mode just when OPMOD of CANSTAT is 100 (R31). -/
theorem configurationMode_iff (m : Memory) :
    configurationMode .mcp2515 m = true ↔ (m.read 0x0E).extractLsb' 5 3 = 0b100 :=
  decide_eq_true_iff.trans (opmod_configuration _)

/-- Settles O45: every register is among those that RESET writes, CANSTAT with its mode too. -/
theorem resetExchangeResetsThePeer : Obligations.ResetExchangeResetsThePeer := by
  intro s hchip ha hb
  have hreset : ∀ a, a < 128 → (peerReset s.params).read (homeOf a) = Memory.read s.params.chipReset (homeOf a) := by
    intro a h
    have hread := read_peerReset (q := s.params) (a := a) (by rw [size_mcp2515 hchip]; exact h)
    rwa [hchip] at hread
  have hcanstat : (peerReset s.params).read 0x0E = Memory.read s.params.chipReset 0x0E := hreset 0x0E (by decide)
  refine ⟨_, masterExchange_completes (x := .reset) hb ha hchip rfl, rfl, hreset, ?_⟩
  rw [configurationMode_iff, hcanstat]

/-! ## READ_RXB -/

section
variable (n sel : BitVec 1)

theorem readRxbStart_mcp2515 :
    readRxbStart .mcp2515 n sel = (if n = 0 then 0x61 else 0x71) + (if sel = 0 then 0 else 5) := by
  revert n sel
  decide

theorem readRxbByte_mcp2515 :
    readRxbByte .mcp2515 n sel = BitVec.ofNat 8 (0x90 + 4 * n.toNat + 2 * sel.toNat) := by
  revert n sel
  decide

theorem rxifMask_mcp2515 : rxifMask .mcp2515 n.toNat = if n = 0 then 0x01 else 0x02 := by
  revert n
  decide

end

/-- Settles O48: READ_RXB returns the burst from its start, and clearing the flag changes CANINTF alone. -/
theorem readRxbReadsAndClearsTheFlag : Obligations.ReadRxbReadsAndClearsTheFlag := by
  intro s n sel k hchip ha hm hb start
  have hsize := size_mcp2515 hchip
  have hstart : readRxbStart s.params.chip n sel = start := by rw [hchip, readRxbStart_mcp2515]
  refine ⟨fun hn => ?_, fun hn => masterExchange_faults hb ha ?_⟩
  · have heffect : activeEffect s.params (.readRxb n sel k) s.peer s.draws = .next
        { peer := clearRxFlag .mcp2515 s.peer n.toNat
          miso := none :: (List.range k).map fun j => some (reg s.peer (start + j))
          draws := s.draws } := by
      rw [activeEffect, hstart, if_neg (by omega), hchip, readBurst_eq_map, List.map_map]
      rfl
    have h := masterExchange_completes hb ha hchip heffect
    rw [encodeExchange, readRxbByte_mcp2515] at h
    refine ⟨_, h, rfl, ?_, fun b _ hne => ?_⟩
    · rw [← rxifMask_mcp2515, reg_clearRxFlag hm, if_pos rfl]
    · rw [reg_clearRxFlag hm, if_neg hne]
  · rw [activeEffect, hstart, if_pos (by omega)]

/-! ## RTS -/

section
variable {m : Memory} {n : Nat}

/-- One bit of an RTS: a buffer selected has its transmission requested, one not selected nothing (R198). -/
theorem reg_requestTransmit_if (hm : m.wf = true) (hn : n < 3) (selected : Bool) (a : Nat) :
    reg (if selected then requestTransmit .mcp2515 m n else m) a =
      if selected ∧ a = txBase n then reg m a ||| 0x08 else reg m a := by
  cases selected
  · simp
  · simpa [triggeredByte] using reg_requestTransmit hm hn a

theorem requestTransmit_if_wf (hm : m.wf = true) (selected : Bool) :
    (if selected then requestTransmit .mcp2515 m n else m).wf = true := by
  cases selected
  · exact hm
  · exact requestTransmit_wf hm n

/-- What each register reads after an RTS: TXREQ of every selected buffer is set (R198). -/
theorem reg_requestSelected (hm : m.wf = true) (sel : BitVec 3) (a : Nat) :
    reg (requestSelected .mcp2515 m sel) a =
      if sel.getLsbD 0 ∧ a = 0x30 ∨ sel.getLsbD 1 ∧ a = 0x40 ∨ sel.getLsbD 2 ∧ a = 0x50 then reg m a ||| 0x08
      else reg m a := by
  have hm0 := requestTransmit_if_wf (n := 0) hm (sel.getLsbD 0)
  have hm1 := requestTransmit_if_wf (n := 1) hm0 (sel.getLsbD 1)
  refine (reg_requestTransmit_if hm1 (by decide : 2 < 3) _ a).trans ?_
  rw [reg_requestTransmit_if hm0 (by decide), reg_requestTransmit_if hm (by decide)]
  simp only [txBase]
  by_cases h2 : a = 0x50
  · subst h2; simp
  · by_cases h1 : a = 0x40
    · subst h1; simp
    · simp [h1, h2]

end

theorem rtsByte_mcp2515 (sel : BitVec 3) : rtsByte .mcp2515 sel = BitVec.ofNat 8 (0x80 + sel.toNat) := by
  revert sel
  decide

/-- Settles O50: every register but the three TXBnCTRL reads as before, and 80 selects none. -/
theorem rtsSetsSelectedRequests : Obligations.RtsSetsSelectedRequests := by
  intro s sel hchip ha hm hb
  have heffect : activeEffect s.params (.rts sel) s.peer s.draws = .next
      { peer := requestSelected .mcp2515 s.peer sel, miso := noValue 1, draws := s.draws } := by
    rw [activeEffect, hchip]
  have h := masterExchange_completes hb ha hchip heffect
  rw [encodeExchange, rtsByte_mcp2515] at h
  refine ⟨_, h, rfl, fun n hn => ?_, fun b _ h0 h1 h2 => ?_, ?_⟩
  · rw [reg_requestSelected hm]
    obtain rfl | rfl | rfl : n = 0 ∨ n = 1 ∨ n = 2 := by omega
    all_goals simp [txBase]
  · rw [reg_requestSelected hm, if_neg (by simp [h0, h1, h2])]
  · rintro rfl
    rfl

/-! ## READ_STATUS and RX_STATUS -/

theorem getLsbD_bitAt {k i : Nat} (b : Bool) (hk : k < 8) (hi : i < 8) :
    (bitAt b k).getLsbD i = (b && decide (i = k)) := by
  have hbit : ∀ b : Bool, ∀ k < 8, ∀ i < 8, (bitAt b k).getLsbD i = (b && decide (i = k)) := by decide
  exact hbit b k hk i hi

/-- A mask of one bit tests that bit. -/
theorem decide_and_twoPow_ne_zero (x : Byte) {k : Nat} (hk : k < 8) :
    decide (x &&& BitVec.twoPow 8 k ≠ 0) = x.getLsbD k := by
  rw [BitVec.and_twoPow]
  cases x.getLsbD k
  · rfl
  · exact decide_eq_true (by revert k; decide)

section
variable (m : Memory)

theorem rxFlag_bit {n : Nat} (hn : n < 2) : rxFlag .mcp2515 m n = (reg m 0x2C).getLsbD n := by
  obtain rfl | rfl : n = 0 ∨ n = 1 := by omega
  · exact decide_and_twoPow_ne_zero _ (by decide : 0 < 8)
  · exact decide_and_twoPow_ne_zero _ (by decide : 1 < 8)

theorem txFlag_bit {n : Nat} (hn : n < 3) : txFlag .mcp2515 m n = (reg m 0x2C).getLsbD (n + 2) := by
  obtain rfl | rfl | rfl : n = 0 ∨ n = 1 ∨ n = 2 := by omega
  · exact decide_and_twoPow_ne_zero _ (by decide : 2 < 8)
  · exact decide_and_twoPow_ne_zero _ (by decide : 3 < 8)
  · exact decide_and_twoPow_ne_zero _ (by decide : 4 < 8)

theorem txreq_bit {n : Nat} (hn : n < 3) : txreq .mcp2515 m n = (reg m (txBase n)).getLsbD 3 := by
  rw [← txbBase_mcp2515 hn]
  exact decide_and_twoPow_ne_zero _ (by decide : 3 < 8)

end

/-- Settles O46: each bit of the status byte is one flag, and the others of its parts leave it 0. -/
theorem readStatusGathersTheFlags : Obligations.ReadStatusGathersTheFlags := by
  intro s k hchip ha hb
  refine ⟨fun h0 => masterExchange_refuses hb ha (if_pos h0), fun h1 => ?_⟩
  have heffect : activeEffect s.params (.readStatus k) s.peer s.draws = .next
      { peer := s.peer
        miso := none :: List.replicate k (some (readStatusByte .mcp2515 s.peer))
        draws := s.draws } := by
    rw [activeEffect, if_neg (by omega), hchip]
    rfl
  refine ⟨_, masterExchange_completes hb ha hchip heffect, ?_⟩
  simp only [readStatusByte, BitVec.getLsbD_or, getLsbD_bitAt, Nat.reduceLT]
  simp [rxFlag_bit, txFlag_bit, txreq_bit, txBase]

section
variable (m : Memory)

/-- FILHIT is within bits 2:0 in both receive buffers (R29). -/
theorem filterHit_and (n : Nat) : filterHit .mcp2515 m n &&& 0x07 = filterHit .mcp2515 m n := by
  have hmask : filhitMask .mcp2515 n &&& 0x07 = filhitMask .mcp2515 n := by
    cases n with
    | zero => rfl
    | succ n => exact (by decide : 0x07 &&& 0x07 = (0x07 : Byte))
  rw [filterHit, BitVec.and_assoc, hmask]

theorem getLsbD_filterHit (n : Nat) {i : Nat} (h3 : 3 ≤ i) (hi : i < 8) :
    (filterHit .mcp2515 m n).getLsbD i = false := by
  have hmask : ∀ i < 8, 3 ≤ i → (0x07 : Byte).getLsbD i = false := by decide
  rw [← filterHit_and, BitVec.getLsbD_and, hmask i hi h3, Bool.and_false]

theorem bitAt_and_low (b : Bool) {k : Nat} (h3 : 3 ≤ k) (hk : k < 8) : bitAt b k &&& 0x07 = 0 := by
  have hlow : ∀ b : Bool, ∀ k < 8, 3 ≤ k → bitAt b k &&& 0x07 = 0 := by decide
  exact hlow b k hk h3

variable (free : Byte)

/-- The fields of RX_STATUS when buffer n alone holds a message: the buffer, the type and the filter (R195). -/
theorem rxStatusOf_fields {n : Nat} :
    let st := rxStatusOf .mcp2515 m n ||| (free &&& 0x20)
    st.getLsbD 6 = decide (n = 0) ∧ st.getLsbD 7 = decide (n = 1) ∧ st.getLsbD 4 = rxExtended .mcp2515 m n ∧
      st.getLsbD 3 = rxRemote .mcp2515 m n ∧ st &&& 0x07 = filterHit .mcp2515 m n := by
  have hfree : free &&& 0x20 &&& 0x07 = 0 := (BitVec.and_assoc ..).trans BitVec.and_zero
  refine ⟨?_, ?_, ?_, ?_, ?filter⟩
  case filter =>
    simp only [rxStatusOf, BitVec.and_or_distrib_right, bitAt_and_low, filterHit_and, hfree, Nat.reduceLT,
      Nat.reduceLeDiff]
    simp
  all_goals
    simp only [rxStatusOf, BitVec.getLsbD_or, BitVec.getLsbD_and, getLsbD_bitAt, getLsbD_filterHit, Nat.reduceLT,
      Nat.reduceLeDiff]
    simp

/-- Bits 7:6 of RX_STATUS are the receive flags, whatever the bits left open (R195). -/
theorem rxStatusByte_flags : (rxStatusByte .mcp2515 m free).getLsbD 6 = rxFlag .mcp2515 m 0 ∧
    (rxStatusByte .mcp2515 m free).getLsbD 7 = rxFlag .mcp2515 m 1 := by
  unfold rxStatusByte
  split
  next h0 h1 => simp [h0, h1]
  next h0 h1 =>
    obtain ⟨h6, h7, -⟩ := rxStatusOf_fields m free (n := 0)
    exact ⟨h6.trans h0.symm, h7.trans h1.symm⟩
  next h0 h1 =>
    obtain ⟨h6, h7, -⟩ := rxStatusOf_fields m free (n := 1)
    exact ⟨h6.trans h0.symm, h7.trans h1.symm⟩
  next h0 h1 => simp [h0, h1]

variable {m}

theorem rxStatusByte_of_first (h0 : rxFlag .mcp2515 m 0 = true) (h1 : rxFlag .mcp2515 m 1 = false) :
    rxStatusByte .mcp2515 m free = rxStatusOf .mcp2515 m 0 ||| (free &&& 0x20) := by
  rw [rxStatusByte, h0, h1]

theorem rxStatusByte_of_second (h0 : rxFlag .mcp2515 m 0 = false) (h1 : rxFlag .mcp2515 m 1 = true) :
    rxStatusByte .mcp2515 m free = rxStatusOf .mcp2515 m 1 ||| (free &&& 0x20) := by
  rw [rxStatusByte, h0, h1]

end

/-- Settles O47: the flags choose what the byte is made of; with one set it has the fields of that buffer. -/
theorem rxStatusNamesTheFullBuffers : Obligations.RxStatusNamesTheFullBuffers := by
  intro s k hchip ha hb
  refine ⟨fun h0 => masterExchange_refuses hb ha (if_pos h0), fun h1 => ?_⟩
  have heffect : activeEffect s.params (.rxStatus k) s.peer s.draws = .next
      { peer := s.peer
        miso := none :: some (rxStatusByte .mcp2515 s.peer (Config.freeByte s.draws)) :: noValue (k - 1)
        draws := s.draws + 1 } := by
    rw [activeEffect, if_neg (by omega), hchip]
  obtain ⟨hflag0, hflag1⟩ := rxStatusByte_flags s.peer (Config.freeByte s.draws)
  refine ⟨_, masterExchange_completes hb ha hchip heffect, hflag0, hflag1, fun h0 h1 => ?_, fun h0 h1 => ?_⟩
  · obtain ⟨-, -, hfields⟩ := rxStatusOf_fields s.peer (Config.freeByte s.draws) (n := 0)
    rw [rxStatusByte_of_first _ h0 h1]
    exact hfields
  · obtain ⟨-, -, hfields⟩ := rxStatusOf_fields s.peer (Config.freeByte s.draws) (n := 1)
    rw [rxStatusByte_of_second _ h0 h1]
    exact hfields

end Sys2Proof.Machine
end

