-- ==== Sys2Proof/Proofs/Errors.lean ====
section
/-!
SUPPORT. A command that raises an error: every command's rule is a script of at most four exchanges, which are READs alone
if it ends with an error. So with nobody else to act it ends, and on an awake chip it leaves the peer and CTRL as they
were if its answer is an error.
-/

namespace Sys2Proof.Machine

/-! ## READs -/

/-- The exchange is a READ (R190). -/
def IsRead (x : Exchange) : Prop := ∃ a n, x = .read a n

/-- On an active interface a READ changes nothing (R59, R190). -/
theorem exchangeEffect_read_peer {q : Params} {x : Exchange} {m : Memory} {d : Nat} {r : BusResult}
    (ha : asleep q m = false) (hx : IsRead x) (h : exchangeEffect q x m d = .next r) : r.peer = m := by
  obtain ⟨a, n, rfl⟩ := hx
  rw [exchangeEffect_awake ha] at h
  simp only [activeEffect] at h
  split at h
  · cases h
  · split at h <;> cases h
    rfl

/-! ## The commands as scripts that err after READs alone -/

/-- A script that ends with an action of its own after fewer exchanges than a command has actions, all of them READs if it
ends with an error (R215, R262). -/
structure ErrsAfterReads (exchanges : Params → Byte → List Byte → List Exchange) (ending : View → Action) : Prop where
  readsKeep : ∀ q ctrl, ReadsKeep (exchanges q ctrl)
  ending_ne_issue : ∀ v x, ending v ≠ .issue x
  length_lt : ∀ q ctrl got, (exchanges q ctrl got).length < maxActions
  reads : ∀ v e, ending v = .raise e → ∀ x ∈ exchanges v.params v.ctrl v.got, IsRead x

section
variable (kind : FrameKind) (type : FrameType) (buf : BitVec 2) (id : BitVec 32) (data : List Byte)

theorem length_frameExchanges_lt (send : Bool) (q : Params) :
    (frameExchanges kind type buf id data send q).length < maxActions := by
  unfold frameExchanges
  split
  · cases send
    · exact (by decide : 2 < 5)
    · exact (by decide : 3 < 5)
  · decide

theorem frameExchanges_of_raise (send : Bool) {v : View} {e : Error}
    (h : frameEnding kind type buf id data v = .raise e) : frameExchanges kind type buf id data send v.params = [] := by
  refine if_neg fun hp => ?_
  rw [frameEnding, hp] at h
  cases h

/-- ENCODE and SEND err before their first exchange (R120). -/
theorem frame_errsAfterReads (send : Bool) :
    ErrsAfterReads (fun q _ _ => frameExchanges kind type buf id data send q) (frameEnding kind type buf id data) where
  readsKeep _ _ := readsKeep_const _
  ending_ne_issue := frameEnding_ne_issue kind type buf id data
  length_lt q _ _ := length_frameExchanges_lt kind type buf id data send q
  reads v e h x hx := by
    rw [frameExchanges_of_raise kind type buf id data send h] at hx
    cases hx

/-- TRIGGER errs before its exchange (R127). -/
theorem trigger_errsAfterReads : ErrsAfterReads (fun q _ _ => triggerExchanges buf q) (triggerEnding buf) where
  readsKeep _ _ := readsKeep_const _
  ending_ne_issue := triggerEnding_ne_issue buf
  length_lt q _ _ := by
    unfold triggerExchanges
    split
    · decide
    · exact (by decide : 1 < 5)
  reads v e h x hx := by
    unfold triggerEnding at h
    unfold triggerExchanges at hx
    split at h
    next hb =>
      rw [if_pos hb] at hx
      cases hx
    next => cases h

theorem length_receiveExchanges_lt (c : Chip) (ctrl : Byte) (len : Nat) :
    (receiveExchanges c ctrl buf len).length < maxActions := by
  have hpayload : (if len = 0 then [] else [readPayload c buf len]).length ≤ 1 := by
    split <;> simp
  have hflag : (if intmode ctrl then [clearFlag c buf] else []).length ≤ 1 := by
    split <;> simp
  simp only [receiveExchanges, List.length_append, List.length_cons, List.length_nil, maxActions]
  omega

/-- DECODE errs before its first exchange or after the READ of the length (R150, R152). -/
theorem decode_errsAfterReads : ErrsAfterReads (decodeExchanges buf) (decodeEnding buf) where
  readsKeep := decodeExchanges_readsKeep buf
  ending_ne_issue := decodeEnding_ne_issue buf
  length_lt q ctrl got := by
    unfold decodeExchanges
    split
    · decide
    · split
      · exact (by decide : 1 < 5)
      · exact length_receiveExchanges_lt buf q.chip ctrl _
  reads v e h x hx := by
    unfold decodeEnding at h
    unfold decodeExchanges at hx
    split at h
    next hb =>
      rw [if_pos hb] at hx
      cases hx
    next hb =>
      split at h
      next hl =>
        rw [if_neg hb, if_pos hl] at hx
        exact ⟨_, _, List.mem_singleton.mp hx⟩
      next => cases h

end

/-- A rule that issues no exchange is a script of none. -/
theorem noExchange_errsAfterReads {p : Plan} (hp : ∀ v x, p v ≠ .issue x) : ErrsAfterReads (fun _ _ _ => []) p where
  readsKeep _ _ := readsKeep_const _
  ending_ne_issue := hp
  length_lt _ _ _ := by decide
  reads _ _ _ := nofun

theorem timingPlan_ne_issue (osc : Byte) (rate : BitVec 16) (v : View) (x : Exchange) :
    timingPlan osc rate v ≠ .issue x := by
  unfold timingPlan
  split <;> nofun

/-- A command is run by a script that errs after READs alone. -/
theorem exec_errsAfterReads {i : Instr} (hport : i.port = .command) :
    ∃ op exchanges ending, ErrsAfterReads exchanges ending ∧
      ∀ s, exec i s = runCommand op (encode i) (script exchanges ending) s := by
  cases i with
  | encodeStdData | encodeExtData | encodeStdRtr | encodeExtRtr =>
    exact ⟨_, _, _, frame_errsAfterReads _ _ _ _ _ false, fun _ => by rw [← encodePlan_eq_script]; rfl⟩
  | sendStdData | sendExtData | sendStdRtr | sendExtRtr =>
    exact ⟨_, _, _, frame_errsAfterReads _ _ _ _ _ true, fun _ => by rw [← sendPlan_eq_script]; rfl⟩
  | trigger buf => exact ⟨_, _, _, trigger_errsAfterReads buf, fun _ => by rw [← triggerPlan_eq_script]; rfl⟩
  | decode buf => exact ⟨_, _, _, decode_errsAfterReads buf, fun _ => by rw [← decodePlan_eq_script]; rfl⟩
  | timing osc rate => exact ⟨_, _, _, noExchange_errsAfterReads (timingPlan_ne_issue osc rate), fun _ => rfl⟩
  | wrctrl v => exact ⟨_, _, _, noExchange_errsAfterReads (p := wrctrlPlan v) nofun, fun _ => rfl⟩
  | spiRead | spiWrite | spiBitModify | spiReset | spiReadStatus | spiRxStatus | spiReadRxb | spiLoadTxb | spiRts =>
    simp [Instr.port, Instr.exchange?] at hport

/-! ## The run of a script with nobody else to act -/

/-- A run with enough actions left ends, when each action brings the command closer to its end: `P n` says that it is done
after at most `n` more. -/
theorem runAlone_ends {p : Plan} {P : Nat → State → Prop} (hidle : ∀ u, P 0 u → u.seq = .idle)
    (hact : ∀ n u t, P (n + 1) u → u.seq ≠ .idle → act p u = .next t → P n t) {n : Nat} {u t : State}
    (hu : P n u) (h : runAlone p n u = .next t) : t.seq = .idle ∧ ∃ m, P m t := by
  induction n generalizing u with
  | zero =>
    cases h
    exact ⟨hidle _ hu, 0, hu⟩
  | succ n ih =>
    simp only [runAlone] at h
    split at h
    next hseq =>
      cases h
      exact ⟨hseq, n + 1, hu⟩
    next hbusy =>
      split at h
      next u' hu' => exact ih (hact n u u' hu hbusy hu') h
      next => cases h
      next => cases h

/-- The command that started in `s` has answered; if with an error, then with that status alone and with the peer and
CTRL as in `s` (R211, R215). -/
structure EndsCleanly (s t : State) : Prop where
  seq : t.seq = .idle
  valid : t.resp.valid = true
  failed : ∀ st rest, t.resp.bytes = some (st :: rest) → st ≠ 0x00 → rest = [] ∧ t.peer = s.peer ∧ t.ctrl = s.ctrl

theorem endsCleanly_answered (s : State) (st : Byte) : EndsCleanly s (answered [st] s) where
  seq := rfl
  valid := rfl
  failed _ _ h _ := by
    cases h
    exact ⟨rfl, rfl, rfl⟩

/-- A command that answers with success ends cleanly whatever it did. -/
theorem endsCleanly_of_ok {s t : State} {rest : List Byte} (hseq : t.seq = .idle)
    (hresp : t.resp = { valid := true, bytes := some (0x00 :: rest) }) : EndsCleanly s t where
  seq := hseq
  valid := by rw [hresp]
  failed st _ h hst := by
    rw [hresp] at h
    cases h
    exact absurd rfl hst

/-- The command that started in `s` has issued the first `k` of its exchanges with nobody else on BUS, and the peer is as
in `s` if they were all READs. -/
structure AloneAt (s : State) (xs : List Byte → List Exchange) (k : Nat) (u : State) : Prop extends
    RunningAt s xs k u where
  bus : u.bus = .free
  peer : (∀ x ∈ (xs u.got).take k, IsRead x) → u.peer = s.peer

section
variable {s u t : State} {k : Nat}

theorem AloneAt.advance {xs : List Byte → List Exchange} (ha : Awake s) (hkeep : ReadsKeep xs) (h : AloneAt s xs k u)
    (hk : k < (xs u.got).length) {r : BusResult}
    (hr : exchangeEffect u.params (xs u.got)[k] u.peer u.draws = .next r) :
    AloneAt s xs (k + 1) ((u.afterExchange .block (xs u.got)[k] r).advance (dataBytes r.miso)) where
  toRunningAt := h.toRunningAt.advance hkeep hk hr
  bus := rfl
  peer hreads := by
    rw [State.advance_got, State.afterExchange_got, hkeep _ _ _ hk h.got, List.take_succ_eq_append_getElem hk,
      List.forall_mem_append] at hreads
    obtain ⟨hbefore, hlast⟩ := hreads
    have hpeer := h.peer hbefore
    have hawake : asleep u.params u.peer = false := by rw [h.params, hpeer]; exact ha
    exact (exchangeEffect_read_peer hawake (hlast _ (List.mem_singleton_self _)) hr).trans hpeer

variable {exchanges : Params → Byte → List Byte → List Exchange} {ending : View → Action}

/-- The last action of a script ends the command cleanly: with an error, all its exchanges were READs. -/
theorem AloneAt.ends (hscript : ErrsAfterReads exchanges ending) (h : AloneAt s (exchanges s.params s.ctrl) k u)
    (hk : (exchanges s.params s.ctrl u.got).length ≤ k) {p : Plan} (hp : p u.view = ending u.view)
    (hact : act p u = .next t) : EndsCleanly s t := by
  obtain ⟨x, hx, -⟩ | ⟨e, he, rfl⟩ | ⟨bytes, drawn, -, rfl⟩ | ⟨v, -, rfl⟩ := act_next hact
  · exact absurd (hp.symm.trans hx) (hscript.ending_ne_issue _ x)
  · have hreads := hscript.reads _ _ (hp.symm.trans he)
    rw [State.view_params, State.view_ctrl, State.view_got, h.params, h.ctrl] at hreads
    refine ⟨rfl, rfl, fun st rest hresp _ => ?_⟩
    cases hresp
    exact ⟨rfl, h.peer (by rwa [List.take_of_length_le hk]), h.ctrl⟩
  · exact endsCleanly_of_ok rfl rfl
  · exact endsCleanly_of_ok rfl rfl

/-- With nobody else on BUS, an action of a script is one exchange more or the end. -/
theorem AloneAt.act (ha : Awake s) (hscript : ErrsAfterReads exchanges ending)
    (h : AloneAt s (exchanges s.params s.ctrl) k u) (hact : act (script exchanges ending) u = .next t) :
    AloneAt s (exchanges s.params s.ctrl) (k + 1) t ∨ EndsCleanly s t := by
  obtain ⟨op, hseq⟩ := h.seq
  have hplan : script exchanges ending u.view =
      ((exchanges s.params s.ctrl u.got)[k]?).elim (ending u.view) .issue := by
    rw [script, State.view_params, State.view_ctrl, State.view_got, State.view_step, h.params, h.ctrl, hseq]
    rfl
  obtain hk | hk := Nat.lt_or_ge k (exchanges s.params s.ctrl u.got).length
  · rw [List.getElem?_eq_getElem hk] at hplan
    obtain ⟨hheld, -⟩ | ⟨-, r, hr, rfl⟩ := blockExchange_next (act_issues hplan hact)
    · exact absurd (h.bus.symm.trans hheld) nofun
    · exact .inl (h.advance ha (hscript.readsKeep _ _) hk hr)
  · rw [List.getElem?_eq_none hk] at hplan
    exact .inr (h.ends hscript hk hplan hact)

/-- The command that started in `s` is done after at most `n` more actions, or has ended cleanly. -/
def EndsWithin (s : State) (xs : List Byte → List Exchange) (n : Nat) (u : State) : Prop :=
  (∃ k, k + n = maxActions ∧ AloneAt s xs k u) ∨ EndsCleanly s u

/-- With no action left the command has ended: its exchanges are fewer than its actions (R262). -/
theorem EndsWithin.idle (hscript : ErrsAfterReads exchanges ending) (h : EndsWithin s (exchanges s.params s.ctrl) 0 u) :
    u.seq = .idle := by
  obtain ⟨k, hk, hrun⟩ | hend := h
  · have hlt := hscript.length_lt s.params s.ctrl u.got
    have hle := hrun.le
    omega
  · exact hend.seq

theorem EndsWithin.act (ha : Awake s) (hscript : ErrsAfterReads exchanges ending) {n : Nat}
    (h : EndsWithin s (exchanges s.params s.ctrl) (n + 1) u) (hbusy : u.seq ≠ .idle)
    (hact : act (script exchanges ending) u = .next t) : EndsWithin s (exchanges s.params s.ctrl) n t := by
  obtain ⟨k, hk, hrun⟩ | hend := h
  · exact (hrun.act ha hscript hact).imp_left fun hrun' => ⟨k + 1, by omega, hrun'⟩
  · exact absurd hend.seq hbusy

theorem runAlone_endsCleanly (ha : Awake s) (hscript : ErrsAfterReads exchanges ending)
    (hstart : AloneAt s (exchanges s.params s.ctrl) 0 u)
    (h : runAlone (script exchanges ending) maxActions u = .next t) : EndsCleanly s t := by
  obtain ⟨hidle, _, ⟨k, -, hrun⟩ | hend⟩ := runAlone_ends (P := EndsWithin s (exchanges s.params s.ctrl))
    (fun _ hu => hu.idle hscript) (fun _ _ _ hu hbusy hact => hu.act ha hscript hbusy hact)
    (.inl ⟨0, Nat.zero_add _, hstart⟩) h
  · exact absurd hidle hrun.not_idle
  · exact hend

/-- Alone on an awake chip, a command whose script errs after READs alone ends cleanly. -/
theorem runCommand_endsCleanly (hscript : ErrsAfterReads exchanges ending) (hready : Ready s) (hal : Alone s)
    (ha : Awake s) {op : Op} {bytes : List Byte} (h : runCommand op bytes (script exchanges ending) s = .next t) :
    EndsCleanly s t := by
  cases hc : structuralCheck bytes with
  | some r =>
    rw [runCommand_refused hready hc] at h
    cases h
    exact endsCleanly_answered s _
  | none =>
    obtain ⟨hag, hbus⟩ := hal
    rw [runCommand_ready hready hc, hag, drive_alone _ (s := s.accept op bytes) hag] at h
    have hrunning : RunningAt s (exchanges s.params s.ctrl) 0 (s.accept op bytes) :=
      ⟨rfl, rfl, ⟨op, rfl⟩, Nat.zero_le _, (List.append_nil _).symm, rfl⟩
    exact runAlone_endsCleanly ha hscript ⟨hrunning, hbus, fun _ => rfl⟩ h

end

/-- Settles O58: a command's rule errs after READs alone, and a READ leaves an awake peer as it is. -/
theorem failedCommandLeavesPeerAndCtrl : Obligations.FailedCommandLeavesPeerAndCtrl := by
  intro s t i st rest hport hs hal ha h hresp hst
  obtain ⟨op, exchanges, ending, hscript, hrun⟩ := exec_errsAfterReads hport
  rw [hrun] at h
  have hend := runCommand_endsCleanly hscript hs hal ha h
  obtain ⟨hrest, hpeer, hctrl⟩ := hend.failed st rest hresp hst
  exact ⟨hrest, hpeer, hctrl, hend.seq, hend.valid⟩

end Sys2Proof.Machine
end

