-- ==== Sys2Proof/Proofs/Completion.lean ====
section
/-!
SUPPORT. A command with nobody else to act completes, in Sleep too: it keeps to its script, whose exchanges are fewer
than the actions of its run, so the run reaches its end, and every exchange recorded on the way is the block's.
-/

namespace Sys2Proof.Machine

variable {s u t : State} {p : Plan} {issued : List BusRecord}

/-! ## The run of the block alone -/

/-- The block after one exchange of its command and the bytes it read (R23). -/
def State.exchanged (x : Exchange) (r : BusResult) (u : State) : State :=
  (u.afterExchange .block x r).advance (dataBytes r.miso)

/-- The record of an exchange of the block. -/
def blockRecord (u : State) (x : Exchange) (r : BusResult) : BusRecord :=
  { who := .block, mosi := encodeExchange u.params.chip x, miso := r.miso }

theorem exchanged_trace (x : Exchange) (r : BusResult) :
    (u.exchanged x r).trace = u.trace ++ [blockRecord u x r] := rfl

theorem exchanged_seq_ne_idle (hbusy : u.seq ≠ .idle) (x : Exchange) (r : BusResult) :
    (u.exchanged x r).seq ≠ .idle := by
  cases hseq : u.seq with
  | idle => exact absurd hseq hbusy
  | busy op k =>
    rw [State.exchanged, State.advance_seq_busy (u.afterExchange .block x r) _ hseq]
    nofun

/-- From `s` to `u` nobody acted but the block: it put `issued` on the bus, and once the command has ended a response
waits. -/
structure OnlyBlockActed (s : State) (issued : List BusRecord) (u : State) : Prop where
  alone : Alone u
  trace : u.trace = s.trace ++ issued
  who : ∀ r ∈ issued, r.who = .block
  answered : u.seq = .idle → u.resp.valid = true

/-- Nothing on the bus yet. -/
theorem OnlyBlockActed.silent (hal : Alone u) (htrace : u.trace = s.trace) (hv : u.seq = .idle → u.resp.valid = true) :
    OnlyBlockActed s [] u :=
  ⟨hal, htrace.trans (List.append_nil _).symm, nofun, hv⟩

/-- One exchange of the block, and then others. -/
theorem OnlyBlockActed.cons {x : Exchange} {r : BusResult} (h : OnlyBlockActed (u.exchanged x r) issued t) :
    OnlyBlockActed u (blockRecord u x r :: issued) t where
  alone := h.alone
  trace := by rw [h.trace, exchanged_trace, ← List.append_cons]
  who := List.forall_mem_cons.mpr ⟨rfl, h.who⟩
  answered := h.answered

/-- With BUS free an action of the block is one exchange more, or it ends the command with a response. -/
theorem act_alone (hal : Alone u) (h : act p u = .next t) :
    (∃ x r, p u.view = .issue x ∧ exchangeEffect u.params x u.peer u.draws = .next r ∧ t = u.exchanged x r) ∨
    (t.seq = .idle ∧ OnlyBlockActed u [] t) := by
  obtain ⟨x, hx, hex⟩ | ⟨e, -, rfl⟩ | ⟨bytes, drawn, -, rfl⟩ | ⟨v, -, rfl⟩ := act_next h
  · obtain ⟨hheld, -⟩ | ⟨-, r, hr, rfl⟩ := blockExchange_next hex
    · exact absurd (hal.2.symm.trans hheld) nofun
    · exact .inl ⟨x, r, hx, hr, rfl⟩
  all_goals exact .inr ⟨rfl, .silent hal rfl fun _ => rfl⟩

/-- A run with an action to take begins with it. -/
theorem runAlone_succ_next {n : Nat} (hbusy : u.seq ≠ .idle) (h : runAlone p (n + 1) u = .next t) :
    ∃ u', act p u = .next u' ∧ runAlone p n u' = .next t := by
  rw [runAlone, if_neg hbusy] at h
  split at h
  next u' hu' => exact ⟨u', hu', h⟩
  next => cases h
  next => cases h

/-- Every action of a run alone is an exchange or the last, so a run that does not reach the end has used all its
actions on exchanges (R262). -/
theorem runAlone_onlyBlockActed {n : Nat} (hal : Alone u) (hbusy : u.seq ≠ .idle) (h : runAlone p n u = .next t) :
    ∃ issued, OnlyBlockActed u issued t ∧ (t.seq = .idle ∨ issued.length = n) := by
  induction n generalizing u with
  | zero =>
    cases h
    exact ⟨[], .silent hal rfl fun hidle => absurd hidle hbusy, .inr rfl⟩
  | succ n ih =>
    obtain ⟨u', hu', hrun⟩ := runAlone_succ_next hbusy h
    obtain ⟨x, r, -, -, rfl⟩ | ⟨hidle, hend⟩ := act_alone hal hu'
    · obtain ⟨issued, hblock, hlen⟩ := ih (u := u.exchanged x r) ⟨hal.1, rfl⟩ (exchanged_seq_ne_idle hbusy x r) hrun
      exact ⟨_, hblock.cons, hlen.imp_right (congrArg Nat.succ)⟩
    · rw [runAlone_idle hidle] at hrun
      cases hrun
      exact ⟨[], hend, .inl hidle⟩

/-! ## The run of a script -/

/-- Where only the block acted, its exchanges are all there are. -/
theorem OnlyBlockActed.blockMosi (h : OnlyBlockActed s issued u) :
    blockMosi u.trace = blockMosi s.trace ++ issued.map BusRecord.mosi := by
  have hall : issued.filter (fun r => decide (r.who = .block)) = issued :=
    List.filter_eq_self.mpr fun r hr => decide_eq_true (h.who r hr)
  rw [Machine.blockMosi, h.trace, List.filter_append, hall, List.map_append, Machine.blockMosi]

section
variable {exchanges : Params → Byte → List Byte → List Exchange} {ending : View → Action}

/-- A command that keeps to a script has issued fewer exchanges than a run has actions (R262). -/
theorem OnScript.issued_lt (hscript : ErrsAfterReads exchanges ending)
    (h : OnScript s (exchanges s.params s.ctrl) ending t) (hblock : OnlyBlockActed s issued t) :
    issued.length < maxActions := by
  obtain ⟨xs, hmosi, hlt⟩ : ∃ xs : List Exchange,
      blockMosi t.trace = blockMosi s.trace ++ xs.map (encodeExchange s.params.chip) ∧ xs.length < maxActions := by
    obtain ⟨k, hrun⟩ | ⟨v, hend⟩ := h
    · exact ⟨_, hrun.mosi, Nat.lt_of_le_of_lt (List.length_take_le' ..) (hscript.length_lt s.params s.ctrl t.got)⟩
    · exact ⟨_, hend.mosi, hscript.length_lt s.params s.ctrl v.got⟩
  have hlen := congrArg List.length (List.append_cancel_left (hblock.blockMosi.symm.trans hmosi))
  rw [List.length_map, List.length_map] at hlen
  exact hlen ▸ hlt

/-- Alone, a command run by a script completes if it stops neither with a fault nor with a refusal (R262). -/
theorem runCommand_completesAlone (hscript : ErrsAfterReads exchanges ending) (hs : Ready s) (hal : Alone s) {op : Op}
    {bytes : List Byte} (h : runCommand op bytes (script exchanges ending) s = .next t) :
    ∃ issued, OnlyBlockActed s issued t ∧ t.seq = .idle ∧ issued.length < maxActions := by
  cases hc : structuralCheck bytes with
  | some r =>
    rw [runCommand_refused hs hc] at h
    cases h
    exact ⟨[], .silent hal rfl fun _ => rfl, rfl, by decide⟩
  | none =>
    have hon := runCommand_onScript (hscript.readsKeep _ _) hscript.ending_ne_issue hs (by rw [hal.1]; nofun) hc h
    rw [runCommand_ready hs hc, hal.1, drive_alone _ (s := s.accept op bytes) hal.1] at h
    obtain ⟨issued, ⟨halone, htrace, hwho, hanswered⟩, hend⟩ :=
      runAlone_onlyBlockActed (u := s.accept op bytes) hal (by rw [State.accept_seq]; nofun) h
    have hblock : OnlyBlockActed s issued t := ⟨halone, htrace, hwho, hanswered⟩
    have hlt := hon.issued_lt hscript hblock
    exact ⟨issued, hblock, hend.resolve_right (Nat.ne_of_lt hlt), hlt⟩

end

/-- Settles O59: no exchange of the command's script stops it, so it runs to its end, which fewer exchanges precede than
a run has actions. -/
theorem everyCommandCompletesInFourExchanges : Obligations.EveryCommandCompletesInFourExchanges := by
  intro s i hc hport hs hal
  obtain ⟨t, ht⟩ := noCommandStopsTheMachine s i hc hport (by rw [hal.1]; nofun)
  obtain ⟨op, exchanges, ending, hscript, hrun⟩ := exec_errsAfterReads hport
  obtain ⟨issued, hblock, hidle, hlen⟩ := runCommand_completesAlone hscript hs hal ((hrun s).symm.trans ht)
  exact ⟨t, issued, ht, hidle, hblock.answered hidle, hblock.trace, Nat.le_of_lt_succ hlen, hblock.who, hblock.alone⟩

end Sys2Proof.Machine
end

