-- ==== Sys2Proof/Proofs/BlockReset.lean ====
section
/-!
SUPPORT. Block reset: in a turn of its own, and in the run of a command, where the exchanges issued before it are those
the command issues alone. With them the state after reset and the parameters, which no reset changes.
-/

namespace Sys2Proof.Machine

variable {s u t : State} {p : Plan} {ts : List Turn}

/-- Settles O53: the clauses of the invariant, read off `State.reset`. -/
theorem invariantHoldsAtReset : Obligations.InvariantHoldsAtReset where
  chip := mcp2515_chipOk
  peerWf := rfl
  peerKeys := rfl
  ctrl := by decide
  sequencer := sequencerOk_idle rfl rfl rfl
  bus := nofun
  response := rfl

/-- Settles O55: the parameters along a step, block reset among them. -/
theorem noStepChangesTheParameters : Obligations.NoStepChangesTheParameters := fun _ _ h => step_params h

/-! ## A turn of the reset input -/

theorem step_reset (h : s.agenda = .reset :: ts) : step s = .next { s.blockReset with agenda := ts } :=
  step_other h nofun

/-- An idle block with nobody else to act and no command at the port waits (R240). -/
theorem step_waits (hag : s.agenda = []) (hseq : s.seq = .idle) (hport : s.port = []) : step s = .next s :=
  step_alone hag (by simp only [fetchBlock, hseq, hport])

/-- A reset ends the command in progress, and the turns after it stay for later (R240). -/
theorem drive_reset (hbusy : u.seq ≠ .idle) : drive p (.reset :: ts) u = .next { u.blockReset with agenda := ts } := by
  rw [drive, if_neg hbusy]
  exact drive_idle (State.blockReset_seq u) ts

/-! ## The exchanges before the reset -/

/-- An exchange of R55 is a well-formed one. -/
theorem BlockExchange.wellFormed {q : Params} {x : Exchange} (hx : BlockExchange q x) : x.wellFormed = true := by
  cases hx with
  | @ident kind buf id hbuf =>
    have hlen := length_packId_mem q.chip kind id
    exact decide_eq_true (by omega)
  | @payload type buf data hbuf hlen =>
    exact decide_eq_true (Nat.le_add_left 1 (payloadWritten type data).length)
  | trigger hbuf =>
    unfold triggerExchange
    cases q.triggerForm <;> rfl
  | readIdent hbuf => rfl
  | readRxbCtrl hbuf => rfl
  | readPayload hbuf h1 h8 => exact decide_eq_true h1
  | clearFlag hbuf => rfl

/-- The effect of a sequence of exchanges is that of the first, then of the others. -/
theorem peerAfter_cons {q : Params} (hq : q.chip = .mcp2515) {x : Exchange} (hx : x.wellFormed = true) {m : Memory}
    {d : Nat} {r : BusResult} (hr : exchangeEffect q x m d = .next r) (mosis : List (List Byte)) :
    peerAfter q (encodeExchange q.chip x :: mosis) m d = peerAfter q mosis r.peer r.draws := by
  rw [peerAfter, hq, decodeExchange_encodeExchange hx]
  simp only [hr]

/-- Exchanges that draw no free value leave the peer that `peerAfter` replays (R240). -/
theorem Performs.peerAfter_eq {q : Params} (hq : q.chip = .mcp2515) {xs : List Exchange} {m m' : Memory}
    {records : List BusRecord} (h : Performs q xs m records m') (hxs : ∀ x ∈ xs, x.wellFormed = true) (d : Nat) :
    peerAfter q (records.map BusRecord.mosi) m d = (m', d) := by
  induction h with
  | nil => rfl
  | cons hx _ ih =>
    obtain ⟨hhead, htail⟩ := List.forall_mem_cons.mp hxs
    exact (peerAfter_cons hq hhead (hx d) _).trans (ih htail)

/-- The block in `u` after these exchanges and a reset: they stay done (R240). -/
def State.resetAfter (records : List BusRecord) (u : State) : State :=
  { u.blockReset with
    peer := (peerAfter u.params (records.map BusRecord.mosi) u.peer u.draws).1
    draws := (peerAfter u.params (records.map BusRecord.mosi) u.peer u.draws).2
    trace := u.trace ++ records }

theorem resetAfter_nil (u : State) : u.resetAfter [] = u.blockReset := by
  rw [State.resetAfter, List.append_nil]
  rfl

theorem resetAfter_exchanged (hchip : Mcp2515 u) (hbus : u.bus = .free) {x : Exchange} (hx : x.wellFormed = true)
    {r : BusResult} (hr : exchangeEffect u.params x u.peer u.draws = .next r) (records : List BusRecord) :
    (u.exchanged x r).resetAfter records = u.resetAfter (blockRecord u x r :: records) := by
  have hpeer := peerAfter_cons hchip hx hr (records.map BusRecord.mosi)
  simp [State.resetAfter, State.exchanged, State.blockReset, State.advance, State.afterExchange, blockRecord, hpeer,
    hbus]

/-! ## A command reset between two of its exchanges -/

/-- A run alone that puts a record on the bus does so by its first action. -/
theorem runAlone_first {n : Nat} {record : BusRecord} {issued : List BusRecord} (hal : Alone u) (hbusy : u.seq ≠ .idle)
    (h : runAlone p n u = .next t) (htrace : t.trace = u.trace ++ record :: issued) :
    ∃ k x r, p u.view = .issue x ∧ exchangeEffect u.params x u.peer u.draws = .next r ∧
      record = blockRecord u x r ∧ runAlone p k (u.exchanged x r) = .next t ∧
      t.trace = (u.exchanged x r).trace ++ issued := by
  have hmore : t.trace ≠ u.trace := by simp [htrace]
  cases n with
  | zero => cases h; exact absurd rfl hmore
  | succ n =>
    obtain ⟨u', hu', hrun⟩ := runAlone_succ_next hbusy h
    obtain ⟨x, r, hx, hr, rfl⟩ | ⟨hidle, hend⟩ := act_alone hal hu'
    · obtain ⟨rest, hblock, -⟩ :=
        runAlone_onlyBlockActed (u := u.exchanged x r) ⟨hal.1, rfl⟩ (exchanged_seq_ne_idle hbusy x r) hrun
      obtain ⟨rfl, rfl⟩ := List.cons.inj (List.append_cancel_left (htrace.symm.trans hblock.cons.trace))
      exact ⟨n, x, r, hx, hr, rfl, hrun, hblock.trace⟩
    · rw [runAlone_idle hidle] at hrun
      cases hrun
      exact absurd (hend.trace.trans (List.append_nil _)) hmore

/-- The block's turn with an exchange to issue performs it, whatever turns come after. -/
theorem drive_exchange (hbusy : u.seq ≠ .idle) (hbus : u.bus = .free) {x : Exchange} {r : BusResult}
    (hx : p u.view = .issue x) (hr : exchangeEffect u.params x u.peer u.draws = .next r) :
    drive p (.block :: ts) u = drive p ts (u.exchanged x r) := by
  simp only [drive, if_neg hbusy, turn, act_issue hx hbus hr, State.exchanged]

/-- A reset after `k` of the exchanges that the command issues alone: those stay done and no other is issued (R240). -/
theorem drive_reset_after {k n : Nat} {issued : List BusRecord} (hp : PlanKeepsToR55 p) (hchip : Mcp2515 u)
    (hal : Alone u) (hbusy : u.seq ≠ .idle) (h : runAlone p n u = .next t) (htrace : t.trace = u.trace ++ issued)
    (hk : k ≤ issued.length) (agenda : List Turn) :
    drive p (List.replicate k .block ++ .reset :: ts) { u with agenda := agenda } =
      .next { u.resetAfter (issued.take k) with agenda := ts } := by
  induction k generalizing u n issued with
  | zero =>
    rw [List.take_zero, resetAfter_nil]
    exact drive_reset (u := { u with agenda := agenda }) hbusy
  | succ k ih =>
    cases issued with
    | nil => cases hk
    | cons record issued =>
      obtain ⟨n, x, r, hx, hr, rfl, hrun, htrace⟩ := runAlone_first hal hbusy h htrace
      rw [List.take_succ_cons, ← resetAfter_exchanged hchip hal.2 (hp _ _ hx).wellFormed hr]
      exact (drive_exchange (u := { u with agenda := agenda }) hbusy hal.2 hx hr).trans
        (ih (u := u.exchanged x r) hchip ⟨hal.1, rfl⟩ (exchanged_seq_ne_idle hbusy x r) hrun htrace
          (Nat.le_of_succ_le_succ hk))

section
variable {i : Instr} (hport : i.port = .command) (hwf : i.wellFormed = true) (hs : Ready s)
include hport hwf hs

/-- A reset before its first exchange leaves nothing of a command (R240). -/
theorem exec_reset (hag : s.agenda = .reset :: ts) : exec i s = .next { s.blockReset with agenda := ts } := by
  obtain ⟨op, p, -, hrun⟩ := exec_r55 hport
  rw [hrun, runCommand_ready hs (structuralCheck_encode hwf hport), hag]
  exact drive_reset (u := s.accept op (encode i)) (by rw [State.accept_seq]; nofun)

/-- A reset after `k` of the exchanges that a command issues alone leaves those done (R240). -/
theorem exec_reset_after {alone : State} {issued : List BusRecord} {k : Nat} (hchip : Mcp2515 s)
    (hbus : s.bus = .free) (halone : exec i { s with agenda := [] } = .next alone)
    (htrace : alone.trace = s.trace ++ issued) (hk : k ≤ issued.length)
    (hag : s.agenda = List.replicate k .block ++ .reset :: ts) :
    exec i s = .next { s.resetAfter (issued.take k) with agenda := ts } := by
  obtain ⟨op, p, hp, hrun⟩ := exec_r55 hport
  have hc := structuralCheck_encode hwf hport
  have hbusy : (State.accept op (encode i) { s with agenda := [] }).seq ≠ .idle := by rw [State.accept_seq]; nofun
  rw [hrun, runCommand_ready (s := { s with agenda := [] }) hs hc] at halone
  rw [hrun, runCommand_ready hs hc, hag]
  exact drive_reset_after (u := State.accept op (encode i) { s with agenda := [] }) hp hchip ⟨rfl, hbus⟩ hbusy halone
    htrace hk s.agenda

end

/-- A TRIGGER that is reset after its one exchange has requested the transmission and nothing else (R127, R240). -/
theorem exec_trigger_reset_after {buf : BitVec 2} (hbuf : buf.toNat < 3) (hchip : Mcp2515 s) (ha : Awake s)
    (hm : s.peer.wf = true) (hs : Ready s) (hbus : s.bus = .free) (hag : s.agenda = .block :: .reset :: ts) :
    exec (.trigger buf) s = .next { s.blockReset with
      peer := requestTransmit .mcp2515 s.peer buf.toNat
      trace := s.trace ++ [writeRecord (triggerMosi s.params.triggerForm buf.toNat)]
      agenda := ts } := by
  obtain ⟨alone, halone, heq, -⟩ :=
    (triggerRequestsTransmission { s with agenda := [] } buf hchip ha hm hs ⟨rfl, hbus⟩).1 hbuf
  have hpeer := (performs_trigger hchip ha hbuf).peerAfter_eq hchip
    (List.forall_mem_singleton.mpr (BlockExchange.trigger hbuf).wellFormed) s.draws
  have htrace : alone.trace = s.trace ++ [writeRecord (triggerMosi s.params.triggerForm buf.toNat)] := by rw [heq]; rfl
  rw [exec_reset_after (k := 1) rfl rfl hs hchip hbus halone htrace (Nat.le_refl 1) hag]
  simp only [State.resetAfter, List.take_succ_cons, List.take_zero, hpeer]
  rfl

/-- Settles O2: a reset is the turn of another agent; in the run of a command the block's turns before it issue what the
command issues alone. -/
theorem blockResetTakesEffectBetweenExchanges : Obligations.BlockResetTakesEffectBetweenExchanges := by
  intro s ts
  refine ⟨fun hag => ⟨step_reset hag, rfl, fun hts hport t ht => ?_⟩,
    fun i hport hwf hs hag => exec_reset hport hwf hs hag,
    fun i k alone issued hport hwf hchip hs hbus halone htrace hk hag =>
      exec_reset_after hport hwf hs hchip hbus halone htrace hk hag,
    fun buf hbuf hchip ha hm hs hbus hag =>
      ⟨_, exec_trigger_reset_after hbuf hchip ha hm hs hbus hag, rfl, fun a _ => reg_requestTransmit hm hbuf a⟩⟩
  rw [step_reset hag] at ht
  cases ht
  exact step_waits hts rfl hport

end Sys2Proof.Machine
end

