-- ==== Sys2Proof/Proofs/Sleep.lean ====
section
/-!
SUPPORT. An exchange of another master while the block holds BUS, and while the chip and its serial interface sleep:
there it ends as it would awake, with free values for what it changes and returns.
-/

namespace Sys2Proof.Machine

variable {s : State} {x : Exchange}

/-- While the block holds BUS no other master has a step (R255). -/
theorem masterExchange_held (hb : s.bus = .held .block) (x : Exchange) :
    masterExchange x s = .refused .busHeldByBlock := by
  simp only [masterExchange, hb]

section
variable (hb : s.bus ≠ .held .block)
include hb

/-- While BUS is not held by the block an exchange that takes effect completes (R32). -/
theorem masterExchange_takesEffect {r : BusResult} (h : exchangeEffect s.params x s.peer s.draws = .next r) :
    masterExchange x s = .next (s.afterExchange .other x r) := by
  unfold masterExchange
  split
  next hheld => exact absurd hheld hb
  next => rw [h]

/-- Awake or asleep, an exchange faults where the ordinary one does (log 33). -/
theorem masterExchange_fault_of_active {f : Fault} (h : activeEffect s.params x s.peer s.draws = .fault f) :
    masterExchange x s = .fault f := by
  unfold masterExchange
  split
  next hheld => exact absurd hheld hb
  next => simp only [exchangeEffect, h]

/-- Awake or asleep, an exchange is refused where the ordinary one is (log 33). -/
theorem masterExchange_refused_of_active {r : Refusal} (h : activeEffect s.params x s.peer s.draws = .refused r) :
    masterExchange x s = .refused r := by
  unfold masterExchange
  split
  next hheld => exact absurd hheld hb
  next => simp only [exchangeEffect, h]

end

/-- Asleep, what an exchange leaves is its ordinary result with free values in it (R230, G26). -/
theorem exchangeEffect_asleep {q : Params} {m : Memory} {d : Nat} {r : BusResult} (ha : asleep q m = true)
    (h : activeEffect q x m d = .next r) : exchangeEffect q x m d = .next (asleepResult q.chip m r) := by
  simp only [exchangeEffect, h, ha, if_true]

/-- Asleep, an exchange returns bytes in the positions where it does awake (log 33). -/
theorem map_isSome_redraw (d : Nat) (miso : List (Option Byte)) :
    (redraw d miso).map Option.isSome = miso.map Option.isSome := by
  induction miso generalizing d with
  | nil => rfl
  | cons b rest ih => cases b <;> simp [redraw, ih]

/-- The same state with a serial interface that is active in Sleep (R230). -/
def State.spiActive (s : State) : State := { s with params := { s.params with spiActiveInSleep := true } }

theorem awake_spiActive (s : State) : Awake s.spiActive := by
  simp [Awake, asleep, State.spiActive]

/-- The ordinary effect does not depend on the interface in Sleep. -/
theorem activeEffect_spiActive (s : State) (x : Exchange) (m : Memory) (d : Nat) :
    activeEffect s.spiActive.params x m d = activeEffect s.params x m d := by
  cases x <;> rfl

/-- Settles O51: the block's hold refuses the exchange; asleep as awake, the exchange ends the way its ordinary effect
does. -/
theorem exchangeWhileTheBusIsHeldAndInSleep : Obligations.ExchangeWhileTheBusIsHeldAndInSleep := by
  refine ⟨fun s x hb => (exec_ofExchange x s).trans (masterExchange_held hb x), fun s t x hb ha => ?_⟩
  have hasleep : asleep s.params s.peer = true := eq_true_of_ne_false ha
  have heffect : activeEffect s.spiActive.params x s.peer s.draws = _ := activeEffect_spiActive s x s.peer s.draws
  simp only [exec_ofExchange]
  change (masterExchange x s.spiActive = .next t → _) ∧ (∀ f, masterExchange x s.spiActive = .fault f → _) ∧
    ∀ r, masterExchange x s.spiActive = .refused r → _
  cases hr : activeEffect s.params x s.peer s.draws with
  | next r =>
    have hawake := (exchangeEffect_awake (awake_spiActive s)).trans (heffect.trans hr)
    rw [masterExchange_takesEffect (s := s.spiActive) hb hawake,
      masterExchange_takesEffect hb (exchangeEffect_asleep hasleep hr)]
    refine ⟨fun ht => ⟨_, _, _, rfl, fun record htrace => ?_⟩, nofun, nofun⟩
    cases ht
    obtain rfl := List.singleton_inj.mp (List.append_cancel_left htrace)
    exact map_isSome_redraw _ _
  | fault f =>
    rw [masterExchange_fault_of_active (s := s.spiActive) hb (heffect.trans hr), masterExchange_fault_of_active hb hr]
    exact ⟨nofun, fun _ h => h, nofun⟩
  | refused r =>
    rw [masterExchange_refused_of_active (s := s.spiActive) hb (heffect.trans hr),
      masterExchange_refused_of_active hb hr]
    exact ⟨nofun, nofun, fun _ h => h⟩

end Sys2Proof.Machine
end
